-- ==== Sys2Proof/Word.lean ====
section
/-! DEFINITION. The value types of the block (spec/00_scope.md R7): a bit or a line level, a byte, a 32-bit word. -/

namespace Sys2Proof

/-- A bit, or the level of a line: low is `false` (0), high is `true` (1) (R7). -/
abbrev Bit := Bool

/-- A buffer byte or a block element (20_memory.md R50, 43_session.md R159). -/
abbrev Byte := BitVec 8

/-- A command word or a host register (10_state.md R23, R31). -/
abbrev Word := BitVec 32

/-- `zext_32` of a bit (R7). -/
def Bit.toWord (b : Bit) : Word := (BitVec.ofBool b).setWidth 32

end Sys2Proof
end

