-- ==== Sys2Proof/Syntax.lean ====
section
/-! DEFINITION. The commands of spec/opcode_table.json, one constructor per row, and the line ids they name. -/

namespace Sys2Proof

/-- The four lines of 10_state.md R20, in the order of their ids 0 to 3. -/
inductive LineId where
  | iclk
  | idat
  | oclk
  | odat
  deriving DecidableEq, Repr

/-- A command (30_encoding.md R79) with its operands as R73 to R76 give them. Format X has no operand: CW[23:0] is not
examined (R77). -/
inductive Instr where
  /-- configure line `ln`: `v = 0` is IN, `v = 1` is OUT (40_line_driver.md R103) -/
  | lcfg (ln : LineId) (v : Bit)
  /-- read line `ln` (R104) -/
  | lrd (ln : LineId)
  /-- write level `v` to line `ln` (R105) -/
  | lwr (ln : LineId) (v : Bit)
  /-- send one bit (41_bit_transport.md R114) -/
  | sbit (b : Bit)
  /-- receive one bit (R115) -/
  | rbit
  /-- send one word (42_byte_framer.md R134) -/
  | sbyte (imm : BitVec 16)
  /-- receive one word (R135) -/
  | rbyte
  /-- open the session (43_session.md R152) -/
  | enable
  /-- close the session (R153) -/
  | disable
  /-- WaitForServer (R156) -/
  | wfs
  /-- send BUF[0..len-1] as one block (R163) -/
  | sblk (len : BitVec 16)
  /-- receive one block of at most `cap` data bytes (R165) -/
  | rblk (cap : BitVec 16)
  /-- write one buffer byte (44_buffer_access.md R180) -/
  | bufw (addr : BitVec 16) (data : Byte)
  /-- read one buffer byte (R181) -/
  | bufr (addr : BitVec 16)
  /-- RequestFileList, refused (45_file_level.md R190) -/
  | reqfl
  /-- ListFiles, refused (R191) -/
  | listf
  /-- SendFile, refused (R192) -/
  | sendf
  /-- RetreiveFile, refused (R193) -/
  | retrf
  deriving DecidableEq, Repr

end Sys2Proof
end

