-- ==== Sys2Proof/Decode.lean ====
section
/-! DEFINITION. The opcode map, the decoder and the encoder (spec/30_encoding.md R70 to R82, spec/opcode_table.json). -/

namespace Sys2Proof

/-- A row of the opcode map (R79). -/
inductive Row where
  | lcfg
  | lrd
  | lwr
  | sbit
  | rbit
  | sbyte
  | rbyte
  | enable
  | disable
  | wfs
  | sblk
  | rblk
  | bufw
  | bufr
  | reqfl
  | listf
  | sendf
  | retrf
  deriving DecidableEq, Repr

/-- The rows in the table's order. -/
def Row.all : List Row :=
  [.lcfg, .lrd, .lwr, .sbit, .rbit, .sbyte, .rbyte, .enable, .disable, .wfs, .sblk, .rblk, .bufw, .bufr,
    .reqfl, .listf, .sendf, .retrf]

/-- OP of a row (R79). -/
def Row.opcode : Row → BitVec 8
  | .lcfg    => 0x10
  | .lrd     => 0x11
  | .lwr     => 0x12
  | .sbit    => 0x20
  | .rbit    => 0x21
  | .sbyte   => 0x30
  | .rbyte   => 0x31
  | .enable  => 0x40
  | .disable => 0x41
  | .wfs     => 0x42
  | .sblk    => 0x43
  | .rblk    => 0x44
  | .bufw    => 0x50
  | .bufr    => 0x51
  | .reqfl   => 0x60
  | .listf   => 0x61
  | .sendf   => 0x62
  | .retrf   => 0x63

/-- `mask` of a row in opcode_table.json: the bits of the word that are fixed. -/
def Row.mask : Row → BitVec 32
  | .lcfg    => 0xFFFFFEFC
  | .lrd     => 0xFFFFFFFC
  | .lwr     => 0xFFFFFEFC
  | .sbit    => 0xFFFFFFFE
  | .rbit    => 0xFFFFFFFF
  | .sbyte   => 0xFFFF0000
  | .rbyte   => 0xFFFFFFFF
  | .enable  => 0xFFFFFFFF
  | .disable => 0xFFFFFFFF
  | .wfs     => 0xFFFFFFFF
  | .sblk    => 0xFFFF0000
  | .rblk    => 0xFFFF0000
  | .bufw    => 0xFF000000
  | .bufr    => 0xFF0000FF
  | .reqfl   => 0xFF000000
  | .listf   => 0xFF000000
  | .sendf   => 0xFF000000
  | .retrf   => 0xFF000000

/-- `match` of a row: OP in bits 31:24 and zeros below. -/
def Row.pattern (r : Row) : BitVec 32 := r.opcode ++ 0#24

/-- Format X (R77): only OP is decoded. -/
def Row.isFormatX : Row → Bool
  | .reqfl   => true
  | .listf   => true
  | .sendf   => true
  | .retrf   => true
  | .lcfg    => false
  | .lrd     => false
  | .lwr     => false
  | .sbit    => false
  | .rbit    => false
  | .sbyte   => false
  | .rbyte   => false
  | .enable  => false
  | .disable => false
  | .wfs     => false
  | .sblk    => false
  | .rblk    => false
  | .bufw    => false
  | .bufr    => false

/-- The row with opcode `op`, if OP is assigned (R80). -/
def Row.ofOpcode (op : BitVec 8) : Option Row := Row.all.find? fun r => r.opcode == op

/-- The line with a given id (10_state.md R20). -/
def LineId.ofCode (c : BitVec 2) : LineId :=
  match c.toNat with
  | 0 => .iclk
  | 1 => .idat
  | 2 => .oclk
  | _ => .odat

/-- The id of a line (R20). -/
def LineId.code : LineId → BitVec 2
  | .iclk => 0
  | .idat => 1
  | .oclk => 2
  | .odat => 3

/-- OP = CW[31:24] (R71). -/
def fieldOp (w : BitVec 32) : BitVec 8 := w.extractLsb' 24 8

/-- LN = CW[1:0] (R73). -/
def fieldLn (w : BitVec 32) : LineId := LineId.ofCode (w.extractLsb' 0 2)

/-- V = CW[8] (R73). -/
def fieldV (w : BitVec 32) : Bit := w.getLsbD 8

/-- B = CW[0] (R74). -/
def fieldB (w : BitVec 32) : Bit := w.getLsbD 0

/-- IMM16 = CW[15:0] (R75). -/
def fieldImm16 (w : BitVec 32) : BitVec 16 := w.extractLsb' 0 16

/-- ADDR16 = CW[23:8] (R76). -/
def fieldAddr16 (w : BitVec 32) : BitVec 16 := w.extractLsb' 8 16

/-- DATA8 = CW[7:0] (R76). -/
def fieldData8 (w : BitVec 32) : BitVec 8 := w.extractLsb' 0 8

/-- The command term of a row with its fields read from the word (R80, last line). -/
def Row.term (r : Row) (w : BitVec 32) : Instr :=
  match r with
  | .lcfg    => .lcfg (fieldLn w) (fieldV w)
  | .lrd     => .lrd (fieldLn w)
  | .lwr     => .lwr (fieldLn w) (fieldV w)
  | .sbit    => .sbit (fieldB w)
  | .rbit    => .rbit
  | .sbyte   => .sbyte (fieldImm16 w)
  | .rbyte   => .rbyte
  | .enable  => .enable
  | .disable => .disable
  | .wfs     => .wfs
  | .sblk    => .sblk (fieldImm16 w)
  | .rblk    => .rblk (fieldImm16 w)
  | .bufw    => .bufw (fieldAddr16 w) (fieldData8 w)
  | .bufr    => .bufr (fieldAddr16 w)
  | .reqfl   => .reqfl
  | .listf   => .listf
  | .sendf   => .sendf
  | .retrf   => .retrf

/-- The row of a command. -/
def rowOf : Instr → Row
  | .lcfg _ _ => .lcfg
  | .lrd _    => .lrd
  | .lwr _ _  => .lwr
  | .sbit _   => .sbit
  | .rbit     => .rbit
  | .sbyte _  => .sbyte
  | .rbyte    => .rbyte
  | .enable   => .enable
  | .disable  => .disable
  | .wfs      => .wfs
  | .sblk _   => .sblk
  | .rblk _   => .rblk
  | .bufw _ _ => .bufw
  | .bufr _   => .bufr
  | .reqfl    => .reqfl
  | .listf    => .listf
  | .sendf    => .sendf
  | .retrf    => .retrf

/-- Why a word is no command (R82): both are the cause of an IllegalCommand error. -/
inductive DecodeError where
  /-- OP is outside the opcode map (R82 a) -/
  | unassignedOpcode
  /-- a must-be-zero bit is 1 (R82 b) -/
  | mustBeZeroBit
  deriving DecidableEq, Repr

/-- The decoder of R80, total on 32-bit words. A format-X word gives its command, whose meaning is the refusal. -/
def decode (w : BitVec 32) : Except DecodeError Instr :=
  match Row.ofOpcode (fieldOp w) with
  | none => .error .unassignedOpcode
  | some r =>
    if r.isFormatX then .ok (r.term w)
    else if w &&& r.mask = r.pattern then .ok (r.term w)
    else .error .mustBeZeroBit

/-- The word of a command, written from the format tables R72 to R77 and the syntax table R83. -/
def encode : Instr → BitVec 32
  | .lcfg ln v   => 0x10#8 ++ 0#15 ++ BitVec.ofBool v ++ 0#6 ++ ln.code
  | .lrd ln      => 0x11#8 ++ 0#22 ++ ln.code
  | .lwr ln v    => 0x12#8 ++ 0#15 ++ BitVec.ofBool v ++ 0#6 ++ ln.code
  | .sbit b      => 0x20#8 ++ 0#23 ++ BitVec.ofBool b
  | .rbit        => 0x21#8 ++ 0#24
  | .sbyte imm   => 0x30#8 ++ 0#8 ++ imm
  | .rbyte       => 0x31#8 ++ 0#24
  | .enable      => 0x40#8 ++ 0#24
  | .disable     => 0x41#8 ++ 0#24
  | .wfs         => 0x42#8 ++ 0#24
  | .sblk len    => 0x43#8 ++ 0#8 ++ len
  | .rblk cap    => 0x44#8 ++ 0#8 ++ cap
  | .bufw addr d => 0x50#8 ++ addr ++ d
  | .bufr addr   => 0x51#8 ++ addr ++ 0#8
  | .reqfl       => 0x60#8 ++ 0#24
  | .listf       => 0x61#8 ++ 0#24
  | .sendf       => 0x62#8 ++ 0#24
  | .retrf       => 0x63#8 ++ 0#24

/-- What the decoder reads from a command whose table bits are `w`. Every command is one 32-bit word (R70), so `w` is the
whole command, with zeros above `nbits`. -/
def decodeTableWord (nbits w : Nat) : Option Instr :=
  match decode (BitVec.ofNat 32 (w % 2 ^ nbits)) with
  | .ok i => some i
  | .error _ => none

end Sys2Proof
end

