-- ==== Sys2Proof/Config.lean ====
section
/-! DEFINITION. The configuration record `cfg` of spec/00_scope.md R5, its default, the OPEN platform parameters that no
rule reads, and the free values: what the spec leaves at "any value". -/

namespace Sys2Proof

/-- BIT_ORDER (R5, 42_byte_framer.md R130). -/
inductive BitOrder where
  | msbFirst
  | lsbFirst
  deriving DecidableEq, Repr

/-- PARITY (R5, 42_byte_framer.md R131). -/
inductive Parity where
  | none
  | even
  | odd
  deriving DecidableEq, Repr

/-- BLOCK_MODE (R5, 43_session.md R160). -/
inductive BlockMode where
  | fixed
  | prefixed
  deriving DecidableEq, Repr

/-- LEN_BYTES, 1 or 2 (R5). -/
inductive LenBytes where
  | one
  | two
  deriving DecidableEq, Repr

/-- LEN_BYTES as a number. -/
def LenBytes.count : LenBytes → Nat
  | .one => 1
  | .two => 2

/-- LEN_ORDER (R5, 43_session.md R158). -/
inductive LenOrder where
  | lowFirst
  | highFirst
  deriving DecidableEq, Repr

/-- One pattern (mask, value) of HS_SEQ over the input vector `iv`: bit 0 is the ICLK sample, bit 1 the IDAT sample
(43_session.md R154). -/
structure HsPattern where
  mask  : BitVec 2
  value : BitVec 2
  deriving DecidableEq, Repr

/-- The configuration record of R5. A marker is a byte by its type, so check wf7 of R6 holds by typing; so do the ranges of
LEN_BYTES, the levels and the 2-bit patterns. -/
structure Cfg where
  width        : Nat
  bitOrder     : BitOrder
  parity       : Parity
  clkIdle      : Bit
  timeout      : Option Nat
  hsSeq        : List HsPattern
  blockMode    : BlockMode
  blockLen     : Option Nat
  lenBytes     : LenBytes
  lenOrder     : LenOrder
  startMarker  : Option Byte
  endMarker    : Option Byte
  bufSize      : Nat
  dataIdle     : Bit
  disableLevel : Bit
  deriving DecidableEq, Repr

/-- The defaults of R5. BLOCK_LEN is OPEN: it has no default and is required only when BLOCK_MODE = FIXED. -/
def Cfg.default : Cfg where
  width        := 8
  bitOrder     := .msbFirst
  parity       := .none
  clkIdle      := false
  timeout      := none
  hsSeq        := [⟨0b10, 0b00⟩, ⟨0b10, 0b10⟩]
  blockMode    := .prefixed
  blockLen     := none
  lenBytes     := .two
  lenOrder     := .lowFirst
  startMarker  := none
  endMarker    := none
  bufSize      := 256
  dataIdle     := false
  disableLevel := false

/-- IDLE of R7. -/
def Cfg.idle (c : Cfg) : Bit := c.clkIdle

/-- ACTIVE of R7: `1 - cfg.CLK_IDLE`. -/
def Cfg.active (c : Cfg) : Bit := !c.clkIdle

/-- PIN_MAP (R5, 92_eei_decisions.md D50): OPEN, read by no rule. -/
opaque Config.pinMap : Fin 4 → Nat

/-- T_SETUP_MIN (R5, 70_reset_and_hazards.md R250): OPEN, read by no rule; a premise of a timed refinement. -/
opaque Config.tSetupMin : Nat

/-- T_HOLD_MIN (R5, R250): OPEN, read by no rule. -/
opaque Config.tHoldMin : Nat

/-- T_POLL (R5, R250): OPEN, read by no rule. -/
opaque Config.tPoll : Nat

/-- HOST_BASE / 4 (20_memory.md R55, 92_eei_decisions.md D32): OPEN. The base is any address at which the four words are
aligned, so the constant counts words. -/
opaque Config.hostBaseWords : Nat

/-- The host-bus address of an offset in the register window (R55). -/
def Config.hostAddress (offset : Nat) : Nat := 4 * Config.hostBaseWords + offset

/-- FREE VALUE. The level of OCLK or ODAT when the block does not drive it, drawn afresh at each read (10_state.md R21,
93_implementation_defined.md U4). The argument is the draw's number. -/
opaque Config.freeLevel : Nat → Bit

/-- FREE VALUE. What SR holds after an error (10_state.md R34, U3). -/
opaque Config.freeShift : Nat → BitVec 16

/-- FREE VALUE. What BITCNT and POLLCNT hold after an error (R34, U3), before the counters' own bounds are applied. -/
opaque Config.freeCount : Nat → Nat

/-- FREE VALUE. Whether PHASE is WAIT_ACTIVE after a recoverable error (U3). -/
opaque Config.freePhase : Nat → Bool

end Sys2Proof
end

