-- ==== Sys2Proof/Machine/State.lean ====
section
/-! DEFINITION. The state of the block (spec/10_state.md), of its two neighbours (the peer's lines and the host's
pending moves, spec/60_exceptions.md R220 to R223), the reasons a step can stop, and the state after reset. -/

namespace Sys2Proof.Machine

/-- The direction of a line (R21). Encoding 3 does not exist. -/
inductive Dir where
  /-- never configured since reset: the pin is not driven -/
  | uncfg
  | inp
  | out
  deriving DecidableEq, Repr

/-- One value per line (R20, R21). -/
structure LineFile (α : Type) where
  iclk : α
  idat : α
  oclk : α
  odat : α
  deriving DecidableEq, Repr

/-- STATUS.SESS (R24). -/
inductive Sess where
  | disabled
  | idle
  | syncing
  | transferring
  deriving DecidableEq, Repr

/-- The errors of 60_exceptions.md R200. -/
inductive Err where
  | lineDirection
  | timeout
  | framingParity
  | framingLength
  | framingMarker
  | usage
  | illegalCommand
  deriving DecidableEq, Repr

/-- PHASE of RecvBit (R35). -/
inductive Phase where
  | waitIdle
  | waitActive
  deriving DecidableEq, Repr

/-- Which part of a block's layout the running element belongs to (43_session.md R160): a loop variable of SBLK and RBLK. -/
inductive Part where
  | startMarker
  /-- byte `j` of the length -/
  | lenByte (j : Nat)
  /-- data byte BIDX -/
  | data
  | endMarker
  deriving DecidableEq, Repr

/-- SEQ (R33): which micro-step of CUR's pseudocode runs next, with the loop variables of SendWord. -/
inductive Seq where
  /-- the first micro-step of CUR; while BUSY = 0, no command running -/
  | start
  /-- SendBit has placed its bit on ODAT: drive OCLK to ACTIVE next; `rest` are the bits still to send -/
  | clkActive (rest : List Bit)
  /-- SendBit has made the active edge: return OCLK to IDLE next -/
  | clkIdle (rest : List Bit)
  /-- SendWord: start the SendBit of the first bit of `bits` -/
  | sendNext (bits : List Bit)
  /-- RecvWord: call RecvBit for the next bit -/
  | recvBit
  /-- RecvBit: the next poll of its loop -/
  | poll
  /-- WFS: the next poll of its loop -/
  | hsPoll
  /-- SBLK, RBLK: start the element named by `part` -/
  | elem
  deriving DecidableEq, Repr

/-- The records of the event history (R38). -/
inductive Event where
  | cfg (ln : LineId) (d : Dir)
  | out (ln : LineId) (v : Bit)
  | inp (ln : LineId) (v : Bit)
  | ext (ln : LineId) (v : Bit)
  | issue (w : Word)
  | done (code : BitVec 4)
  deriving DecidableEq, Repr

/-- The reasons of the model mark `mfault` (R39). -/
inductive MFault where
  | hwFault
  | uninitRead
  deriving DecidableEq, Repr

/-- The reasons of the model mark `refused` (R39). -/
inductive RefuseReason where
  | fileLevelOp
  | blockWidth
  | hostAccess
  | illFormedConfig
  deriving DecidableEq, Repr

/-- A line the peer drives (60_exceptions.md R223). -/
inductive PeerLine where
  | iclk
  | idat
  deriving DecidableEq, Repr

/-- A host access to the register window (20_memory.md R55, R56): its byte offset, its width in bytes, and the word of a
write (`none` for a read). -/
structure HostAccess where
  offset : Nat
  width  : Nat
  write  : Option Word
  deriving DecidableEq, Repr

/-- One global step of one agent (60_exceptions.md R220). -/
inductive Move where
  /-- the block's turn (R221) -/
  | block
  /-- the peer sets one of its lines (R223) -/
  | peer (ln : PeerLine) (v : Bit)
  /-- the host accesses the register window (R222) -/
  | host (a : HostAccess)
  /-- the host asserts reset (70_reset_and_hazards.md R240) -/
  | reset
  deriving DecidableEq, Repr

/-- The block buffer: (address, byte) pairs with strictly rising addresses. An unlisted address holds no value (20_memory.md
R53). -/
abbrev Memory := List Host.Cell

/-- The state of the whole machine. -/
structure State where
  /-- the configuration, fixed for the block's lifetime (00_scope.md R5, 70_reset_and_hazards.md R244) -/
  cfg      : Cfg
  /-- DIR[0..3] (R21) -/
  dir      : LineFile Dir
  /-- OUT[0..3], the output latches (R21) -/
  out      : LineFile Bit
  /-- EXT[0], the level the peer puts on ICLK (R21) -/
  extClk   : Bit
  /-- EXT[1], the level the peer puts on IDAT (R21) -/
  extDat   : Bit
  /-- STATUS.SESS (R24) -/
  sess     : Sess
  /-- STATUS.RESYNC (R25) -/
  resync   : Bool
  /-- STATUS.BUSY (R26) -/
  busy     : Bool
  /-- STATUS.ERR (R27) -/
  err      : BitVec 4
  /-- STATUS.FAULT (R28) -/
  fault    : Bool
  /-- RES (R29) -/
  res      : Word
  /-- CUR, the latched command word (R32) -/
  cur      : Word
  /-- SEQ (R33) -/
  seq      : Seq
  /-- SR, the shift register (R34) -/
  sr       : BitVec 16
  /-- BITCNT (R34) -/
  bitCnt   : BitVec 5
  /-- POLLCNT, an unbounded natural number as R35 allows -/
  pollCnt  : Nat
  /-- PHASE (R35) -/
  phase    : Phase
  /-- HSIDX (R36) -/
  hsIdx    : Nat
  /-- PRIOR (R36) -/
  prior    : Sess
  /-- BIDX (R37) -/
  bIdx     : BitVec 17
  /-- BLEN (R37) -/
  bLen     : BitVec 17
  /-- the layout position of the running element: part of SEQ (R33, R160) -/
  part     : Part
  /-- q_0, q_1, ..: the length bytes RBLK has received so far: a loop variable of SEQ (R33, R165) -/
  lenAcc   : List Byte
  /-- BUF (20_memory.md R50 to R53) -/
  buf      : Memory
  /-- the event history, oldest first (R38) -/
  events   : List Event
  /-- the model mark `mfault` (R39) -/
  mfault   : Option MFault
  /-- the model mark `refused` (R39) -/
  refused  : Option RefuseReason
  /-- the schedule: the global steps that come next, in order (60_exceptions.md R220). The model's own. -/
  agenda   : List Move
  /-- the host program's words not yet issued (R222, R226). The model's own. -/
  program  : List Word
  /-- what the host's last access handed back (R222). The model's own. -/
  hostGot  : Option Word
  /-- how many free values have been drawn. The model's own. -/
  freeCtr  : Nat
  deriving DecidableEq, Repr

/-- Why a step stops with a fault. -/
inductive Fault where
  /-- the block is scheduled while `mfault(HW_FAULT)` or STATUS.FAULT is set (R28, R39); safe -/
  | hwFault
  /-- the block is scheduled while `mfault(UNINIT_READ)` is set (20_memory.md R53); safe -/
  | uninitRead
  /-- a command is resumed at a SEQ position of another command; in no state that `MachineInv` of Safety.lean admits; safe -/
  | seqMismatch
  /-- a buffer access outside 0..BUF_SIZE-1, which the callers' checks exclude (20_memory.md R51, R52); safe -/
  | bufRange
  deriving DecidableEq, Repr

/-- Why a step is refused. -/
inductive Refusal where
  /-- an arm of `exec` without a meaning; no arm raises it -/
  | notModelled (mnemonic : String)
  /-- the block is scheduled while `refused(FILE_LEVEL_OP)` is set (45_file_level.md R190 to R193); safe -/
  | fileLevelOp
  /-- the block is scheduled while `refused(BLOCK_WIDTH)` is set (43_session.md R162); safe -/
  | blockWidth
  /-- the block is scheduled while `refused(HOST_ACCESS)` is set (20_memory.md R56); safe -/
  | hostAccess
  /-- no machine is built from an ill-formed configuration (00_scope.md R6); safe -/
  | illFormedConfig
  /-- the schedule has the host write CMD while BUSY = 1, a move the host never makes (60_exceptions.md R222, U15 of
  93_implementation_defined.md); the spec errs toward proving here, so it is unsafe for a host that breaks the rule -/
  | cmdWriteWhileBusy
  /-- the schedule has the host write CMD while BUSY = 0, FAULT = 0 and a mark is set, a move the host never makes
  (60_exceptions.md R222; log entry 9); safe: the marked block would run nothing (10_state.md R39) -/
  | cmdWriteWhileMarked
  deriving DecidableEq, Repr

/-- The machine right after reset (R44, 70_reset_and_hazards.md R240, R241), with the default configuration, an empty
schedule and an empty host program. Where R44 says unspecified, the values are the model's (log entries 3 and 4). -/
def State.reset : State where
  cfg      := Cfg.default
  dir      := ⟨.uncfg, .uncfg, .uncfg, .uncfg⟩
  out      := ⟨false, false, false, false⟩
  extClk   := false
  extDat   := false
  sess     := .disabled
  resync   := false
  busy     := false
  err      := 0
  fault    := false
  res      := 0
  cur      := 0
  seq      := .start
  sr       := 0
  bitCnt   := 0
  pollCnt  := 0
  phase    := .waitIdle
  hsIdx    := 0
  prior    := .disabled
  bIdx     := 0
  bLen     := 0
  part     := .startMarker
  lenAcc   := []
  buf      := []
  events   := []
  mfault   := none
  refused  := none
  agenda   := []
  program  := []
  hostGot  := none
  freeCtr  := 0

end Sys2Proof.Machine
end

