-- ==== Sys2Proof/Machine/Flags.lean ====
section
/-! DEFINITION. The STATUS word and its codes (spec/10_state.md R23 to R28), the error table (spec/60_exceptions.md R200),
the LINES word (R30) and the level of a pin (R22). -/

namespace Sys2Proof.Machine

/-- STATUS.SESS (R23). -/
def Sess.code : Sess → BitVec 2
  | .disabled     => 0
  | .idle         => 1
  | .syncing      => 2
  | .transferring => 3

/-- The DIR encoding (R21). -/
def Dir.code : Dir → BitVec 2
  | .uncfg => 0
  | .inp   => 1
  | .out   => 2

/-- The code an error leaves in STATUS.ERR (R200). -/
def Err.code : Err → BitVec 4
  | .lineDirection  => 1
  | .timeout        => 2
  | .framingParity  => 3
  | .framingLength  => 4
  | .framingMarker  => 5
  | .usage          => 6
  | .illegalCommand => 7

/-- The kind of an error (R200): TimeoutError and FramingError are recoverable, the others are fatal. -/
def Err.recoverable : Err → Bool
  | .lineDirection  => false
  | .timeout        => true
  | .framingParity  => true
  | .framingLength  => true
  | .framingMarker  => true
  | .usage          => false
  | .illegalCommand => false

/-- The value of the STATUS register (R23): SESS 1:0, RESYNC 2, BUSY 3, ERR 7:4, FAULT 8, zeros above. -/
def State.status (s : State) : Word :=
  0#23 ++ BitVec.ofBool s.fault ++ s.err ++ BitVec.ofBool s.busy ++ BitVec.ofBool s.resync ++ s.sess.code

/-- Element `i` of a line file (R8, R21). -/
def LineFile.get {α : Type} (f : LineFile α) : LineId → α
  | .iclk => f.iclk
  | .idat => f.idat
  | .oclk => f.oclk
  | .odat => f.odat

/-- Write of element `i` of a line file (R8, R21). -/
def LineFile.set {α : Type} (f : LineFile α) (i : LineId) (v : α) : LineFile α :=
  match i with
  | .iclk => { f with iclk := v }
  | .idat => { f with idat := v }
  | .oclk => { f with oclk := v }
  | .odat => { f with odat := v }

/-- The level the peer drives on a line, or `none` on OCLK and ODAT, which it does not drive (R21). -/
def State.ext (s : State) : LineId → Option Bit
  | .iclk => some s.extClk
  | .idat => some s.extDat
  | .oclk => none
  | .odat => none

/-- PIN(i) as the peer sees it (R22): the latch while the line is OUT, else the peer's own drive; `none` is an undriven pin,
which reads as any value. -/
def State.pin (s : State) (i : LineId) : Option Bit :=
  if s.dir.get i = .out then some (s.out.get i) else s.ext i

/-- A fresh draw of an undriven level (R21, U4 of 93_implementation_defined.md). -/
def drawLevel (s : State) : Bit × State :=
  (Config.freeLevel s.freeCtr, { s with freeCtr := s.freeCtr + 1 })

/-- A known level, or a fresh draw where there is none. -/
def levelOrDraw (known : Option Bit) (s : State) : Bit × State :=
  match known with
  | some v => (v, s)
  | none => drawLevel s

/-- The LINES word for given levels (R30): LVL 3:0, DIR0 to DIR3 in 11:4, OUTL 15:12, zeros above. -/
def linesWord (s : State) (l0 l1 l2 l3 : Bit) : Word :=
  0#16
    ++ BitVec.ofBool s.out.odat ++ BitVec.ofBool s.out.oclk ++ BitVec.ofBool s.out.idat ++ BitVec.ofBool s.out.iclk
    ++ s.dir.odat.code ++ s.dir.oclk.code ++ s.dir.idat.code ++ s.dir.iclk.code
    ++ BitVec.ofBool l3 ++ BitVec.ofBool l2 ++ BitVec.ofBool l1 ++ BitVec.ofBool l0

/-- A read of LINES (R30): LVL[i] is the pin level, drawn afresh for an undriven OCLK or ODAT. -/
def readLines (s : State) : Word × State :=
  let (l0, s) := levelOrDraw (s.pin .iclk) s
  let (l1, s) := levelOrDraw (s.pin .idat) s
  let (l2, s) := levelOrDraw (s.pin .oclk) s
  let (l3, s) := levelOrDraw (s.pin .odat) s
  (linesWord s l0 l1 l2 l3, s)

end Sys2Proof.Machine
end

