-- ==== Sys2Proof/WellFormed.lean ====
section
/-! DEFINITION. Well-formed configurations (spec/00_scope.md R6, one check each) and well-formed commands
(spec/30_encoding.md R81). -/

namespace Sys2Proof

/-- wf1: 1 ≤ WIDTH ≤ 16. -/
def Cfg.wf1 (c : Cfg) : Bool := 1 ≤ c.width && c.width ≤ 16

/-- wf2: TIMEOUT = NONE or TIMEOUT ≥ 1. -/
def Cfg.wf2 (c : Cfg) : Bool :=
  match c.timeout with
  | none => true
  | some t => 1 ≤ t

/-- A pattern of wf3: its mask is nonzero and `value & ~mask = 0`. -/
def HsPattern.wf (p : HsPattern) : Bool := p.mask != 0 && p.value &&& ~~~p.mask == 0

/-- wf3: HS_SEQ has length ≥ 2 and every pattern is well-formed. -/
def Cfg.wf3 (c : Cfg) : Bool := 2 ≤ c.hsSeq.length && c.hsSeq.all HsPattern.wf

/-- `iv & mask = value` (43_session.md R154). -/
def HsPattern.matchesInput (p : HsPattern) (iv : BitVec 2) : Bool := iv &&& p.mask == p.value

/-- Mutually exclusive patterns (wf4): no 2-bit input vector matches both. -/
def HsPattern.excludes (p q : HsPattern) : Bool :=
  [0#2, 1#2, 2#2, 3#2].all fun iv => !(p.matchesInput iv && q.matchesInput iv)

/-- Whether some consecutive pair of the list is mutually exclusive. -/
def hasExclusivePair : List HsPattern → Bool
  | [] => false
  | [_] => false
  | p :: q :: rest => p.excludes q || hasExclusivePair (q :: rest)

/-- wf4: some consecutive pair of HS_SEQ is mutually exclusive. -/
def Cfg.wf4 (c : Cfg) : Bool := hasExclusivePair c.hsSeq

/-- wf5: in FIXED mode BLOCK_LEN is given and 1 ≤ BLOCK_LEN ≤ min(BUF_SIZE, 65535). -/
def Cfg.wf5 (c : Cfg) : Bool :=
  match c.blockMode with
  | .prefixed => true
  | .fixed =>
    match c.blockLen with
    | none => false
    | some n => 1 ≤ n && n ≤ min c.bufSize 65535

/-- wf6: 1 ≤ BUF_SIZE ≤ 65536. -/
def Cfg.wf6 (c : Cfg) : Bool := 1 ≤ c.bufSize && c.bufSize ≤ 65536

/-- A well-formed configuration (R6). wf7 holds by the type of the markers. -/
def Cfg.wf (c : Cfg) : Bool := c.wf1 && c.wf2 && c.wf3 && c.wf4 && c.wf5 && c.wf6

/-- The one check on a command that depends on the configuration: an SBYTE operand is a WIDTH-bit word (R81). -/
def Instr.wf (c : Cfg) : Instr → Bool
  | .sbyte imm => imm.toNat < 2 ^ c.width
  | .lcfg _ _ => true
  | .lrd _ => true
  | .lwr _ _ => true
  | .sbit _ => true
  | .rbit => true
  | .rbyte => true
  | .enable => true
  | .disable => true
  | .wfs => true
  | .sblk _ => true
  | .rblk _ => true
  | .bufw _ _ => true
  | .bufr _ => true
  | .reqfl => true
  | .listf => true
  | .sendf => true
  | .retrf => true

end Sys2Proof
end

