-- ==== Sys2Proof/Machine/Operands.lean ====
section
/-! DEFINITION. The operand forms and the pure computations of the commands: the direction operand, the word width, the bit
order, parity, the wire bits and the shift register (spec/42_byte_framer.md), the length bytes and lengths of a block and the
handshake patterns (spec/43_session.md). -/

namespace Sys2Proof.Machine

/-- The direction operand V of LCFG (spec/30_encoding.md R73): 0 = IN, 1 = OUT. -/
def dirOfV (v : Bit) : Dir := if v then .out else .inp

/-- `IMM16 < 2^WIDTH` (R81). -/
def fitsWidth (c : Cfg) (imm : BitVec 16) : Bool := imm.toNat < 2 ^ c.width

/-- `pos(i)` (R130). -/
def bitPos (c : Cfg) (i : Nat) : Nat :=
  match c.bitOrder with
  | .msbFirst => c.width - 1 - i
  | .lsbFirst => i

/-- `xorbits(v)` (R131): the exclusive or of bits 0 to WIDTH-1. -/
def xorBits (width : Nat) (v : BitVec 16) : Bit :=
  (List.range width).foldl (fun acc i => acc ^^ v.getLsbD i) false

/-- `parity(v)` (R131), or `none` when PARITY = NONE. -/
def parityBit (c : Cfg) (v : BitVec 16) : Option Bit :=
  match c.parity with
  | .none => none
  | .even => some (xorBits c.width v)
  | .odd  => some (true ^^ xorBits c.width v)

/-- `bits(v)`, the wire bit sequence of a word (R137). -/
def wireBits (c : Cfg) (v : BitVec 16) : List Bit :=
  (List.range c.width).map (fun i => v.getLsbD (bitPos c i)) ++ (parityBit c v).toList

/-- `2^W - 1` in the shift register's width. -/
def widthMask (c : Cfg) : BitVec 16 := BitVec.ofNat 16 (2 ^ c.width - 1)

/-- One received data bit shifted into SR (R133). -/
def shiftBit (c : Cfg) (sr : BitVec 16) (b : Bit) : BitVec 16 :=
  let b16 : BitVec 16 := (BitVec.ofBool b).setWidth 16
  match c.bitOrder with
  | .msbFirst => ((sr <<< 1) ||| b16) &&& widthMask c
  | .lsbFirst => (sr >>> 1) ||| (b16 <<< (c.width - 1))

/-- `p_j`, byte `j` of the length of a block (R158). -/
def lenByte (c : Cfg) (n : BitVec 17) (j : Nat) : Byte :=
  match c.lenOrder with
  | .lowFirst  => (n >>> (8 * j)).setWidth 8
  | .highFirst => (n >>> (8 * (c.lenBytes.count - 1 - j))).setWidth 8

/-- The length assembled from the received bytes `q_0, q_1, ..` (R158). -/
def assembleLen (c : Cfg) (q : List Byte) : Nat :=
  match c.lenOrder with
  | .lowFirst  => q.foldr (fun b acc => b.toNat + 256 * acc) 0
  | .highFirst => q.foldl (fun acc b => 256 * acc + b.toNat) 0

/-- Whether a block of `len` data bytes has a length SBLK supports, beyond `len ≤ BUF_SIZE` (R161, R163). -/
def sendLenOk (c : Cfg) (len : Nat) : Bool :=
  match c.blockMode with
  | .fixed    => c.blockLen == some len
  | .prefixed => len < 2 ^ (8 * c.lenBytes.count)

/-- Whether RBLK can start with this capacity: in FIXED mode BLOCK_LEN ≤ cap (R165). -/
def recvLenOk (c : Cfg) (cap : Nat) : Bool :=
  match c.blockMode with
  | .fixed    => c.blockLen.getD 0 ≤ cap
  | .prefixed => true

/-- The first element of a block at or after the end marker (R160). -/
def endPart (c : Cfg) : Option Part := if c.endMarker.isSome then some .endMarker else none

/-- The first element at or after data byte `bIdx` of a block of `bLen` data bytes (R160). -/
def dataPart (c : Cfg) (bIdx bLen : BitVec 17) : Option Part :=
  if bIdx < bLen then some .data else endPart c

/-- The first element at or after length byte `j` (R160). -/
def lenPart (c : Cfg) (j : Nat) (bIdx bLen : BitVec 17) : Option Part :=
  if c.blockMode = .prefixed ∧ j < c.lenBytes.count then some (.lenByte j) else dataPart c bIdx bLen

/-- The first element of a block (R160). -/
def firstPart (c : Cfg) (bIdx bLen : BitVec 17) : Option Part :=
  if c.startMarker.isSome then some .startMarker else lenPart c 0 bIdx bLen

/-- The element after `p` (R160); for data, `bIdx` is already the index of the next byte. -/
def nextPart (c : Cfg) (p : Part) (bIdx bLen : BitVec 17) : Option Part :=
  match p with
  | .startMarker => lenPart c 0 bIdx bLen
  | .lenByte j   => lenPart c (j + 1) bIdx bLen
  | .data        => dataPart c bIdx bLen
  | .endMarker   => none

/-- `iv = IDAT_sample ++ ICLK_sample` (R154). -/
def inputVector (clk dat : Bit) : BitVec 2 := BitVec.ofBool dat ++ BitVec.ofBool clk

/-- `matches(k, iv)` (R154); no pattern stands at or after the end of HS_SEQ. -/
def handshakeMatches (c : Cfg) (k : Nat) (iv : BitVec 2) : Bool :=
  match c.hsSeq[k]? with
  | some p => p.matchesInput iv
  | none => false

end Sys2Proof.Machine
end

