-- ==== Sys2Proof/Machine/Ops.lean ====
section
/-! DEFINITION. The shared operations: what a micro-step can do, the command exits (spec/60_exceptions.md R209 to R212), the
line primitives (spec/40_line_driver.md), the buffer (spec/20_memory.md), and the bit and word sequences
(spec/41_bit_transport.md, spec/42_byte_framer.md). -/

namespace Sys2Proof.Machine

/-- What a piece of a command's pseudocode does within the running micro-step (spec/00_scope.md R9, R10). -/
inductive Micro (α : Type) where
  /-- it reached a `yield`: the micro-step ends and the command goes on -/
  | yields (s : State)
  /-- it finished with a result: the caller continues in the same micro-step -/
  | ret (a : α) (s : State)
  /-- `raise e` -/
  | raises (e : Err) (s : State)
  /-- it set the model mark `mfault(r)` -/
  | marks (r : MFault) (s : State)
  /-- `refuse(r)` -/
  | refuses (r : RefuseReason) (s : State)
  /-- no rule covers the state -/
  | stops (f : Fault)

/-- Sequencing of pseudocode. -/
def Micro.andThen {α β : Type} (m : Micro α) (k : α → State → Micro β) : Micro β :=
  match m with
  | .yields s    => .yields s
  | .ret a s     => k a s
  | .raises e s  => .raises e s
  | .marks r s   => .marks r s
  | .refuses r s => .refuses r s
  | .stops f     => .stops f

/-- `yield`, with the position the next micro-step starts at (R33). -/
def yieldAt {α : Type} (q : Seq) (s : State) : Micro α := .yields { s with seq := q }

/-- `require cond else e` (R8). -/
def require (cond : Bool) (e : Err) (s : State) : Micro Unit :=
  if cond then .ret () s else .raises e s

/-- `record e` (R38). -/
def record (e : Event) (s : State) : State := { s with events := s.events ++ [e] }

/-- Setting the model mark `mfault(r)` (R39). No step clears a mark, so one that stands keeps its reason. -/
def setMfault (r : MFault) (s : State) : State := { s with mfault := s.mfault.or (some r) }

/-- Setting the model mark `refused(r)` (R39, spec/00_scope.md R10). -/
def setRefused (r : RefuseReason) (s : State) : State := { s with refused := s.refused.or (some r) }

/-! ### Command exits -/

/-- `complete` (R209). -/
def complete (s : State) : State :=
  record (.done 0) { s with err := 0, busy := false, seq := .start }

/-- SR and BITCNT after an error: unspecified (10_state.md R34), within the bounds that inv4 of R42 and R138 keep. -/
def forgetWord (s : State) : State :=
  { s with
    sr      := Config.freeShift s.freeCtr &&& widthMask s.cfg
    bitCnt  := BitVec.ofNat 5 (Config.freeCount s.freeCtr % (s.cfg.width + 1))
    freeCtr := s.freeCtr + 1 }

/-- POLLCNT and PHASE after a recoverable error: any value (U3 of 93_implementation_defined.md), POLLCNT within TIMEOUT
(R138). -/
def forgetPoll (s : State) : State :=
  { s with
    pollCnt :=
      match s.cfg.timeout with
      | some t => Config.freeCount s.freeCtr % (t + 1)
      | none => Config.freeCount s.freeCtr
    phase   := if Config.freePhase s.freeCtr then .waitActive else .waitIdle
    freeCtr := s.freeCtr + 1 }

/-- What every `raise e` does (R210). -/
def errorExit (e : Err) (s : State) : State :=
  record (.done e.code) { forgetWord s with err := e.code, busy := false, seq := .start }

/-- The recoverable exit (R211), with the SESS the command's kind gives. -/
def recoverableExit (sess' : Sess) (e : Err) (s : State) : State :=
  { forgetPoll (errorExit e s) with resync := true, sess := sess' }

/-- The fatal exit (R212). -/
def fatalExit (e : Err) (s : State) : State :=
  setMfault .hwFault { errorExit e s with fault := true }

/-- `raise e` (R210), by the kind of `e`. -/
def raiseExit (sess' : Sess) (e : Err) (s : State) : State :=
  if e.recoverable then recoverableExit sess' e s else fatalExit e s

/-- The end of a micro-step. `onError` gives the SESS a recoverable error leaves (R211). -/
def finish (onError : State → Sess) (m : Micro Unit) : Host.Outcome State Fault Refusal :=
  match m with
  | .yields s    => .next s
  | .ret () s    => .next (complete s)
  | .raises e s  => .next (raiseExit (onError s) e s)
  | .marks r s   => .next (setMfault r s)
  | .refuses r s => .next (setRefused r s)
  | .stops f     => .fault f

/-- SESS is unchanged by a recoverable error of SBIT, RBIT, SBYTE and RBYTE (R211). -/
def keepSess (s : State) : Sess := s.sess

/-- SESS returns to PRIOR after a recoverable error of WFS (R211, 43_session.md R156). -/
def priorSess (s : State) : Sess := s.prior

/-- SESS is Idle after a recoverable error of SBLK and RBLK (R211, 43_session.md R164). -/
def idleSess (_ : State) : Sess := .idle

/-! ### Line primitives -/

/-- What a sample of line `i` reads: the peer's level, or any value on OCLK and ODAT (10_state.md R21). -/
def sampleLine (i : LineId) (s : State) : Bit × State := levelOrDraw (s.ext i) s

/-- `ReadLine(i)` (R100). -/
def readLine (i : LineId) (s : State) : Micro Bit :=
  if s.dir.get i = .inp then
    .ret (sampleLine i s).1 (record (.inp i (sampleLine i s).1) (sampleLine i s).2)
  else .raises .lineDirection s

/-- Write of a latch and its record: the last two lines of `WriteLine`, and the direct writes of ENABLE and DISABLE. -/
def driveLatch (i : LineId) (v : Bit) (s : State) : State :=
  record (.out i v) { s with out := s.out.set i v }

/-- `WriteLine(i, v)` (R101). -/
def writeLine (i : LineId) (v : Bit) (s : State) : Micro Unit :=
  if s.dir.get i = .out then .ret () (driveLatch i v s) else .raises .lineDirection s

/-- `Configure(i, d)` (R102). -/
def configure (i : LineId) (d : Dir) (s : State) : State :=
  record (.cfg i d) { s with dir := s.dir.set i d }

/-! ### The block buffer -/

/-- The byte at an address, or `none` where nothing was written since reset (20_memory.md R53). -/
def Memory.read : Memory → Nat → Option Byte
  | [], _ => none
  | (b, u) :: m, a => if a = b then some u else Memory.read m a

/-- The buffer with a byte written, in the canonical form (R52). -/
def Memory.write : Memory → Nat → Byte → Memory
  | [], a, v => [(a, v)]
  | (b, u) :: m, a, v =>
    if a < b then (a, v) :: (b, u) :: m
    else if a = b then (a, v) :: m
    else (b, u) :: Memory.write m a v

/-- The canonical form: strictly rising addresses. No value stands for "never written", so no entry is redundant. -/
abbrev Memory.wf (m : Memory) : Prop := (m.map Prod.fst).Pairwise (· < ·)

/-- `MemRead(addr, 1)` (R51, R53). -/
def memRead (addr : Nat) (s : State) : Micro Byte :=
  if addr < s.cfg.bufSize then
    match s.buf.read addr with
    | some v => .ret v s
    | none => .marks .uninitRead s
  else .stops .bufRange

/-- `MemWrite(addr, 1, v)` (R52). -/
def memWrite (addr : Nat) (v : Byte) (s : State) : Micro Unit :=
  if addr < s.cfg.bufSize then .ret () { s with buf := s.buf.write addr v } else .stops .bufRange

/-! ### Session legality -/

/-- `require STATUS.SESS = Disabled` (43_session.md R151). -/
def requireDisabled (s : State) : Micro Unit := require (s.sess = .disabled) .usage s

/-- T0: `require STATUS.SESS = Transferring and STATUS.RESYNC = 0` (R151). -/
def requireT0 (s : State) : Micro Unit := require (s.sess = .transferring && !s.resync) .usage s

/-! ### The send sequences -/

/-- SendWord from the first bit of `bits` (42_byte_framer.md R132): the first micro-step of its SendBit (R111). With no bit to
send it is finished. -/
def sendBits (bits : List Bit) (s : State) : Micro Unit :=
  match bits with
  | [] => .ret () s
  | b :: rest => (writeLine .odat b s).andThen fun _ s => yieldAt (.clkActive rest) s

/-- A later micro-step of SendWord (R111, R132). -/
def sendResume (s : State) : Micro Unit :=
  match s.seq with
  | .sendNext bits => sendBits bits s
  | .clkActive rest => (writeLine .oclk s.cfg.active s).andThen fun _ s => yieldAt (.clkIdle rest) s
  | .clkIdle rest =>
    (writeLine .oclk s.cfg.idle s).andThen fun _ s =>
      match rest with
      | [] => .ret () s
      | b :: more => yieldAt (.sendNext (b :: more)) s
  | .start => .stops .seqMismatch
  | .recvBit => .stops .seqMismatch
  | .poll => .stops .seqMismatch
  | .hsPoll => .stops .seqMismatch
  | .elem => .stops .seqMismatch

/-! ### The receive sequences -/

/-- The end of a poll that has not seen what it waits for: the timeout check, then the yield (R112, R156). -/
def pollAgain {α : Type} (q : Seq) (s : State) : Micro α :=
  if s.cfg.timeout = some s.pollCnt then .raises .timeout s else yieldAt q s

/-- One iteration of RecvBit's loop (41_bit_transport.md R112). -/
def pollBit (s : State) : Micro Bit :=
  (readLine .iclk s).andThen fun c s =>
    let s := { s with pollCnt := s.pollCnt + 1 }
    match s.phase with
    | .waitIdle =>
      if c = s.cfg.idle then pollAgain .poll { s with phase := .waitActive } else pollAgain .poll s
    | .waitActive =>
      if c = s.cfg.active then readLine .idat s else pollAgain .poll s

/-- RecvBit from its start (R112). -/
def recvBit (s : State) : Micro Bit := pollBit { s with phase := .waitIdle, pollCnt := 0 }

/-- A later micro-step inside RecvBit or at its call from RecvWord (R112, R133). -/
def recvResume (s : State) : Micro Bit :=
  match s.seq with
  | .poll => pollBit s
  | .recvBit => recvBit s
  | .start => .stops .seqMismatch
  | .clkActive _ => .stops .seqMismatch
  | .clkIdle _ => .stops .seqMismatch
  | .sendNext _ => .stops .seqMismatch
  | .hsPoll => .stops .seqMismatch
  | .elem => .stops .seqMismatch

/-- What RecvWord does with a received bit (R133): a data bit while BITCNT < W, then the parity bit. -/
def acceptBit (b : Bit) (s : State) : Micro (BitVec 16) :=
  if s.bitCnt.toNat < s.cfg.width then
    let s := { s with sr := shiftBit s.cfg s.sr b, bitCnt := s.bitCnt + 1 }
    if s.bitCnt.toNat < s.cfg.width ∨ s.cfg.parity ≠ .none then yieldAt .recvBit s else .ret s.sr s
  else if parityBit s.cfg s.sr = some b then .ret s.sr s
  else .raises .framingParity s

/-- RecvWord from its start (R133). -/
def recvWord (s : State) : Micro (BitVec 16) :=
  (recvBit { s with sr := 0, bitCnt := 0 }).andThen acceptBit

/-- A later micro-step of RecvWord (R133). -/
def recvWordResume (s : State) : Micro (BitVec 16) := (recvResume s).andThen acceptBit

end Sys2Proof.Machine
end

