-- ==== Sys2Proof/Machine/Agents.lean ====
section
/-! DEFINITION. The steps of the two other agents (spec/60_exceptions.md R222, R223), reset (spec/70_reset_and_hazards.md
R240), and the launch of a machine with a given configuration (spec/00_scope.md R6). -/

namespace Sys2Proof.Machine

/-- One peer step (R223): a change is recorded, a step that leaves the level is not. -/
def peerStep (ln : PeerLine) (v : Bit) (s : State) : State :=
  match ln with
  | .iclk => if s.extClk = v then s else record (.ext .iclk v) { s with extClk := v }
  | .idat => if s.extDat = v then s else record (.ext .idat v) { s with extDat := v }

/-- The issue of a command word (10_state.md R31). -/
def issueCommand (w : Word) (s : State) : State :=
  record (.issue w) { s with cur := w, busy := true, err := 0, seq := .start }

/-- An aligned access of a whole 32-bit word at one of the four offsets (20_memory.md R56). -/
def HostAccess.admitted (a : HostAccess) : Bool :=
  a.width == 4 && (a.offset == 0x0 || a.offset == 0x4 || a.offset == 0x8 || a.offset == 0xC)

/-- The register value a read at `offset` hands back (20_memory.md R55): CMD reads 0. -/
def readRegister (offset : Nat) (s : State) : Word × State :=
  if offset = 0x4 then (s.status, s)
  else if offset = 0x8 then (s.res, s)
  else if offset = 0xC then readLines s
  else (0, s)

/-- A host write of a word (R55, R57): it has an effect only at CMD, and there none while FAULT = 1 (10_state.md R31). The host
issues a command only while BUSY = 0 and no mark is set (R222): the two moves it never makes stop by name (log entries 9 and
10). -/
def writeRegister (offset : Nat) (w : Word) (s : State) : Host.Outcome State Fault Refusal :=
  if offset = 0x0 then
    if s.fault then .next s
    else if s.busy then .refused .cmdWriteWhileBusy
    else if s.mfault.isSome || s.refused.isSome then .refused .cmdWriteWhileMarked
    else .next (issueCommand w s)
  else .next s

/-- One host access (R222). An access that is not an aligned whole word sets `refused(HOST_ACCESS)`. -/
def hostAccess (a : HostAccess) (s : State) : Host.Outcome State Fault Refusal :=
  if a.admitted then
    match a.write with
    | none =>
      let (v, s) := readRegister a.offset s
      .next { s with hostGot := some v }
    | some w => writeRegister a.offset w { s with hostGot := none }
  else .next (setRefused .hostAccess { s with hostGot := none })

/-- Reset (R240): R44's table for the block. The configuration (R244), the peer's levels and the model marks stay; so does
what belongs to the environment (schedule, host program, what the host holds, the free-value count). -/
def resetBlock (s : State) : State :=
  { State.reset with
    cfg     := s.cfg
    extClk  := s.extClk
    extDat  := s.extDat
    mfault  := s.mfault
    refused := s.refused
    agenda  := s.agenda
    program := s.program
    hostGot := s.hostGot
    freeCtr := s.freeCtr }

/-- The launch of a machine with configuration `c`: none is built from an ill-formed one (00_scope.md R6). -/
def launch (c : Cfg) : Except RefuseReason State :=
  if c.wf then .ok { State.reset with cfg := c } else .error .illFormedConfig

end Sys2Proof.Machine
end

