-- ==== Sys2Proof/Machine/BitTransport.lean ====
section
/-! DEFINITION. SBIT and RBIT (spec/41_bit_transport.md R114, R115). One call is one micro-step, at the position SEQ. -/

namespace Sys2Proof.Machine

/-- SBIT (R114): three micro-steps of SendBit (R111). -/
def execSbit (b : Bit) (s : State) : Host.Outcome State Fault Refusal :=
  finish keepSess <|
    match s.seq with
    | .start => (requireT0 s).andThen fun _ s => sendBits [b] s
    | _ => sendResume s

/-- RBIT (R115): one micro-step per poll of RecvBit (R112). -/
def execRbit (s : State) : Host.Outcome State Fault Refusal :=
  finish keepSess <|
    (match s.seq with
      | .start => (requireT0 s).andThen fun _ s => recvBit s
      | _ => recvResume s).andThen fun b s => .ret () { s with res := b.toWord }

end Sys2Proof.Machine
end

