-- ==== Sys2Proof/Machine/Block.lean ====
section
/-! DEFINITION. SBLK and RBLK (spec/43_session.md R158 to R165). One call is one micro-step, at the position SEQ. -/

namespace Sys2Proof.Machine

/-- `if cfg.WIDTH ≠ 8: refuse(BLOCK_WIDTH)` (R162). -/
def requireByteWidth (s : State) : Micro Unit :=
  if s.cfg.width = 8 then .ret () s else .refuses .blockWidth s

/-- The byte SBLK sends as element `p` (R163). The marker elements exist only when their marker is set (R160). -/
def elemByte (p : Part) (s : State) : Micro Byte :=
  match p with
  | .startMarker =>
    match s.cfg.startMarker with
    | some m => .ret m s
    | none => .stops .seqMismatch
  | .lenByte j => .ret (lenByte s.cfg s.bLen j) s
  | .data => memRead s.bIdx.toNat s
  | .endMarker =>
    match s.cfg.endMarker with
    | some m => .ret m s
    | none => .stops .seqMismatch

/-- SendElem of the element `part`, after its yield (R159). -/
def sendElem (s : State) : Micro Unit :=
  (elemByte s.part s).andThen fun v s => sendBits (wireBits s.cfg (v.setWidth 16)) s

/-- After the last element: `STATUS.SESS <- Idle` (R163). -/
def sendBlockDone (s : State) : Micro Unit := .ret () { s with sess := .idle }

/-- After an element is sent: the yield before the next one, or the end of the block (R159, R163). -/
def afterSentElem (s : State) : Micro Unit :=
  let s := if s.part = .data then { s with bIdx := s.bIdx + 1 } else s
  match nextPart s.cfg s.part s.bIdx s.bLen with
  | some p => yieldAt .elem { s with part := p }
  | none => sendBlockDone s

/-- SBLK (R163). -/
def execSblk (len : BitVec 16) (s : State) : Host.Outcome State Fault Refusal :=
  finish idleSess <|
    match s.seq with
    | .start =>
      (requireByteWidth s).andThen fun _ s =>
      (requireT0 s).andThen fun _ s =>
      (require (len.toNat ≤ s.cfg.bufSize) .usage s).andThen fun _ s =>
      (require (sendLenOk s.cfg len.toNat) .framingLength s).andThen fun _ s =>
        let s := { s with bLen := len.setWidth 17, bIdx := 0 }
        match firstPart s.cfg s.bIdx s.bLen with
        | some p => (sendElem { s with part := p }).andThen fun _ s => afterSentElem s
        | none => sendBlockDone s
    | .elem => (sendElem s).andThen fun _ s => afterSentElem s
    | _ => (sendResume s).andThen fun _ s => afterSentElem s

/-- After the last element: SESS <- Idle and RES <- the data length (R165). -/
def recvBlockDone (s : State) : Micro Unit :=
  .ret () { s with sess := .idle, res := s.bLen.setWidth 32 }

/-- The yield before the next element, or the end of the block (R159, R165). -/
def recvNextElem (next : Option Part) (s : State) : Micro Unit :=
  match next with
  | some p => yieldAt .elem { s with part := p }
  | none => recvBlockDone s

/-- What RBLK does with a received length byte: after the last one it assembles and checks the length (R165). -/
def acceptLenByte (cap : Nat) (j : Nat) (b : Byte) (s : State) : Micro Unit :=
  let s := { s with lenAcc := s.lenAcc ++ [b] }
  if j + 1 < s.cfg.lenBytes.count then recvNextElem (some (.lenByte (j + 1))) s
  else
    (require (assembleLen s.cfg s.lenAcc ≤ cap) .framingLength s).andThen fun _ s =>
      let s := { s with bLen := BitVec.ofNat 17 (assembleLen s.cfg s.lenAcc) }
      recvNextElem (dataPart s.cfg s.bIdx s.bLen) s

/-- What RBLK does with a received element (R165). -/
def acceptElem (cap : Nat) (v : BitVec 16) (s : State) : Micro Unit :=
  let b : Byte := v.setWidth 8
  match s.part with
  | .startMarker =>
    (require (s.cfg.startMarker = some b) .framingMarker s).andThen fun _ s =>
      recvNextElem (nextPart s.cfg .startMarker s.bIdx s.bLen) s
  | .lenByte j => acceptLenByte cap j b s
  | .data =>
    (memWrite s.bIdx.toNat b s).andThen fun _ s =>
      let s := { s with bIdx := s.bIdx + 1 }
      recvNextElem (nextPart s.cfg .data s.bIdx s.bLen) s
  | .endMarker =>
    (require (s.cfg.endMarker = some b) .framingMarker s).andThen fun _ s => recvNextElem none s

/-- RBLK (R165). BLEN and BIDX are set at the start (10_state.md R37); in PREFIXED mode BLEN is set again by the received
length. -/
def execRblk (cap : BitVec 16) (s : State) : Host.Outcome State Fault Refusal :=
  finish idleSess <|
    match s.seq with
    | .start =>
      (requireByteWidth s).andThen fun _ s =>
      (requireT0 s).andThen fun _ s =>
      (require (cap.toNat ≤ s.cfg.bufSize) .usage s).andThen fun _ s =>
      (require (recvLenOk s.cfg cap.toNat) .framingLength s).andThen fun _ s =>
        let n : Nat := if s.cfg.blockMode = .fixed then s.cfg.blockLen.getD 0 else 0
        let s := { s with bLen := BitVec.ofNat 17 n, bIdx := 0, lenAcc := [] }
        match firstPart s.cfg s.bIdx s.bLen with
        | some p => (recvWord { s with part := p }).andThen (acceptElem cap.toNat)
        | none => recvBlockDone s
    | .elem => (recvWord s).andThen (acceptElem cap.toNat)
    | _ => (recvWordResume s).andThen (acceptElem cap.toNat)

end Sys2Proof.Machine
end

