-- ==== Sys2Proof/Machine/Buffer.lean ====
section
/-! DEFINITION. BUFW and BUFR (spec/44_buffer_access.md R180, R181). Each is one micro-step, legal in every session state. -/

namespace Sys2Proof.Machine

/-- BUFW (R180). -/
def execBufw (addr : BitVec 16) (data : Byte) (s : State) : Host.Outcome State Fault Refusal :=
  finish keepSess <|
    (require (addr.toNat < s.cfg.bufSize) .usage s).andThen fun _ s => memWrite addr.toNat data s

/-- BUFR (R181). -/
def execBufr (addr : BitVec 16) (s : State) : Host.Outcome State Fault Refusal :=
  finish keepSess <|
    (require (addr.toNat < s.cfg.bufSize) .usage s).andThen fun _ s =>
      (memRead addr.toNat s).andThen fun v s => .ret () { s with res := v.setWidth 32 }

end Sys2Proof.Machine
end

