-- ==== Sys2Proof/Machine/ByteFramer.lean ====
section
/-! DEFINITION. SBYTE and RBYTE (spec/42_byte_framer.md R134, R135). One call is one micro-step, at the position SEQ. -/

namespace Sys2Proof.Machine

/-- SBYTE (R134). The width check comes before the legality check (spec/60_exceptions.md R208). -/
def execSbyte (imm : BitVec 16) (s : State) : Host.Outcome State Fault Refusal :=
  finish keepSess <|
    match s.seq with
    | .start =>
      (require (fitsWidth s.cfg imm) .illegalCommand s).andThen fun _ s =>
        (requireT0 s).andThen fun _ s => sendBits (wireBits s.cfg imm) s
    | _ => sendResume s

/-- RBYTE (R135). -/
def execRbyte (s : State) : Host.Outcome State Fault Refusal :=
  finish keepSess <|
    (match s.seq with
      | .start => (requireT0 s).andThen fun _ s => recvWord s
      | _ => recvWordResume s).andThen fun v s => .ret () { s with res := v.setWidth 32 }

end Sys2Proof.Machine
end

