-- ==== Sys2Proof/Machine/FileLevel.lean ====
section
/-! DEFINITION. REQFL, LISTF, SENDF and RETRF (spec/45_file_level.md R190 to R194): each sets the model mark
`refused(FILE_LEVEL_OP)` and nothing else, in every session state. -/

namespace Sys2Proof.Machine

/-- `refuse(FILE_LEVEL_OP)`. -/
def refuseFileLevel (s : State) : Host.Outcome State Fault Refusal :=
  finish keepSess (.refuses .fileLevelOp s)

/-- REQFL (R190). -/
def execReqfl (s : State) : Host.Outcome State Fault Refusal := refuseFileLevel s

/-- LISTF (R191). -/
def execListf (s : State) : Host.Outcome State Fault Refusal := refuseFileLevel s

/-- SENDF (R192). -/
def execSendf (s : State) : Host.Outcome State Fault Refusal := refuseFileLevel s

/-- RETRF (R193). -/
def execRetrf (s : State) : Host.Outcome State Fault Refusal := refuseFileLevel s

end Sys2Proof.Machine
end

