-- ==== Sys2Proof/Machine/LineDriver.lean ====
section
/-! DEFINITION. LCFG, LRD and LWR (spec/40_line_driver.md R103 to R105). Each is one micro-step. -/

namespace Sys2Proof.Machine

/-- LCFG (R103). -/
def execLcfg (ln : LineId) (v : Bit) (s : State) : Host.Outcome State Fault Refusal :=
  finish keepSess <|
    (requireDisabled s).andThen fun _ s => .ret () (configure ln (dirOfV v) s)

/-- LRD (R104). -/
def execLrd (ln : LineId) (s : State) : Host.Outcome State Fault Refusal :=
  finish keepSess <|
    (requireDisabled s).andThen fun _ s =>
      (readLine ln s).andThen fun v s => .ret () { s with res := v.toWord }

/-- LWR (R105). -/
def execLwr (ln : LineId) (v : Bit) (s : State) : Host.Outcome State Fault Refusal :=
  finish keepSess <|
    (requireDisabled s).andThen fun _ s => writeLine ln v s

end Sys2Proof.Machine
end

