-- ==== Sys2Proof/Machine/Session.lean ====
section
/-! DEFINITION. ENABLE, DISABLE and WFS (spec/43_session.md R152 to R156). -/

namespace Sys2Proof.Machine

/-- ENABLE (R152), one micro-step: the output latches first, then the four directions. -/
def execEnable (s : State) : Host.Outcome State Fault Refusal :=
  finish keepSess <|
    (requireDisabled s).andThen fun _ s =>
      let s := driveLatch .oclk s.cfg.clkIdle s
      let s := driveLatch .odat s.cfg.dataIdle s
      let s := configure .iclk .inp s
      let s := configure .idat .inp s
      let s := configure .oclk .out s
      let s := configure .odat .out s
      .ret () { s with sess := .idle, resync := false }

/-- One round of DISABLE's loop over the lines (R153). -/
def releaseLine (i : LineId) (s : State) : State :=
  if s.dir.get i = .out then driveLatch i s.cfg.disableLevel s else s

/-- DISABLE (R153), one micro-step; from Disabled it changes nothing. -/
def execDisable (s : State) : Host.Outcome State Fault Refusal :=
  finish keepSess <|
    if s.sess = .disabled then .ret () s
    else
      let s := releaseLine .iclk s
      let s := releaseLine .idat s
      let s := releaseLine .oclk s
      let s := releaseLine .odat s
      .ret () { s with sess := .disabled, resync := false }

/-- One iteration of WFS's loop (R156): SampleInputs (R155), then at most one pattern is matched. -/
def handshakePoll (s : State) : Micro Unit :=
  (readLine .iclk s).andThen fun c s =>
    (readLine .idat s).andThen fun d s =>
      let s := { s with pollCnt := s.pollCnt + 1 }
      if handshakeMatches s.cfg s.hsIdx (inputVector c d) then
        let s := { s with hsIdx := s.hsIdx + 1 }
        if s.hsIdx = s.cfg.hsSeq.length then .ret () { s with sess := .transferring, resync := false }
        else pollAgain .hsPoll s
      else pollAgain .hsPoll s

/-- WFS (R156). A TimeoutError restores SESS from PRIOR. -/
def execWfs (s : State) : Host.Outcome State Fault Refusal :=
  finish priorSess <|
    match s.seq with
    | .start =>
      (require (s.sess = .idle || s.sess = .transferring) .usage s).andThen fun _ s =>
        handshakePoll { s with prior := s.sess, sess := .syncing, hsIdx := 0, pollCnt := 0 }
    | .hsPoll => handshakePoll s
    | _ => .stops .seqMismatch

end Sys2Proof.Machine
end

