-- ==== Sys2Proof/Machine/Dispatch.lean ====
section
/-! DEFINITION. `exec`: one micro-step of a command, one arm per constructor of `Instr`. -/

namespace Sys2Proof.Machine

/-- One micro-step of the command `i`, at the position SEQ of the state (spec/60_exceptions.md R221). -/
def exec (i : Instr) (s : State) : Host.Outcome State Fault Refusal :=
  match i with
  | .lcfg ln v => Sys2Proof.Machine.execLcfg ln v s
  | .lrd ln => Sys2Proof.Machine.execLrd ln s
  | .lwr ln v => Sys2Proof.Machine.execLwr ln v s
  | .sbit b => Sys2Proof.Machine.execSbit b s
  | .rbit => Sys2Proof.Machine.execRbit s
  | .sbyte imm => Sys2Proof.Machine.execSbyte imm s
  | .rbyte => Sys2Proof.Machine.execRbyte s
  | .enable => Sys2Proof.Machine.execEnable s
  | .disable => Sys2Proof.Machine.execDisable s
  | .wfs => Sys2Proof.Machine.execWfs s
  | .sblk len => Sys2Proof.Machine.execSblk len s
  | .rblk cap => Sys2Proof.Machine.execRblk cap s
  | .bufw addr data => Sys2Proof.Machine.execBufw addr data s
  | .bufr addr => Sys2Proof.Machine.execBufr addr s
  | .reqfl => Sys2Proof.Machine.execReqfl s
  | .listf => Sys2Proof.Machine.execListf s
  | .sendf => Sys2Proof.Machine.execSendf s
  | .retrf => Sys2Proof.Machine.execRetrf s

end Sys2Proof.Machine
end

