-- ==== Sys2Proof/Machine/Sequencer.lean ====
section
/-! DEFINITION. The block's step (spec/60_exceptions.md R221) and the global step of one agent (R220). -/

namespace Sys2Proof.Machine

/-- The outcome of scheduling the block while `mfault(r)` is set (10_state.md R39). -/
def MFault.toFault : MFault → Fault
  | .hwFault    => .hwFault
  | .uninitRead => .uninitRead

/-- The outcome of scheduling the block while `refused(r)` is set (R39). -/
def RefuseReason.toRefusal : RefuseReason → Refusal
  | .fileLevelOp     => .fileLevelOp
  | .blockWidth      => .blockWidth
  | .hostAccess      => .hostAccess
  | .illFormedConfig => .illFormedConfig

/-- One micro-step of CUR (R221). A word that is no command raises IllegalCommand (30_encoding.md R80, R82). -/
def microStep (s : State) : Host.Outcome State Fault Refusal :=
  match decode s.cur with
  | .ok i => exec i s
  | .error _ => .next (raiseExit s.sess .illegalCommand s)

/-- What a set mark, or FAULT = 1, makes of the block's turn (10_state.md R28, R39): the block takes no micro-step.
DESIGN CHOICE (log entry 6), safe: the turn is reported as a stop; where both marks stand the spec does not say which reason
is reported, and the stop reports that of `mfault`. -/
def stopOf (s : State) : Option (Host.Outcome State Fault Refusal) :=
  match s.mfault, s.refused with
  | some r, _ => some (.fault r.toFault)
  | none, some r => some (.refused r.toRefusal)
  | none, none => if s.fault then some (.fault .hwFault) else none

/-- The block's turn. While BUSY = 0 the block is idle (R221). -/
def blockTurn (s : State) : Host.Outcome State Fault Refusal :=
  match stopOf s with
  | some o => o
  | none => if s.busy then microStep s else .next s

/-- The step taken when nothing is scheduled: the block's turn while a command runs or a stop stands, else the host issues
the next word of its program (R222). -/
def freeTurn (s : State) : Host.Outcome State Fault Refusal :=
  match stopOf s with
  | some o => o
  | none =>
    if s.busy then microStep s
    else
      match s.program with
      | [] => .next s
      | w :: ws => .next (issueCommand w { s with program := ws })

/-- The step of one scheduled agent (R220). -/
def perform (m : Move) (s : State) : Host.Outcome State Fault Refusal :=
  match m with
  | .block => blockTurn s
  | .peer ln v => .next (peerStep ln v s)
  | .host a => hostAccess a s
  | .reset => .next (resetBlock s)

/-- One global step (R220) of a machine with a well-formed configuration (00_scope.md R6). -/
def globalStep (s : State) : Host.Outcome State Fault Refusal :=
  if s.cfg.wf then
    match s.agenda with
    | [] => freeTurn s
    | m :: ms => perform m { s with agenda := ms }
  else .refused .illFormedConfig

/-- `s` with the command word `w` issued by the host, nothing scheduled before the block's turn, and nothing that keeps the
block from taking it. -/
def loadCommand (w : Word) (s : State) : State :=
  { issueCommand w s with fault := false, mfault := none, refused := none, agenda := [] }

end Sys2Proof.Machine
end

