-- ==== Sys2Proof/Machine/Step.lean ====
section
/-! DEFINITION. The step of the machine, and the placing of a command where the next step runs it. -/

namespace Sys2Proof.Machine

/-- One global step of one agent (spec/60_exceptions.md R220). -/
def step (s : State) : Host.Outcome State Fault Refusal := globalStep s

/-- `s` with the command whose table bits are `w` issued, so that the next step is its first micro-step. -/
def State.withFetchWord (s : State) (nbits w : Nat) : State :=
  loadCommand (BitVec.ofNat 32 (w % 2 ^ nbits)) s

end Sys2Proof.Machine
end

