-- ==== Sys2Proof/Safety.lean ====
section
/-! DEFINITION. The terms claims use: runs of micro-steps and of global steps, a run's end (spec/60_exceptions.md R226), the
effects of the error exits on everything a host can see, the legality table (spec/43_session.md R151), the wire layout of a
block (R160), peer schedules, and the invariant of the machine (spec/10_state.md R42). -/

namespace Sys2Proof.Machine

/-! ### Runs -/

/-- `n` micro-steps of the command `i`, one after the other, with no other agent's step between them. -/
def microSteps (i : Instr) : Nat → State → Host.Outcome State Fault Refusal
  | 0, s => .next s
  | n + 1, s =>
    match exec i s with
    | .next s' => microSteps i n s'
    | .fault r => .fault r
    | .refused r => .refused r

/-- `n` global steps. -/
def steps : Nat → State → Host.Outcome State Fault Refusal
  | 0, s => .next s
  | n + 1, s =>
    match step s with
    | .next s' => steps n s'
    | .fault r => .fault r
    | .refused r => .refused r

/-- No mark is set and FAULT = 0: nothing keeps the block from taking micro-steps (R221). -/
def State.unmarked (s : State) : Prop := s.mfault = none ∧ s.refused = none ∧ s.fault = false

/-- The command word a scheduled move has the host issue, if it is a write of CMD (R222). -/
def Move.issuedWord : Move → Option Word
  | .block => none
  | .peer _ _ => none
  | .host a => if a.admitted && a.offset == 0x0 then a.write else none
  | .reset => none

/-- The words of the host program that are still to be issued: those of the schedule, then those of `program` (R222). -/
def State.wordsToIssue (s : State) : List Word := s.agenda.filterMap Move.issuedWord ++ s.program

/-- A final state of a run (R226): the host has issued all its words and BUSY = 0. A faulted or refused state is never final. -/
def State.runEnded (s : State) : Prop := s.wordsToIssue = [] ∧ s.busy = false ∧ s.unmarked

/-- What the outcome of a run consists of (R226). -/
structure RunOutcome where
  status : Word
  res    : Word
  dir    : LineFile Dir
  out    : LineFile Bit
  buf    : Memory
  events : List Event
  deriving DecidableEq, Repr

/-- The outcome a final state shows (R226). -/
def State.outcome (s : State) : RunOutcome := ⟨s.status, s.res, s.dir, s.out, s.buf, s.events⟩

/-- The run from `s` ends in `t` after `n` global steps: `t` is the first final state (R226). -/
def RunEnds (s : State) (n : Nat) (t : State) : Prop :=
  steps n s = .next t ∧ t.runEnded ∧ ∀ m, m < n → ∀ u, steps m s = .next u → ¬ u.runEnded

/-- The run from `s` stops in `t` after `n` global steps: `t` is the first state with FAULT = 1 or a mark, and no state before
it is final (R226: a fault or refusal outcome). -/
def RunStops (s : State) (n : Nat) (t : State) : Prop :=
  steps n s = .next t ∧ ¬ t.unmarked ∧ ∀ m, m < n → ∀ u, steps m s = .next u → u.unmarked ∧ ¬ u.runEnded

/-- `n` global steps under an unending schedule, in place of the state's own. -/
def stepsUnder (sched : Nat → Move) (n : Nat) (s : State) : Host.Outcome State Fault Refusal :=
  steps n { s with agenda := (List.range n).map sched }

/-- A schedule under which the block never runs out of turns (R224). -/
def FairSchedule (sched : Nat → Move) : Prop := ∀ n, ∃ m, n ≤ m ∧ sched m = .block

/-- The run from `s` under a fair schedule hangs: from some point on BUSY = 1, without a fault or a refusal (R226,
70_reset_and_hazards.md R254). -/
def Hangs (sched : Nat → Move) (s : State) : Prop :=
  FairSchedule sched ∧ ∃ n, ∀ m, n ≤ m → ∃ t, stepsUnder sched m s = .next t ∧ t.busy = true ∧ t.unmarked

/-- The block has an enabled step (R221). -/
def State.blockEnabled (s : State) : Prop := s.busy = true ∧ s.unmarked

/-- The directions ENABLE sets (R152, inv1 of R42). -/
def enabledDirs : LineFile Dir := ⟨.inp, .inp, .out, .out⟩

/-- T0 of R151: Transferring with RESYNC = 0. -/
def State.t0 (s : State) : Prop := s.sess = .transferring ∧ s.resync = false

/-- Ready to run a transfer command: T0, the directions of an Enabled session, and the first micro-step next. -/
structure TransferReady (s : State) : Prop where
  t0    : s.t0
  dirs  : s.dir = enabledDirs
  first : s.seq = .start

/-! ### The exits, on everything but the hidden data path -/

/-- What a fatal error leaves (R210, R212): the code, BUSY = 0, FAULT = 1, the mark and one record; all else of what the host
or the peer can see is unchanged. -/
structure FatalEffect (e : Err) (s t : State) : Prop where
  err     : t.err = e.code
  busy    : t.busy = false
  fault   : t.fault = true
  mfault  : t.mfault = s.mfault.or (some .hwFault)
  events  : t.events = s.events ++ [.done e.code]
  sess    : t.sess = s.sess
  resync  : t.resync = s.resync
  dir     : t.dir = s.dir
  out     : t.out = s.out
  res     : t.res = s.res
  buf     : t.buf = s.buf
  cfg     : t.cfg = s.cfg
  extClk  : t.extClk = s.extClk
  extDat  : t.extDat = s.extDat
  refused : t.refused = s.refused

/-- What a recoverable error leaves (R210, R211), with the samples `ins` the raising micro-step made before it. -/
structure RecoverableEffect (e : Err) (sess' : Sess) (ins : List Event) (s t : State) : Prop where
  err     : t.err = e.code
  busy    : t.busy = false
  resync  : t.resync = true
  sess    : t.sess = sess'
  events  : t.events = s.events ++ ins ++ [.done e.code]
  fault   : t.fault = s.fault
  mfault  : t.mfault = s.mfault
  refused : t.refused = s.refused
  dir     : t.dir = s.dir
  out     : t.out = s.out
  res     : t.res = s.res
  buf     : t.buf = s.buf
  cfg     : t.cfg = s.cfg
  extClk  : t.extClk = s.extClk
  extDat  : t.extDat = s.extDat

/-- The SESS a recoverable error of command `i` leaves (R211). -/
def sessAfterError (i : Instr) (s : State) : Sess :=
  match i with
  | .wfs => s.prior
  | .sblk _ => .idle
  | .rblk _ => .idle
  | _ => s.sess

/-! ### Legality -/

/-- The table of R151: the session states D, I, T0 and T1 in which a command is legal. The file-level commands are refused at
decode, so no legality check stops them. Syncing is no column of the table: no command is issued in it. -/
def legalIn (i : Instr) (sess : Sess) (resync : Bool) : Bool :=
  match i with
  | .lcfg _ _ => sess = .disabled
  | .lrd _    => sess = .disabled
  | .lwr _ _  => sess = .disabled
  | .sbit _   => sess = .transferring && !resync
  | .rbit     => sess = .transferring && !resync
  | .sbyte _  => sess = .transferring && !resync
  | .rbyte    => sess = .transferring && !resync
  | .sblk _   => sess = .transferring && !resync
  | .rblk _   => sess = .transferring && !resync
  | .enable   => sess = .disabled
  | .disable  => true
  | .wfs      => sess = .idle || sess = .transferring
  | .bufw _ _ => true
  | .bufr _   => true
  | .reqfl    => true
  | .listf    => true
  | .sendf    => true
  | .retrf    => true

/-- The four file-level commands (45_file_level.md). -/
def fileLevel : Instr → Bool
  | .reqfl => true
  | .listf => true
  | .sendf => true
  | .retrf => true
  | _ => false

/-- SBLK and RBLK. -/
def blockCommand : Instr → Bool
  | .sblk _ => true
  | .rblk _ => true
  | _ => false

/-! ### What goes over the wire -/

/-- The three records of one SendBit (41_bit_transport.md R113 g3). -/
def sendBitEvents (c : Cfg) (b : Bit) : List Event := [.out .odat b, .out .oclk c.active, .out .oclk c.idle]

/-- The records of sending a list of bits. -/
def sendEvents (c : Cfg) (bits : List Bit) : List Event := bits.flatMap (sendBitEvents c)

/-- The elements of a block with data bytes `ds`, in wire order (R160). -/
def blockBytes (c : Cfg) (ds : List Byte) : List Byte :=
  c.startMarker.toList
    ++ (match c.blockMode with
        | .prefixed => (List.range c.lenBytes.count).map (lenByte c (BitVec.ofNat 17 ds.length))
        | .fixed => [])
    ++ ds ++ c.endMarker.toList

/-- The wire bits of a block: each element as one word (R159). -/
def blockBits (c : Cfg) (ds : List Byte) : List Bit :=
  (blockBytes c ds).flatMap fun b => wireBits c (b.setWidth 16)

/-- The lengths SBLK sends: in the buffer and supported (R161, R163). -/
def supportedLen (c : Cfg) (n : Nat) : Prop := n ≤ c.bufSize ∧ n < 2 ^ 16 ∧ sendLenOk c n = true

/-- BUF[0..n-1] holds the bytes `ds`. -/
def bufHolds (m : Memory) (ds : List Byte) : Prop := ∀ k, k < ds.length → m.read k = ds[k]?

/-! ### Peer schedules -/

/-- A peer that presents one bit under PC1 and PC2 (70_reset_and_hazards.md R245, R246): `waits + 1` polls of the idle clock,
then IDAT = b and the active edge, the poll that samples, and the clock back to idle. -/
def bitMoves (c : Cfg) (b : Bit) (waits : Nat) : List Move :=
  List.replicate (waits + 1) .block ++ [.peer .idat b, .peer .iclk c.active, .block, .peer .iclk c.idle]

/-- The schedule of a peer that presents a list of bits, each with its number of extra polls. -/
def bitsMoves (c : Cfg) (bits : List (Bit × Nat)) : List Move := bits.flatMap fun p => bitMoves c p.1 p.2

/-- No TimeoutError in the bits of such a schedule: the edge is seen at poll `waits + 2` at the latest. -/
def patient (c : Cfg) (bits : List (Bit × Nat)) : Prop :=
  ∀ p ∈ bits, ∀ t, c.timeout = some t → p.2 + 1 < t

/-- A peer that shows an input vector for one WFS poll. -/
def showInput (iv : BitVec 2) : List Move :=
  [.peer .iclk (iv.getLsbD 0), .peer .idat (iv.getLsbD 1), .block]

/-! ### The invariant -/

/-- A position inside SendWord. -/
def Seq.isSend : Seq → Bool
  | .clkActive _ => true
  | .clkIdle _ => true
  | .sendNext _ => true
  | _ => false

/-- A position inside RecvWord. -/
def Seq.isRecv : Seq → Bool
  | .recvBit => true
  | .poll => true
  | _ => false

/-- RecvWord still has a bit to take: a data bit, or the parity bit. -/
def State.wordOpen (s : State) : Prop := s.bitCnt.toNat < s.cfg.width ∨ s.cfg.parity ≠ .none

/-- The micro-step of the receive command `i` in `s` makes the first poll of a RecvBit: at the command's start, at a later bit
of a word, or at a later element of a block (41_bit_transport.md R112, 42_byte_framer.md R133,
43_session.md R165). -/
def firstPoll (i : Instr) (s : State) : Prop :=
  match i with
  | .rbit => s.seq = .start ∧ s.t0
  | .rbyte => s.seq = .start ∧ s.t0 ∨ s.seq = .recvBit
  | .rblk cap =>
    s.seq = .start ∧ s.t0 ∧ s.cfg.width = 8 ∧ cap.toNat ≤ s.cfg.bufSize ∧ recvLenOk s.cfg cap.toNat = true
      ∨ s.seq = .recvBit ∨ s.seq = .elem
  | _ => False

/-- What a receive command in the middle of its wait leaves unchanged: all the host or the peer can see but the history. -/
structure StillWaiting (s t : State) : Prop where
  busy    : t.busy = s.busy
  err     : t.err = s.err
  res     : t.res = s.res
  sess    : t.sess = s.sess
  resync  : t.resync = s.resync
  fault   : t.fault = s.fault
  mfault  : t.mfault = s.mfault
  refused : t.refused = s.refused
  dir     : t.dir = s.dir
  out     : t.out = s.out
  buf     : t.buf = s.buf
  cfg     : t.cfg = s.cfg
  cur     : t.cur = s.cur
  extClk  : t.extClk = s.extClk
  extDat  : t.extDat = s.extDat

/-- The poll in `s` that samples IDAT ends a word with value `v`: its last data bit when there is no parity bit, else a parity
bit that agrees (42_byte_framer.md R133). -/
def completesWord (s : State) (v : BitVec 16) : Prop :=
  s.seq = .poll ∧ s.phase = .waitActive ∧ s.extClk = s.cfg.active ∧
    ((s.cfg.parity = .none ∧ s.bitCnt.toNat + 1 = s.cfg.width ∧ shiftBit s.cfg s.sr s.extDat = v)
      ∨ (s.bitCnt.toNat = s.cfg.width ∧ parityBit s.cfg s.sr = some s.extDat ∧ s.sr = v))

/-- The two samples of such a poll. -/
def pollSamples (s : State) : List Event := [.inp .iclk s.extClk, .inp .idat s.extDat]

/-- The running element of a block exists in the layout (R160), BIDX ≤ BLEN (42_byte_framer.md R138), and BIDX is 0 before the
data. -/
def State.blockOpen (s : State) : Prop :=
  s.cfg.width = 8 ∧ s.bIdx ≤ s.bLen ∧
    match s.part with
    | .startMarker => s.cfg.startMarker.isSome ∧ s.bIdx = 0
    | .lenByte j => s.cfg.blockMode = .prefixed ∧ j < s.cfg.lenBytes.count ∧ s.bIdx = 0
    | .data => s.bIdx < s.bLen
    | .endMarker => s.cfg.endMarker.isSome

/-- The state between two micro-steps of the running command `i`. -/
def RunFits (i : Instr) (s : State) : Prop :=
  match i with
  | .sbit _ => s.t0 ∧ s.seq.isSend
  | .sbyte _ => s.t0 ∧ s.seq.isSend
  | .rbit => s.t0 ∧ s.seq = .poll
  | .rbyte => s.t0 ∧ s.seq.isRecv ∧ s.wordOpen
  | .wfs => s.sess = .syncing ∧ s.seq = .hsPoll ∧ (s.prior = .idle ∨ s.prior = .transferring) ∧ s.hsIdx < s.cfg.hsSeq.length
  | .sblk len => s.t0 ∧ (s.seq.isSend ∨ s.seq = .elem) ∧ s.blockOpen ∧ s.bLen.toNat = len.toNat ∧ len.toNat ≤ s.cfg.bufSize
  | .rblk cap =>
    s.t0 ∧ (s.seq.isRecv ∧ s.wordOpen ∨ s.seq = .elem) ∧ s.blockOpen ∧ s.bLen.toNat ≤ cap.toNat ∧ cap.toNat ≤ s.cfg.bufSize
  | _ => False

/-- The invariant of the machine: inv1 to inv5 of R42, the bounds of R138, the reserved codes of R27, the canonical form of
the buffer, and the running command's own state. inv2 is `syncing` with `idle`; inv5 is that one SEQ holds one command. -/
structure MachineInv (s : State) : Prop where
  cfg      : s.cfg.wf = true
  bufForm  : s.buf.wf
  bufRange : ∀ c ∈ s.buf, c.1 < s.cfg.bufSize
  errCode  : s.err.toNat < 8
  dirs     : s.sess ≠ .disabled → s.dir = enabledDirs
  resync   : s.sess = .disabled → s.resync = false
  sr       : s.sr.toNat < 2 ^ s.cfg.width
  bitCnt   : s.bitCnt.toNat ≤ s.cfg.width
  pollCnt  : ∀ t, s.cfg.timeout = some t → s.pollCnt ≤ t
  polling  : s.seq = .poll ∨ s.seq = .hsPoll → ∀ t, s.cfg.timeout = some t → s.pollCnt < t
  marked   : s.fault = true → s.mfault.isSome
  idle     : s.busy = false → s.seq = .start
  syncing  : s.sess = .syncing → s.seq = .hsPoll
  running  : s.seq ≠ .start → ∃ i, decode s.cur = .ok i ∧ RunFits i s

end Sys2Proof.Machine
end

