-- ==== Sys2Proof/Certificates/Slice0/Obligations.lean ====
section
/-! DEFINITION. The statements for the provers, from the numbered rules of spec/. -/

open Sys2Proof
open Sys2Proof.Machine

/-! ### Encoding -/

/-- R72 to R80, R83: the encoder's word of every command decodes to that command, every operand at every value. -/
def Obligations.DecodeOfEncodeIsTheCommand : Prop :=
  ∀ i : Instr, decode (encode i) = .ok i

/-- R80: outside format X, a word that decodes to a command is that command's only word. -/
def Obligations.DecodedWordIsTheEncoding : Prop :=
  ∀ (w : Word) (i : Instr), decode w = .ok i → fileLevel i = false → encode i = w

/-- Words written out from the format tables decode to their commands. -/
def Obligations.SampleWordsDecode : Prop :=
  decode 0x10000103 = .ok (.lcfg .odat true) ∧ decode 0x11000001 = .ok (.lrd .idat)
    ∧ decode 0x12000102 = .ok (.lwr .oclk true) ∧ decode 0x300000A5 = .ok (.sbyte 0xA5)
    ∧ decode 0x5000027F = .ok (.bufw 0x0002 0x7F) ∧ decode 0x6000ABCD = .ok .reqfl

/-- R82: the illegal words. (a) OP outside the map, with R82's own ranges; (b) OP assigned to a format other than X and a
must-be-zero bit set; (c) an SBYTE operand of more than WIDTH bits. Each raises IllegalCommand in the first micro-step. -/
def Obligations.IllegalWordsRaiseIllegalCommand : Prop :=
  ∀ s : State, s.cfg.wf = true → s.agenda = [] → s.blockEnabled → s.seq = .start →
    ((fieldOp s.cur).toNat < 0x10 ∨ (0x13 ≤ (fieldOp s.cur).toNat ∧ (fieldOp s.cur).toNat ≤ 0x1F)
      ∨ (0x22 ≤ (fieldOp s.cur).toNat ∧ (fieldOp s.cur).toNat ≤ 0x2F)
      ∨ (0x32 ≤ (fieldOp s.cur).toNat ∧ (fieldOp s.cur).toNat ≤ 0x3F)
      ∨ (0x45 ≤ (fieldOp s.cur).toNat ∧ (fieldOp s.cur).toNat ≤ 0x4F)
      ∨ (0x52 ≤ (fieldOp s.cur).toNat ∧ (fieldOp s.cur).toNat ≤ 0x5F)
      ∨ 0x64 ≤ (fieldOp s.cur).toNat
      ∨ (∃ r : Row, r.opcode = fieldOp s.cur ∧ r.isFormatX = false ∧ s.cur &&& r.mask ≠ r.pattern)
      ∨ (∃ imm : BitVec 16, s.cur = encode (.sbyte imm) ∧ 2 ^ s.cfg.width ≤ imm.toNat)) →
    ∃ t, step s = .next t ∧ FatalEffect .illegalCommand s t

/-! ### The step -/

/-- R221: with nothing else scheduled, or on the block's turn, the step of an enabled block is `exec` of the decoded command.
The block has no program counter: `exec` itself moves SEQ.
That an empty schedule gives the block its turn, and that a schedule is data of the state, is the model's choice (log entry 1);
that `exec` is one micro-step at SEQ is log entry 2. -/
def Obligations.StepRunsTheDecodedCommand : Prop :=
  ∀ (s : State) (i : Instr), s.cfg.wf = true → s.blockEnabled → decode s.cur = .ok i →
    (s.agenda = [] → step s = exec i s) ∧
    (∀ ms, s.agenda = .block :: ms → step s = exec i { s with agenda := ms })

/-- R39: while a mark is set the block takes no micro-step: its turn answers a fault or a refusal that names the reason.
That the turn of a marked block is reported as a stop, and not as an idle turn, is the model's choice (log entry 6). -/
def Obligations.MarkedBlockTakesNoMicroStep : Prop :=
  ∀ (s : State) (ms : List Move), s.cfg.wf = true → s.agenda = [] ∨ s.agenda = .block :: ms →
    (s.mfault = some .hwFault → step s = .fault .hwFault) ∧
    (s.mfault = some .uninitRead → step s = .fault .uninitRead) ∧
    (∀ r, s.mfault = none → s.refused = some r → step s = .refused r.toRefusal)

/-- R221, R222: with nothing scheduled and no command running, the host issues the next word of its program, and without one
the machine idles.
The host program and the empty schedule are the model's own (log entry 1). -/
def Obligations.IdleBlockTakesTheNextProgramWord : Prop :=
  ∀ s : State, s.cfg.wf = true → s.agenda = [] → s.busy = false → s.unmarked →
    (s.program = [] → step s = .next s) ∧
    (∀ w ws, s.program = w :: ws →
      step s = .next { s with
        program := ws, cur := w, busy := true, err := 0, seq := .start, events := s.events ++ [.issue w] })

/-- R6: no machine is built from an ill-formed configuration. That the step of a state which carries one is refused is the
model's choice (log entry 5), since cfg is a field of its State. -/
def Obligations.IllFormedConfigurationIsRefused : Prop :=
  (∀ c : Cfg, c.wf = false → launch c = .error .illFormedConfig) ∧
    (∀ s : State, s.cfg.wf = false → step s = .refused .illFormedConfig)

/-- The headline invariant: every step of every agent keeps `MachineInv`. -/
def Obligations.StepKeepsTheInvariant : Prop :=
  ∀ s t : State, MachineInv s → step s = .next t → MachineInv t

/-- The state after reset meets the invariant. -/
def Obligations.ResetMeetsTheInvariant : Prop := MachineInv State.reset

/-- In every state that meets the invariant, the block is never resumed at a position of another command and never reaches
outside the buffer. -/
def Obligations.InvariantExcludesInternalStops : Prop :=
  ∀ s : State, MachineInv s → step s ≠ .fault .seqMismatch ∧ step s ≠ .fault .bufRange

/-- R39: no step clears a model mark, reset included (R240). -/
def Obligations.MarksAreNeverCleared : Prop :=
  ∀ s t : State, step s = .next t →
    (∀ r, s.mfault = some r → t.mfault = some r) ∧ (∀ r, s.refused = some r → t.refused = some r)

/-- R244: no step changes the configuration; a reset and every command leave it as it is. -/
def Obligations.ConfigurationIsNeverChanged : Prop :=
  ∀ s t : State, step s = .next t → t.cfg = s.cfg

/-- R28: FAULT is set by the fatal exit (a command that ends with a fatal error's code leaves FAULT = 1) and by nothing else;
only reset clears it; while it is 1 the block takes no micro-step and a host write of CMD has no effect on the block.
The fifth clause is the model's choice (log entry 6): the turn of a block with FAULT = 1, also where no mark stands, is
reported as a stop and not as an idle turn. -/
def Obligations.FaultFlagFollowsItsRule : Prop :=
  (∀ (s t : State) (e : Err), step s = .next t → s.busy = true → t.busy = false → e.recoverable = false → t.err = e.code →
      t.fault = true) ∧
  (∀ s t : State, step s = .next t → s.fault = false → t.fault = true →
      ∃ e : Err, e.recoverable = false ∧ t.err = e.code ∧ t.busy = false ∧ t.mfault.isSome) ∧
  (∀ s t : State, step s = .next t → s.fault = true → (∀ ms, s.agenda ≠ .reset :: ms) → t.fault = true) ∧
  (∀ (s : State) (ms : List Move), s.cfg.wf = true → s.agenda = .reset :: ms → ∃ t, step s = .next t ∧ t.fault = false) ∧
  (∀ (s : State) (ms : List Move), s.cfg.wf = true → s.fault = true → s.agenda = [] ∨ s.agenda = .block :: ms →
      ∀ t, step s ≠ .next t) ∧
  (∀ (s : State) (ms : List Move) (w : Word), s.cfg.wf = true → s.fault = true →
      s.agenda = .host ⟨0, 4, some w⟩ :: ms → step s = .next { s with agenda := ms, hostGot := none })

/-! ### Reset -/

/-- R44, R241: the state after reset, on every piece of state whose reset value the spec gives; and what the host reads. -/
def Obligations.ResetStateIsTheTable : Prop :=
  (∀ i, State.reset.dir.get i = .uncfg ∧ State.reset.out.get i = false) ∧
  State.reset.sess = .disabled ∧ State.reset.resync = false ∧ State.reset.busy = false ∧ State.reset.err = 0
    ∧ State.reset.fault = false ∧ State.reset.res = 0 ∧ State.reset.mfault = none ∧ State.reset.refused = none
    ∧ State.reset.events = [] ∧ (∀ a, State.reset.buf.read a = none) ∧ State.reset.status = 0

/-- R240: reset in any state. The block's state is R44's; the configuration, the peer's levels and the marks stay.
What the step keeps of the schedule is the model's own (log entry 1). -/
def Obligations.HostResetAppliesTheTable : Prop :=
  ∀ (s : State) (ms : List Move), s.cfg.wf = true → s.agenda = .reset :: ms →
    ∃ t, step s = .next t
      ∧ (∀ i, t.dir.get i = .uncfg ∧ t.out.get i = false)
      ∧ t.sess = .disabled ∧ t.resync = false ∧ t.busy = false ∧ t.err = 0 ∧ t.fault = false ∧ t.res = 0
      ∧ t.seq = .start ∧ (∀ a, t.buf.read a = none) ∧ t.status = 0
      ∧ t.cfg = s.cfg ∧ t.extClk = s.extClk ∧ t.extDat = s.extDat ∧ t.mfault = s.mfault ∧ t.refused = s.refused
      ∧ t.agenda = ms

/-! ### Frames over all commands -/

/-- What no command ever changes in a micro-step: the configuration, CUR, the peer's levels, the environment's plans. -/
def Obligations.CommandsLeaveTheEnvironmentAlone : Prop :=
  ∀ (i : Instr) (s t : State), exec i s = .next t →
    t.cfg = s.cfg ∧ t.cur = s.cur ∧ t.extClk = s.extClk ∧ t.extDat = s.extDat
      ∧ t.agenda = s.agenda ∧ t.program = s.program ∧ t.hostGot = s.hostGot

/-- R52, R165, R180: which command stores, and where. BUFW stores at ADDR16 and RBLK at BIDX in a data element; every other
byte of the buffer reads as before, and no other command stores at all. -/
def Obligations.BufferBytesOutsideTheStoreAreKept : Prop :=
  ∀ (i : Instr) (s t : State) (a : Nat), exec i s = .next t →
    (match i with
      | .bufw addr _ => a ≠ addr.toNat
      | .rblk _ => s.part ≠ .data ∨ a ≠ s.bIdx.toNat
      | _ => True) →
    t.buf.read a = s.buf.read a

/-- R29: RES changes only in a micro-step that completes an LRD, RBIT, RBYTE, BUFR or RBLK. -/
def Obligations.ResultChangesOnlyOnSuccess : Prop :=
  ∀ (i : Instr) (s t : State), exec i s = .next t → t.res ≠ s.res →
    t.busy = false ∧ t.err = 0 ∧
      match i with
      | .lrd _ => True
      | .rbit => True
      | .rbyte => True
      | .bufr _ => True
      | .rblk _ => True
      | _ => False

/-- R27, R209, R210: a micro-step either leaves the command running, with ERR, BUSY and FAULT as they are and no end recorded, or ends it:
BUSY = 0, ERR is the outcome code, below 8, and the record of that code is the last of the history. -/
def Obligations.StatusChangesOnlyAtTheCommandsEnd : Prop :=
  ∀ (i : Instr) (s t : State), exec i s = .next t →
    (t.err = s.err ∧ t.busy = s.busy ∧ t.fault = s.fault ∧ ∀ code, .done code ∉ t.events.drop s.events.length) ∨
    (t.busy = false ∧ t.err.toNat < 8 ∧ t.seq = .start ∧ t.events.getLast? = some (.done t.err))

/-- R21, R102: only LCFG and ENABLE change a direction, LCFG that of its line; and only LWR, ENABLE, DISABLE and the send
commands change a latch, LWR that of its line and the send commands those of OCLK and ODAT. -/
def Obligations.DirectionsAndLatchesOutsideAreKept : Prop :=
  ∀ (i : Instr) (s t : State) (ln : LineId), exec i s = .next t →
    ((match i with
      | .lcfg ln' _ => ln ≠ ln'
      | .enable => False
      | _ => True) → t.dir.get ln = s.dir.get ln) ∧
    ((match i with
      | .lwr ln' _ => ln ≠ ln'
      | .enable => ln = .iclk ∨ ln = .idat
      | .disable => s.dir.get ln ≠ .out
      | .sbit _ => ln = .iclk ∨ ln = .idat
      | .sbyte _ => ln = .iclk ∨ ln = .idat
      | .sblk _ => ln = .iclk ∨ ln = .idat
      | _ => True) → t.out.get ln = s.out.get ln)

/-- R53, R102: a line that was configured is never UNCFG again, and a byte that holds a value holds one, but by reset: no other
step of any agent takes either back. -/
def Obligations.OnlyResetTakesBackDirectionsAndBytes : Prop :=
  ∀ s t : State, step s = .next t → (∀ ms, s.agenda ≠ .reset :: ms) →
    (∀ ln, s.dir.get ln ≠ .uncfg → t.dir.get ln ≠ .uncfg) ∧ (∀ a, (s.buf.read a).isSome → (t.buf.read a).isSome)

/-- R24, R25: SESS and RESYNC under the commands that are no session or block command: SESS is kept, and RESYNC is kept or,
by a command that ends with a recoverable error, set. -/
def Obligations.SessionKeptByLineBitWordAndBufferCommands : Prop :=
  ∀ (i : Instr) (s t : State), exec i s = .next t →
    (match i with
      | .enable => False
      | .disable => False
      | .wfs => False
      | .sblk _ => False
      | .rblk _ => False
      | _ => True) →
    t.sess = s.sess ∧ (t.resync = s.resync ∨
      (t.resync = true ∧ t.busy = false ∧ ∃ e : Err, e.recoverable = true ∧ t.err = e.code))

/-- R150: in a state that meets the invariant, every change of SESS by a command is a row of the transition table. -/
def Obligations.SessionChangesAreTheTable : Prop :=
  ∀ (i : Instr) (s t : State), MachineInv s → decode s.cur = .ok i → exec i s = .next t → t.sess ≠ s.sess →
    match i with
    | .enable => s.sess = .disabled ∧ t.sess = .idle ∧ t.resync = false
    | .disable => (s.sess = .idle ∨ s.sess = .transferring) ∧ t.sess = .disabled ∧ t.resync = false
    | .wfs =>
      ((s.sess = .idle ∨ s.sess = .transferring) ∧ t.sess = .syncing ∧ t.resync = s.resync)
        ∨ (s.sess = .syncing ∧ t.sess = .transferring ∧ t.resync = false)
        ∨ (s.sess = .syncing ∧ t.sess = s.prior ∧ t.resync = true)
    | .sblk _ => s.sess = .transferring ∧ t.sess = .idle ∧ (t.resync = (t.err != 0))
    | .rblk _ => s.sess = .transferring ∧ t.sess = .idle ∧ (t.resync = (t.err != 0))
    | _ => False

/-! ### Legality and range errors -/

/-- R151, R205: a command issued in a session state where the table does not allow it raises UsageError, after the SBYTE width
check and the block width refusal (R208). -/
def Obligations.IllegalSessionStateRaisesUsageError : Prop :=
  ∀ (i : Instr) (s : State), s.seq = .start → legalIn i s.sess s.resync = false → i.wf s.cfg = true →
    (blockCommand i = true → s.cfg.width = 8) →
    ∃ t, exec i s = .next t ∧ FatalEffect .usage s t

/-- R206: an operand out of range of the block buffer raises UsageError. -/
def Obligations.OperandBeyondTheBufferRaisesUsageError : Prop :=
  (∀ (s : State) (n : BitVec 16), s.seq = .start → s.t0 → s.cfg.width = 8 → s.cfg.bufSize < n.toNat →
    (∃ t, exec (.sblk n) s = .next t ∧ FatalEffect .usage s t) ∧
    (∃ t, exec (.rblk n) s = .next t ∧ FatalEffect .usage s t)) ∧
  (∀ (s : State) (a : BitVec 16) (d : Byte), s.cfg.bufSize ≤ a.toNat →
    (∃ t, exec (.bufw a d) s = .next t ∧ FatalEffect .usage s t) ∧
    (∃ t, exec (.bufr a) s = .next t ∧ FatalEffect .usage s t))

/-! ### Line commands -/

/-- R103: LCFG in Disabled sets the direction of its line, whatever it was, and records it; nothing else changes. -/
def Obligations.LcfgConfiguresItsLine : Prop :=
  ∀ (s : State) (ln : LineId) (v : Bit), s.sess = .disabled →
    exec (.lcfg ln v) s = .next { s with
      dir := s.dir.set ln (if v then .out else .inp), events := s.events ++ [.cfg ln (if v then .out else .inp), .done 0],
      err := 0, busy := false, seq := .start }

/-- R104: LRD of an input line gives the level: the peer's on ICLK and IDAT, some level on OCLK and ODAT, which the peer does
not drive; one sample is recorded. -/
def Obligations.LrdReadsAnInputLine : Prop :=
  ∀ (s : State) (ln : LineId), s.sess = .disabled → s.dir.get ln = .inp →
    ∃ v n, exec (.lrd ln) s = .next { s with
        res := v.toWord, events := s.events ++ [.inp ln v, .done 0], err := 0, busy := false, seq := .start, freeCtr := n }
      ∧ (ln = .iclk → v = s.extClk ∧ n = s.freeCtr) ∧ (ln = .idat → v = s.extDat ∧ n = s.freeCtr)

/-- R105: LWR of an output line writes its latch, whatever it held, and records it; nothing else changes. -/
def Obligations.LwrWritesTheLatch : Prop :=
  ∀ (s : State) (ln : LineId) (v : Bit), s.sess = .disabled → s.dir.get ln = .out →
    exec (.lwr ln v) s = .next { s with
      out := s.out.set ln v, events := s.events ++ [.out ln v, .done 0], err := 0, busy := false, seq := .start }

/-- R100, R101, R201: LRD of a line that is not an input, and LWR of a line that is not an output, unconfigured lines
included, raise LineDirectionError. -/
def Obligations.WrongDirectionRaisesLineDirectionError : Prop :=
  ∀ (s : State) (ln : LineId), s.sess = .disabled →
    (s.dir.get ln ≠ .inp → ∃ t, exec (.lrd ln) s = .next t ∧ FatalEffect .lineDirection s t) ∧
    (∀ v, s.dir.get ln ≠ .out → ∃ t, exec (.lwr ln v) s = .next t ∧ FatalEffect .lineDirection s t)

/-! ### Bit transport -/

/-- R111, R114: SBIT from T0 ends after three micro-steps, with its three records and OCLK back at IDLE. -/
def Obligations.SbitSendsOneBit : Prop :=
  ∀ (s : State) (b : Bit), TransferReady s →
    microSteps (.sbit b) 3 s = .next { s with
      out := { s.out with oclk := s.cfg.idle, odat := b },
      events := s.events ++ [.out .odat b, .out .oclk s.cfg.active, .out .oclk s.cfg.idle, .done 0],
      err := 0, busy := false, seq := .start }

/-- R112, R115: RBIT from T0 with the clock at IDLE polls once and waits (with TIMEOUT = 1 it would time out); when the peer
then shows the active level and a data bit, the next poll completes it with that bit in RES. -/
def Obligations.RbitReceivesOneBit : Prop :=
  ∀ (s : State) (d : Bit), TransferReady s → s.extClk = s.cfg.idle → s.cfg.timeout ≠ some 1 →
    ∃ t, exec .rbit s = .next { s with
        phase := .waitActive, pollCnt := 1, seq := .poll, events := s.events ++ [.inp .iclk s.cfg.idle] }
      ∧ exec .rbit { s with
          phase := .waitActive, pollCnt := 1, seq := .poll, events := s.events ++ [.inp .iclk s.cfg.idle],
          extClk := s.cfg.active, extDat := d } = .next t
      ∧ t = { s with
          phase := .waitActive, pollCnt := 2, extClk := s.cfg.active, extDat := d, res := d.toWord, err := 0,
          busy := false, seq := .start,
          events := s.events ++ [.inp .iclk s.cfg.idle, .inp .iclk s.cfg.active, .inp .idat d, .done 0] }

/-- R112: a poll of RecvBit that does not see what it waits for, below the bound, changes nothing but the poll state and the
record, in RBIT, RBYTE and RBLK; an active level seen while IDLE is awaited is no edge. The first poll of a RecvBit awaits IDLE,
whatever PHASE held, and it is never the last. -/
def Obligations.RbitPollWithoutEdgeGoesOn : Prop :=
  (∀ (i : Instr) (s : State), (i = .rbit ∨ i = .rbyte ∨ ∃ cap, i = .rblk cap) → s.dir.iclk = .inp → s.seq = .poll →
    s.cfg.timeout ≠ some (s.pollCnt + 1) →
    (s.phase = .waitIdle → exec i s = .next { s with
      pollCnt := s.pollCnt + 1, events := s.events ++ [.inp .iclk s.extClk],
      phase := if s.extClk = s.cfg.idle then .waitActive else .waitIdle }) ∧
    (s.phase = .waitActive → s.extClk = s.cfg.idle → exec i s = .next { s with
      pollCnt := s.pollCnt + 1, events := s.events ++ [.inp .iclk s.extClk] })) ∧
  (∀ (i : Instr) (s : State), s.cfg.wf = true → firstPoll i s → s.dir.iclk = .inp → s.cfg.timeout ≠ some 1 →
    ∃ t, exec i s = .next t ∧ t.seq = .poll ∧ t.pollCnt = 1
      ∧ t.phase = (if s.extClk = s.cfg.idle then .waitActive else .waitIdle)
      ∧ t.events = s.events ++ [.inp .iclk s.extClk] ∧ StillWaiting s t)

/-- R115, R202, R211: the poll that reaches TIMEOUT without the edge raises TimeoutError in RBIT, RBYTE and RBLK; SESS is kept for
the first two and Idle after RBLK. With TIMEOUT = 1 that is the first poll of the first RecvBit, whatever the lines show. -/
def Obligations.PollAtTheBoundRaisesTimeoutError : Prop :=
  (∀ (i : Instr) (s : State), (i = .rbit ∨ i = .rbyte ∨ ∃ cap, i = .rblk cap) → s.dir.iclk = .inp → s.seq = .poll →
    s.cfg.timeout = some (s.pollCnt + 1) → (s.phase = .waitIdle ∨ s.extClk = s.cfg.idle) →
    ∃ t, exec i s = .next t ∧ RecoverableEffect .timeout (sessAfterError i s) [.inp .iclk s.extClk] s t) ∧
  (∀ (i : Instr) (s : State), s.cfg.wf = true → firstPoll i s → s.dir.iclk = .inp → s.cfg.timeout = some 1 →
    ∃ t, exec i s = .next t ∧ RecoverableEffect .timeout (sessAfterError i s) [.inp .iclk s.extClk] s t)

/-! ### Byte framer -/

/-- R131: with EVEN parity the wire bits of every word hold an even number of ones, with ODD an odd number. -/
def Obligations.ParityMakesTheCountEvenOrOdd : Prop :=
  ∀ (c : Cfg) (v : BitVec 16),
    (c.parity = .even → (wireBits c v).count true % 2 = 0) ∧ (c.parity = .odd → (wireBits c v).count true % 2 = 1)

/-- R132, R134: SBYTE of a W-bit word from T0 ends after 3 micro-steps per wire bit, having sent exactly its wire bits. -/
def Obligations.SbyteSendsTheWord : Prop :=
  ∀ (s : State) (v : BitVec 16), TransferReady s → 1 ≤ s.cfg.width → v.toNat < 2 ^ s.cfg.width →
    ∃ b, (wireBits s.cfg v).getLast? = some b ∧
      microSteps (.sbyte v) (3 * (wireBits s.cfg v).length) s = .next { s with
        out := { s.out with oclk := s.cfg.idle, odat := b },
        events := s.events ++ sendEvents s.cfg (wireBits s.cfg v) ++ [.done 0],
        err := 0, busy := false, seq := .start }

/-- R135, R136: the round trip. An RBYTE issued from T0, and a peer that presents the wire bits of a W-bit word, each after
any number of polls that no timeout bounds: the RBYTE ends with RES = v, ERR = 0, and the session as before. -/
def Obligations.RbyteReceivesWhatThePeerPresents : Prop :=
  ∀ (s : State) (v : BitVec 16) (bits : List (Bit × Nat)),
    s.cfg.wf = true → s.blockEnabled → TransferReady s → s.cur = encode .rbyte → s.extClk = s.cfg.idle →
    v.toNat < 2 ^ s.cfg.width → bits.map Prod.fst = wireBits s.cfg v → patient s.cfg bits →
    s.agenda = bitsMoves s.cfg bits →
    ∃ t, steps s.agenda.length s = .next t ∧ t.busy = false ∧ t.err = 0 ∧ t.res = v.setWidth 32
      ∧ t.sess = .transferring ∧ t.resync = false ∧ t.unmarked ∧ t.agenda = [] ∧ t.buf = s.buf ∧ t.out = s.out
      ∧ t.dir = s.dir

/-- R133, R135, R203: a parity bit that differs from the parity of the received data bits raises FramingError(PARITY) at the
poll that samples it, in RBYTE and in every element of an RBLK; RES is unchanged and SESS is as R211 says. -/
def Obligations.ParityMismatchRaisesFramingError : Prop :=
  ∀ (i : Instr) (s : State) (p : Bit), (i = .rbyte ∨ ∃ cap, i = .rblk cap) → s.dir = enabledDirs → s.seq = .poll →
    s.phase = .waitActive → s.extClk = s.cfg.active → s.bitCnt.toNat = s.cfg.width → parityBit s.cfg s.sr = some p →
    s.extDat ≠ p →
    ∃ t, exec i s = .next t ∧ RecoverableEffect .framingParity (sessAfterError i s) (pollSamples s) s t

/-- R114, R134, R163: the micro-step that returns OCLK to IDLE after the last bit completes SBIT and SBYTE, and SBLK after the
last element, where SESS becomes Idle. -/
def Obligations.SendCommandsCompleteAtTheLastClockReturn : Prop :=
  ∀ s : State, s.dir = enabledDirs → s.seq = .clkIdle [] →
    (∀ b, exec (.sbit b) s = .next { s with
      out := { s.out with oclk := s.cfg.idle }, events := s.events ++ [.out .oclk s.cfg.idle, .done 0],
      err := 0, busy := false, seq := .start }) ∧
    (∀ v, exec (.sbyte v) s = .next { s with
      out := { s.out with oclk := s.cfg.idle }, events := s.events ++ [.out .oclk s.cfg.idle, .done 0],
      err := 0, busy := false, seq := .start }) ∧
    (∀ len, (s.part = .endMarker ∨ (s.part = .data ∧ s.bIdx + 1 = s.bLen ∧ s.cfg.endMarker = none)) →
      ∃ n, exec (.sblk len) s = .next { s with
        out := { s.out with oclk := s.cfg.idle }, events := s.events ++ [.out .oclk s.cfg.idle, .done 0],
        sess := .idle, bIdx := n, err := 0, busy := false, seq := .start })

/-! ### Session -/

/-- R152: ENABLE from Disabled. -/
def Obligations.EnableOpensTheSession : Prop :=
  ∀ s : State, s.sess = .disabled →
    exec .enable s = .next { s with
      out := { s.out with oclk := s.cfg.clkIdle, odat := s.cfg.dataIdle },
      dir := enabledDirs, sess := .idle, resync := false, err := 0, busy := false, seq := .start,
      events := s.events ++ [.out .oclk s.cfg.clkIdle, .out .odat s.cfg.dataIdle, .cfg .iclk .inp, .cfg .idat .inp,
        .cfg .oclk .out, .cfg .odat .out, .done 0] }

/-- R153: DISABLE. From Disabled it changes nothing of the session or the lines; from every Enabled state the lines that are
OUT, and only they, get DISABLE_LEVEL, the directions stay, and the session is Disabled with RESYNC = 0. -/
def Obligations.DisableClosesTheSession : Prop :=
  (∀ s : State, s.sess = .disabled →
    exec .disable s = .next { s with events := s.events ++ [.done 0], err := 0, busy := false, seq := .start }) ∧
  (∀ s : State, s.sess ≠ .disabled → ∃ t, exec .disable s = .next t
    ∧ t.sess = .disabled ∧ t.resync = false ∧ t.err = 0 ∧ t.busy = false ∧ t.seq = .start
    ∧ (∀ ln, t.out.get ln = if s.dir.get ln = .out then s.cfg.disableLevel else s.out.get ln)
    ∧ t.dir = s.dir ∧ t.res = s.res ∧ t.buf = s.buf ∧ t.fault = s.fault ∧ t.mfault = s.mfault ∧ t.refused = s.refused
    ∧ (s.dir = enabledDirs →
        t.events = s.events ++ [.out .oclk s.cfg.disableLevel, .out .odat s.cfg.disableLevel, .done 0]))

/-- R156: the WFS poll that matches the last pattern completes: SESS Transferring, RESYNC 0; on the timeout poll as well. -/
def Obligations.WfsCompletesAtTheLastPattern : Prop :=
  ∀ s : State, s.dir = enabledDirs → s.seq = .hsPoll → s.hsIdx + 1 = s.cfg.hsSeq.length →
    handshakeMatches s.cfg s.hsIdx (inputVector s.extClk s.extDat) = true →
    exec .wfs s = .next { s with
      sess := .transferring, resync := false, hsIdx := s.hsIdx + 1, pollCnt := s.pollCnt + 1,
      events := s.events ++ [.inp .iclk s.extClk, .inp .idat s.extDat, .done 0], err := 0, busy := false, seq := .start }

/-- R156, R211: the WFS poll that reaches TIMEOUT without completing raises TimeoutError, and SESS returns to PRIOR. -/
def Obligations.WfsTimeoutRestoresThePriorState : Prop :=
  ∀ s : State, s.dir = enabledDirs → s.seq = .hsPoll → s.cfg.timeout = some (s.pollCnt + 1) →
    (handshakeMatches s.cfg s.hsIdx (inputVector s.extClk s.extDat) = false ∨ s.hsIdx + 1 ≠ s.cfg.hsSeq.length) →
    ∃ t, exec .wfs s = .next t
      ∧ RecoverableEffect .timeout s.prior [.inp .iclk s.extClk, .inp .idat s.extDat] s t

/-- R157, R254: no early return. While the peer changes neither input line, a WFS does not complete: with TIMEOUT = NONE it is
still polling after any number of block steps, and given the block's turns alone the run hangs (R226); with TIMEOUT = t it is polling before poll t and raises TimeoutError at poll t. -/
def Obligations.WfsNeverReturnsOnConstantInputs : Prop :=
  ∀ (s : State), s.cfg.wf = true → s.blockEnabled → s.agenda = [] → s.cur = encode .wfs → s.seq = .start →
    s.dir = enabledDirs → (s.sess = .idle ∨ s.sess = .transferring) →
    (s.cfg.timeout = none →
      (∀ n, 1 ≤ n → ∃ t, steps n s = .next t ∧ t.busy = true ∧ t.sess = .syncing) ∧ Hangs (fun _ => .block) s) ∧
    (∀ k, s.cfg.timeout = some k →
      (∀ n, 1 ≤ n → n < k → ∃ t, steps n s = .next t ∧ t.busy = true ∧ t.sess = .syncing) ∧
      (∃ t, steps k s = .next t ∧ t.busy = false ∧ t.err = Err.timeout.code ∧ t.resync = true ∧ t.sess = s.sess))

/-- R156, R246: the rendezvous. A peer that shows, one poll each, input vectors that match the patterns of HS_SEQ in order
brings a WFS issued from Idle or Transferring to Transferring with RESYNC = 0, when the bound leaves a poll for each. -/
def Obligations.WfsCompletesWhenThePeerShowsThePatterns : Prop :=
  ∀ (s : State) (ivs : List (BitVec 2)),
    s.cfg.wf = true → s.blockEnabled → s.cur = encode .wfs → s.seq = .start → s.dir = enabledDirs →
    (s.sess = .idle ∨ s.sess = .transferring) →
    ivs.length = s.cfg.hsSeq.length → (∀ k iv, ivs[k]? = some iv → handshakeMatches s.cfg k iv = true) →
    (∀ t, s.cfg.timeout = some t → ivs.length ≤ t) → s.agenda = ivs.flatMap showInput →
    ∃ t, steps s.agenda.length s = .next t ∧ t.sess = .transferring ∧ t.resync = false ∧ t.busy = false ∧ t.err = 0
      ∧ t.unmarked ∧ t.out = s.out ∧ t.dir = s.dir ∧ t.res = s.res ∧ t.buf = s.buf

/-! ### Blocks -/

/-- R162: under WIDTH ≠ 8 SBLK and RBLK are refused in every session state, before the legality check. -/
def Obligations.BlockCommandsNeedByteWords : Prop :=
  ∀ (s : State) (n : BitVec 16), s.seq = .start → s.cfg.width ≠ 8 → s.refused = none →
    exec (.sblk n) s = .next { s with refused := some .blockWidth } ∧
    exec (.rblk n) s = .next { s with refused := some .blockWidth }

/-- R158: the length bytes of every length of a block assemble to that length, in both orders. -/
def Obligations.LengthBytesRoundTrip : Prop :=
  ∀ (c : Cfg) (n : Nat), n < 2 ^ (8 * c.lenBytes.count) →
    assembleLen c ((List.range c.lenBytes.count).map (lenByte c (BitVec.ofNat 17 n))) = n

/-- R160, R163: SBLK of a supported length from T0, with the bytes in the buffer, ends after 3 micro-steps per wire bit, having
sent exactly the elements of the block, with SESS = Idle; the buffer and RES are unchanged. So the records depend on the
length, the bytes and the configuration alone (R166). -/
def Obligations.SblkSendsTheBlock : Prop :=
  ∀ (s : State) (len : BitVec 16) (ds : List Byte),
    s.cfg.wf = true → TransferReady s → s.cfg.width = 8 → supportedLen s.cfg len.toNat → ds.length = len.toNat →
    bufHolds s.buf ds →
    ∃ t, microSteps (.sblk len) (3 * (blockBits s.cfg ds).length) s = .next t
      ∧ t.events = s.events ++ sendEvents s.cfg (blockBits s.cfg ds) ++ [.done 0]
      ∧ t.sess = .idle ∧ t.resync = false ∧ t.err = 0 ∧ t.busy = false ∧ t.seq = .start ∧ t.res = s.res ∧ t.buf = s.buf
      ∧ t.dir = s.dir ∧ t.out.oclk = s.cfg.idle ∧ t.out.iclk = s.out.iclk ∧ t.out.idat = s.out.idat
      ∧ t.fault = s.fault ∧ t.mfault = s.mfault ∧ t.refused = s.refused

/-- R161, R163, R164, R204: an SBLK length that is not supported raises FramingError(LENGTH) in the first micro-step, before
any element, and so does an RBLK in FIXED mode with BLOCK_LEN above its capacity; SESS becomes Idle. -/
def Obligations.UnsupportedLengthRaisesFramingError : Prop :=
  ∀ (s : State) (n : BitVec 16), s.cfg.wf = true → s.seq = .start → s.t0 → s.cfg.width = 8 → n.toNat ≤ s.cfg.bufSize →
    (sendLenOk s.cfg n.toNat = false →
      ∃ t, exec (.sblk n) s = .next t ∧ RecoverableEffect .framingLength .idle [] s t) ∧
    (∀ m, s.cfg.blockMode = .fixed → s.cfg.blockLen = some m → n.toNat < m →
      ∃ t, exec (.rblk n) s = .next t ∧ RecoverableEffect .framingLength .idle [] s t)

/-- R53, R163: SBLK reading a data byte that holds no value sets mfault(UNINIT_READ) in the micro-step that reads it: at a later
element, and in the first micro-step of a FIXED block without a start marker, whose first element is data byte 0. -/
def Obligations.SblkOfAnUnwrittenByteIsAModelFault : Prop :=
  (∀ (s : State) (len : BitVec 16), s.seq = .elem → s.part = .data → s.bIdx.toNat < s.cfg.bufSize →
    s.buf.read s.bIdx.toNat = none → s.mfault = none →
    exec (.sblk len) s = .next { s with mfault := some .uninitRead }) ∧
  (∀ (s : State) (len : BitVec 16), s.cfg.wf = true → s.seq = .start → s.t0 → s.cfg.width = 8 → len.toNat ≤ s.cfg.bufSize →
    s.cfg.blockMode = .fixed → s.cfg.blockLen = some len.toNat → s.cfg.startMarker = none →
    s.buf.read 0 = none → s.mfault = none →
    exec (.sblk len) s = .next { s with
      bLen := len.setWidth 17, bIdx := 0, part := .data, mfault := some .uninitRead })

/-- R165, R167: RBLK of a block the peer presents. For any data bytes within the capacity, with the block's wire bits
presented each after any number of polls that no timeout bounds, the RBLK ends with RES the length, the bytes in the buffer,
every other byte as before, SESS = Idle and ERR = 0. -/
def Obligations.RblkReceivesTheBlockThePeerPresents : Prop :=
  ∀ (s : State) (cap : BitVec 16) (ds : List Byte) (bits : List (Bit × Nat)),
    s.cfg.wf = true → s.blockEnabled → TransferReady s → s.cfg.width = 8 → s.cur = encode (.rblk cap) →
    s.extClk = s.cfg.idle → cap.toNat ≤ s.cfg.bufSize → ds.length ≤ cap.toNat → sendLenOk s.cfg ds.length = true →
    bits.map Prod.fst = blockBits s.cfg ds → patient s.cfg bits → s.agenda = bitsMoves s.cfg bits →
    ∃ t, steps s.agenda.length s = .next t ∧ t.busy = false ∧ t.err = 0 ∧ t.res = BitVec.ofNat 32 ds.length
      ∧ t.sess = .idle ∧ t.resync = false ∧ t.unmarked ∧ bufHolds t.buf ds
      ∧ (∀ a, ds.length ≤ a → t.buf.read a = s.buf.read a) ∧ t.out = s.out ∧ t.dir = s.dir

/-- R135, R165: the poll that ends the word completes RBYTE with the word in RES; and the poll that ends the last element
completes RBLK with the length in RES and SESS = Idle: after the last data byte, which is stored at BIDX, when there is no end
marker, or at an end marker that agrees. -/
def Obligations.ReceiveCommandsCompleteAtTheLastPoll : Prop :=
  ∀ (s : State) (cap v : BitVec 16), s.cfg.wf = true → s.dir = enabledDirs → completesWord s v →
    (∃ t, exec .rbyte s = .next t ∧ t.res = v.setWidth 32 ∧ t.err = 0 ∧ t.busy = false ∧ t.seq = .start
      ∧ t.sess = s.sess ∧ t.resync = s.resync ∧ t.fault = s.fault ∧ t.mfault = s.mfault ∧ t.refused = s.refused
      ∧ t.events = s.events ++ pollSamples s ++ [.done 0] ∧ t.dir = s.dir ∧ t.out = s.out ∧ t.buf = s.buf) ∧
    (((s.part = .data ∧ s.bIdx + 1 = s.bLen ∧ s.bIdx.toNat < s.cfg.bufSize ∧ s.cfg.endMarker = none)
        ∨ (s.part = .endMarker ∧ s.cfg.endMarker = some (v.setWidth 8))) →
      ∃ t, exec (.rblk cap) s = .next t ∧ t.res = s.bLen.setWidth 32 ∧ t.err = 0 ∧ t.busy = false ∧ t.seq = .start
        ∧ t.sess = .idle ∧ t.resync = s.resync ∧ t.fault = s.fault ∧ t.mfault = s.mfault ∧ t.refused = s.refused
        ∧ t.events = s.events ++ pollSamples s ++ [.done 0] ∧ t.dir = s.dir ∧ t.out = s.out
        ∧ t.buf = if s.part = .data then s.buf.write s.bIdx.toNat (v.setWidth 8) else s.buf)

/-- R164, R165, R204: a received marker that differs from the configured one raises FramingError(MARKER), and a received length
above the capacity raises FramingError(LENGTH), at the poll that completes the element; SESS becomes Idle, the buffer and RES
are unchanged. -/
def Obligations.RblkRejectsWrongElements : Prop :=
  ∀ (s : State) (cap v : BitVec 16), s.cfg.wf = true → s.dir = enabledDirs → completesWord s v →
    ((s.part = .startMarker ∧ s.cfg.startMarker ≠ some (v.setWidth 8))
        ∨ (s.part = .endMarker ∧ s.cfg.endMarker ≠ some (v.setWidth 8)) →
      ∃ t, exec (.rblk cap) s = .next t ∧ RecoverableEffect .framingMarker .idle (pollSamples s) s t) ∧
    (∀ j, s.part = .lenByte j → j + 1 = s.cfg.lenBytes.count →
      cap.toNat < assembleLen s.cfg (s.lenAcc ++ [v.setWidth 8]) →
      ∃ t, exec (.rblk cap) s = .next t ∧ RecoverableEffect .framingLength .idle (pollSamples s) s t)

/-! ### Buffer and file-level commands -/

/-- R180: BUFW in every session state writes its byte and nothing else: the address reads as the byte. -/
def Obligations.BufwWritesItsByte : Prop :=
  ∀ (s : State) (a : BitVec 16) (d : Byte), a.toNat < s.cfg.bufSize →
    exec (.bufw a d) s = .next { s with
      buf := s.buf.write a.toNat d, events := s.events ++ [.done 0], err := 0, busy := false, seq := .start }
    ∧ (s.buf.write a.toNat d).read a.toNat = some d
    ∧ ∀ b, b ≠ a.toNat → (s.buf.write a.toNat d).read b = s.buf.read b

/-- R181, R53: BUFR in every session state gives the byte in RES; of a byte that holds no value it sets mfault(UNINIT_READ). -/
def Obligations.BufrReadsItsByte : Prop :=
  ∀ (s : State) (a : BitVec 16), a.toNat < s.cfg.bufSize →
    (∀ v, s.buf.read a.toNat = some v → exec (.bufr a) s = .next { s with
      res := v.setWidth 32, events := s.events ++ [.done 0], err := 0, busy := false, seq := .start }) ∧
    (s.buf.read a.toNat = none → s.mfault = none → exec (.bufr a) s = .next { s with mfault := some .uninitRead })

/-- R190 to R193: every file-level command sets refused(FILE_LEVEL_OP) in every session state and changes nothing else; the
block's next turn is then refused by that name. -/
def Obligations.FileLevelCommandsAreRefused : Prop :=
  ∀ (i : Instr) (s : State), fileLevel i = true → s.refused = none →
    exec i s = .next { s with refused := some .fileLevelOp } ∧
    (s.cfg.wf = true → s.agenda = [] → s.mfault = none →
      step { s with refused := some .fileLevelOp } = .refused .fileLevelOp)

/-! ### The other agents -/

/-- R223: a peer step sets one of the peer's two lines and records a change; a step that leaves the level records nothing. -/
def Obligations.PeerStepSetsItsLine : Prop :=
  ∀ (s : State) (v : Bit) (ms : List Move), s.cfg.wf = true →
    (s.agenda = .peer .iclk v :: ms → step s = .next { s with
      agenda := ms, extClk := v, events := s.events ++ (if s.extClk = v then [] else [.ext .iclk v]) }) ∧
    (s.agenda = .peer .idat v :: ms → step s = .next { s with
      agenda := ms, extDat := v, events := s.events ++ (if s.extDat = v then [] else [.ext .idat v]) })

/-- R55, R57: an aligned word read hands back 0, STATUS, RES or LINES, and has no effect on the block. R30: the LINES word field
by field: LVL[i] is the latch of a line that is OUT and else the peer's level, which OCLK and ODAT have not; then DIR0 to DIR3,
OUTL and zeros. R21: the codes of the directions.
Where the model keeps the word handed back is its own choice (log entry 1). -/
def Obligations.HostReadsTheRegisters : Prop :=
  (Dir.code .uncfg = 0 ∧ Dir.code .inp = 1 ∧ Dir.code .out = 2) ∧
  ∀ (s : State) (ms : List Move), s.cfg.wf = true →
    (s.agenda = .host ⟨0x0, 4, none⟩ :: ms → step s = .next { s with agenda := ms, hostGot := some 0 }) ∧
    (s.agenda = .host ⟨0x4, 4, none⟩ :: ms → step s = .next { s with agenda := ms, hostGot := some s.status }) ∧
    (s.agenda = .host ⟨0x8, 4, none⟩ :: ms → step s = .next { s with agenda := ms, hostGot := some s.res }) ∧
    (s.agenda = .host ⟨0xC, 4, none⟩ :: ms → ∃ v n, step s = .next { s with agenda := ms, hostGot := some v, freeCtr := n }
      ∧ v.getLsbD 0 = (if s.dir.iclk = .out then s.out.iclk else s.extClk)
      ∧ v.getLsbD 1 = (if s.dir.idat = .out then s.out.idat else s.extDat)
      ∧ (s.dir.oclk = .out → v.getLsbD 2 = s.out.oclk) ∧ (s.dir.odat = .out → v.getLsbD 3 = s.out.odat)
      ∧ v.extractLsb' 4 2 = s.dir.iclk.code ∧ v.extractLsb' 6 2 = s.dir.idat.code
      ∧ v.extractLsb' 8 2 = s.dir.oclk.code ∧ v.extractLsb' 10 2 = s.dir.odat.code
      ∧ v.getLsbD 12 = s.out.iclk ∧ v.getLsbD 13 = s.out.idat ∧ v.getLsbD 14 = s.out.oclk ∧ v.getLsbD 15 = s.out.odat
      ∧ v.extractLsb' 16 16 = 0
      ∧ (s.dir.oclk = .out → s.dir.odat = .out → n = s.freeCtr))

/-- R23: the fields of the STATUS word, and the codes of SESS. -/
def Obligations.StatusWordHasItsFields : Prop :=
  (Sess.code .disabled = 0 ∧ Sess.code .idle = 1 ∧ Sess.code .syncing = 2 ∧ Sess.code .transferring = 3) ∧
  ∀ s : State, s.status.extractLsb' 0 2 = s.sess.code ∧ s.status.getLsbD 2 = s.resync ∧ s.status.getLsbD 3 = s.busy
    ∧ s.status.extractLsb' 4 4 = s.err ∧ s.status.getLsbD 8 = s.fault ∧ s.status.extractLsb' 9 23 = 0

/-- R31, R56, R57, R222: a host write. At CMD it issues the word while BUSY = 0, FAULT = 0 and no mark is set, and has no effect
while FAULT = 1; at the other registers it has no effect; an access that is not an aligned whole word sets
refused(HOST_ACCESS). The host never writes CMD while BUSY = 1 or while a mark is set with FAULT = 0; that a schedule which has
it do so stops by name is the model's choice (log entries 10 and 9). -/
def Obligations.HostWritesActOnlyAtCmd : Prop :=
  ∀ (s : State) (ms : List Move) (w : Word), s.cfg.wf = true →
    (s.agenda = .host ⟨0, 4, some w⟩ :: ms → s.busy = false → s.unmarked → step s = .next { s with
      agenda := ms, hostGot := none, cur := w, busy := true, err := 0, seq := .start,
      events := s.events ++ [.issue w] }) ∧
    (s.agenda = .host ⟨0, 4, some w⟩ :: ms → s.fault = true → step s = .next { s with agenda := ms, hostGot := none }) ∧
    (s.agenda = .host ⟨0, 4, some w⟩ :: ms → s.fault = false →
      (s.busy = true → step s = .refused .cmdWriteWhileBusy) ∧
      (s.busy = false → ¬ s.unmarked → step s = .refused .cmdWriteWhileMarked)) ∧
    (∀ o, (o = 0x4 ∨ o = 0x8 ∨ o = 0xC) → s.agenda = .host ⟨o, 4, some w⟩ :: ms →
      step s = .next { s with agenda := ms, hostGot := none }) ∧
    (∀ a : HostAccess, (a.width ≠ 4 ∨ (a.offset ≠ 0x0 ∧ a.offset ≠ 0x4 ∧ a.offset ≠ 0x8 ∧ a.offset ≠ 0xC)) →
      s.agenda = .host a :: ms → s.refused = none →
      step s = .next { s with agenda := ms, hostGot := none, refused := some .hostAccess })
end

