-- ==== Sys2Proof/Laws/State.lean ====
section
/-! SUPPORT. One lemma per field of State and per update of the shared operations, true by definition, so that no later proof
unfolds a record update; the line file's laws; and how a raise and a sampled line leave each field. -/

namespace Sys2Proof.Machine

/-! ### The line file -/

@[simp] theorem LineFile.get_set_self {α : Type} (f : LineFile α) (i : LineId) (v : α) : (f.set i v).get i = v := by
  cases i <;> rfl

theorem LineFile.get_set_other {α : Type} (f : LineFile α) {i j : LineId} (v : α) (h : j ≠ i) :
    (f.set i v).get j = f.get j := by
  cases i <;> cases j <;> first | rfl | exact absurd rfl h

@[simp] theorem LineFile.get_iclk {α : Type} (f : LineFile α) : f.get .iclk = f.iclk := rfl
@[simp] theorem LineFile.get_idat {α : Type} (f : LineFile α) : f.get .idat = f.idat := rfl
@[simp] theorem LineFile.get_oclk {α : Type} (f : LineFile α) : f.get .oclk = f.oclk := rfl
@[simp] theorem LineFile.get_odat {α : Type} (f : LineFile α) : f.get .odat = f.odat := rfl
@[simp] theorem LineFile.set_iclk {α : Type} (f : LineFile α) (v : α) : f.set .iclk v = { f with iclk := v } := rfl
@[simp] theorem LineFile.set_idat {α : Type} (f : LineFile α) (v : α) : f.set .idat v = { f with idat := v } := rfl
@[simp] theorem LineFile.set_oclk {α : Type} (f : LineFile α) (v : α) : f.set .oclk v = { f with oclk := v } := rfl
@[simp] theorem LineFile.set_odat {α : Type} (f : LineFile α) (v : α) : f.set .odat v = { f with odat := v } := rfl

/-! ### record -/

@[simp] theorem record_cfg (e : Event) (s : State) : (record e s).cfg = s.cfg := rfl
@[simp] theorem record_dir (e : Event) (s : State) : (record e s).dir = s.dir := rfl
@[simp] theorem record_out (e : Event) (s : State) : (record e s).out = s.out := rfl
@[simp] theorem record_extClk (e : Event) (s : State) : (record e s).extClk = s.extClk := rfl
@[simp] theorem record_extDat (e : Event) (s : State) : (record e s).extDat = s.extDat := rfl
@[simp] theorem record_sess (e : Event) (s : State) : (record e s).sess = s.sess := rfl
@[simp] theorem record_resync (e : Event) (s : State) : (record e s).resync = s.resync := rfl
@[simp] theorem record_busy (e : Event) (s : State) : (record e s).busy = s.busy := rfl
@[simp] theorem record_err (e : Event) (s : State) : (record e s).err = s.err := rfl
@[simp] theorem record_fault (e : Event) (s : State) : (record e s).fault = s.fault := rfl
@[simp] theorem record_res (e : Event) (s : State) : (record e s).res = s.res := rfl
@[simp] theorem record_cur (e : Event) (s : State) : (record e s).cur = s.cur := rfl
@[simp] theorem record_seq (e : Event) (s : State) : (record e s).seq = s.seq := rfl
@[simp] theorem record_sr (e : Event) (s : State) : (record e s).sr = s.sr := rfl
@[simp] theorem record_bitCnt (e : Event) (s : State) : (record e s).bitCnt = s.bitCnt := rfl
@[simp] theorem record_pollCnt (e : Event) (s : State) : (record e s).pollCnt = s.pollCnt := rfl
@[simp] theorem record_phase (e : Event) (s : State) : (record e s).phase = s.phase := rfl
@[simp] theorem record_hsIdx (e : Event) (s : State) : (record e s).hsIdx = s.hsIdx := rfl
@[simp] theorem record_prior (e : Event) (s : State) : (record e s).prior = s.prior := rfl
@[simp] theorem record_bIdx (e : Event) (s : State) : (record e s).bIdx = s.bIdx := rfl
@[simp] theorem record_bLen (e : Event) (s : State) : (record e s).bLen = s.bLen := rfl
@[simp] theorem record_part (e : Event) (s : State) : (record e s).part = s.part := rfl
@[simp] theorem record_lenAcc (e : Event) (s : State) : (record e s).lenAcc = s.lenAcc := rfl
@[simp] theorem record_buf (e : Event) (s : State) : (record e s).buf = s.buf := rfl
@[simp] theorem record_events (e : Event) (s : State) : (record e s).events = s.events ++ [e] := rfl
@[simp] theorem record_mfault (e : Event) (s : State) : (record e s).mfault = s.mfault := rfl
@[simp] theorem record_refused (e : Event) (s : State) : (record e s).refused = s.refused := rfl
@[simp] theorem record_agenda (e : Event) (s : State) : (record e s).agenda = s.agenda := rfl
@[simp] theorem record_program (e : Event) (s : State) : (record e s).program = s.program := rfl
@[simp] theorem record_hostGot (e : Event) (s : State) : (record e s).hostGot = s.hostGot := rfl
@[simp] theorem record_freeCtr (e : Event) (s : State) : (record e s).freeCtr = s.freeCtr := rfl

/-! ### setMfault -/

@[simp] theorem setMfault_cfg (r : MFault) (s : State) : (setMfault r s).cfg = s.cfg := rfl
@[simp] theorem setMfault_dir (r : MFault) (s : State) : (setMfault r s).dir = s.dir := rfl
@[simp] theorem setMfault_out (r : MFault) (s : State) : (setMfault r s).out = s.out := rfl
@[simp] theorem setMfault_extClk (r : MFault) (s : State) : (setMfault r s).extClk = s.extClk := rfl
@[simp] theorem setMfault_extDat (r : MFault) (s : State) : (setMfault r s).extDat = s.extDat := rfl
@[simp] theorem setMfault_sess (r : MFault) (s : State) : (setMfault r s).sess = s.sess := rfl
@[simp] theorem setMfault_resync (r : MFault) (s : State) : (setMfault r s).resync = s.resync := rfl
@[simp] theorem setMfault_busy (r : MFault) (s : State) : (setMfault r s).busy = s.busy := rfl
@[simp] theorem setMfault_err (r : MFault) (s : State) : (setMfault r s).err = s.err := rfl
@[simp] theorem setMfault_fault (r : MFault) (s : State) : (setMfault r s).fault = s.fault := rfl
@[simp] theorem setMfault_res (r : MFault) (s : State) : (setMfault r s).res = s.res := rfl
@[simp] theorem setMfault_cur (r : MFault) (s : State) : (setMfault r s).cur = s.cur := rfl
@[simp] theorem setMfault_seq (r : MFault) (s : State) : (setMfault r s).seq = s.seq := rfl
@[simp] theorem setMfault_sr (r : MFault) (s : State) : (setMfault r s).sr = s.sr := rfl
@[simp] theorem setMfault_bitCnt (r : MFault) (s : State) : (setMfault r s).bitCnt = s.bitCnt := rfl
@[simp] theorem setMfault_pollCnt (r : MFault) (s : State) : (setMfault r s).pollCnt = s.pollCnt := rfl
@[simp] theorem setMfault_phase (r : MFault) (s : State) : (setMfault r s).phase = s.phase := rfl
@[simp] theorem setMfault_hsIdx (r : MFault) (s : State) : (setMfault r s).hsIdx = s.hsIdx := rfl
@[simp] theorem setMfault_prior (r : MFault) (s : State) : (setMfault r s).prior = s.prior := rfl
@[simp] theorem setMfault_bIdx (r : MFault) (s : State) : (setMfault r s).bIdx = s.bIdx := rfl
@[simp] theorem setMfault_bLen (r : MFault) (s : State) : (setMfault r s).bLen = s.bLen := rfl
@[simp] theorem setMfault_part (r : MFault) (s : State) : (setMfault r s).part = s.part := rfl
@[simp] theorem setMfault_lenAcc (r : MFault) (s : State) : (setMfault r s).lenAcc = s.lenAcc := rfl
@[simp] theorem setMfault_buf (r : MFault) (s : State) : (setMfault r s).buf = s.buf := rfl
@[simp] theorem setMfault_events (r : MFault) (s : State) : (setMfault r s).events = s.events := rfl
@[simp] theorem setMfault_mfault (r : MFault) (s : State) : (setMfault r s).mfault = s.mfault.or (some r) := rfl
@[simp] theorem setMfault_refused (r : MFault) (s : State) : (setMfault r s).refused = s.refused := rfl
@[simp] theorem setMfault_agenda (r : MFault) (s : State) : (setMfault r s).agenda = s.agenda := rfl
@[simp] theorem setMfault_program (r : MFault) (s : State) : (setMfault r s).program = s.program := rfl
@[simp] theorem setMfault_hostGot (r : MFault) (s : State) : (setMfault r s).hostGot = s.hostGot := rfl
@[simp] theorem setMfault_freeCtr (r : MFault) (s : State) : (setMfault r s).freeCtr = s.freeCtr := rfl

/-! ### setRefused -/

@[simp] theorem setRefused_cfg (r : RefuseReason) (s : State) : (setRefused r s).cfg = s.cfg := rfl
@[simp] theorem setRefused_dir (r : RefuseReason) (s : State) : (setRefused r s).dir = s.dir := rfl
@[simp] theorem setRefused_out (r : RefuseReason) (s : State) : (setRefused r s).out = s.out := rfl
@[simp] theorem setRefused_extClk (r : RefuseReason) (s : State) : (setRefused r s).extClk = s.extClk := rfl
@[simp] theorem setRefused_extDat (r : RefuseReason) (s : State) : (setRefused r s).extDat = s.extDat := rfl
@[simp] theorem setRefused_sess (r : RefuseReason) (s : State) : (setRefused r s).sess = s.sess := rfl
@[simp] theorem setRefused_resync (r : RefuseReason) (s : State) : (setRefused r s).resync = s.resync := rfl
@[simp] theorem setRefused_busy (r : RefuseReason) (s : State) : (setRefused r s).busy = s.busy := rfl
@[simp] theorem setRefused_err (r : RefuseReason) (s : State) : (setRefused r s).err = s.err := rfl
@[simp] theorem setRefused_fault (r : RefuseReason) (s : State) : (setRefused r s).fault = s.fault := rfl
@[simp] theorem setRefused_res (r : RefuseReason) (s : State) : (setRefused r s).res = s.res := rfl
@[simp] theorem setRefused_cur (r : RefuseReason) (s : State) : (setRefused r s).cur = s.cur := rfl
@[simp] theorem setRefused_seq (r : RefuseReason) (s : State) : (setRefused r s).seq = s.seq := rfl
@[simp] theorem setRefused_sr (r : RefuseReason) (s : State) : (setRefused r s).sr = s.sr := rfl
@[simp] theorem setRefused_bitCnt (r : RefuseReason) (s : State) : (setRefused r s).bitCnt = s.bitCnt := rfl
@[simp] theorem setRefused_pollCnt (r : RefuseReason) (s : State) : (setRefused r s).pollCnt = s.pollCnt := rfl
@[simp] theorem setRefused_phase (r : RefuseReason) (s : State) : (setRefused r s).phase = s.phase := rfl
@[simp] theorem setRefused_hsIdx (r : RefuseReason) (s : State) : (setRefused r s).hsIdx = s.hsIdx := rfl
@[simp] theorem setRefused_prior (r : RefuseReason) (s : State) : (setRefused r s).prior = s.prior := rfl
@[simp] theorem setRefused_bIdx (r : RefuseReason) (s : State) : (setRefused r s).bIdx = s.bIdx := rfl
@[simp] theorem setRefused_bLen (r : RefuseReason) (s : State) : (setRefused r s).bLen = s.bLen := rfl
@[simp] theorem setRefused_part (r : RefuseReason) (s : State) : (setRefused r s).part = s.part := rfl
@[simp] theorem setRefused_lenAcc (r : RefuseReason) (s : State) : (setRefused r s).lenAcc = s.lenAcc := rfl
@[simp] theorem setRefused_buf (r : RefuseReason) (s : State) : (setRefused r s).buf = s.buf := rfl
@[simp] theorem setRefused_events (r : RefuseReason) (s : State) : (setRefused r s).events = s.events := rfl
@[simp] theorem setRefused_mfault (r : RefuseReason) (s : State) : (setRefused r s).mfault = s.mfault := rfl
@[simp] theorem setRefused_refused (r : RefuseReason) (s : State) : (setRefused r s).refused = s.refused.or (some r) := rfl
@[simp] theorem setRefused_agenda (r : RefuseReason) (s : State) : (setRefused r s).agenda = s.agenda := rfl
@[simp] theorem setRefused_program (r : RefuseReason) (s : State) : (setRefused r s).program = s.program := rfl
@[simp] theorem setRefused_hostGot (r : RefuseReason) (s : State) : (setRefused r s).hostGot = s.hostGot := rfl
@[simp] theorem setRefused_freeCtr (r : RefuseReason) (s : State) : (setRefused r s).freeCtr = s.freeCtr := rfl

/-! ### complete -/

@[simp] theorem complete_cfg (s : State) : (complete s).cfg = s.cfg := rfl
@[simp] theorem complete_dir (s : State) : (complete s).dir = s.dir := rfl
@[simp] theorem complete_out (s : State) : (complete s).out = s.out := rfl
@[simp] theorem complete_extClk (s : State) : (complete s).extClk = s.extClk := rfl
@[simp] theorem complete_extDat (s : State) : (complete s).extDat = s.extDat := rfl
@[simp] theorem complete_sess (s : State) : (complete s).sess = s.sess := rfl
@[simp] theorem complete_resync (s : State) : (complete s).resync = s.resync := rfl
@[simp] theorem complete_busy (s : State) : (complete s).busy = false := rfl
@[simp] theorem complete_err (s : State) : (complete s).err = 0 := rfl
@[simp] theorem complete_fault (s : State) : (complete s).fault = s.fault := rfl
@[simp] theorem complete_res (s : State) : (complete s).res = s.res := rfl
@[simp] theorem complete_cur (s : State) : (complete s).cur = s.cur := rfl
@[simp] theorem complete_seq (s : State) : (complete s).seq = .start := rfl
@[simp] theorem complete_sr (s : State) : (complete s).sr = s.sr := rfl
@[simp] theorem complete_bitCnt (s : State) : (complete s).bitCnt = s.bitCnt := rfl
@[simp] theorem complete_pollCnt (s : State) : (complete s).pollCnt = s.pollCnt := rfl
@[simp] theorem complete_phase (s : State) : (complete s).phase = s.phase := rfl
@[simp] theorem complete_hsIdx (s : State) : (complete s).hsIdx = s.hsIdx := rfl
@[simp] theorem complete_prior (s : State) : (complete s).prior = s.prior := rfl
@[simp] theorem complete_bIdx (s : State) : (complete s).bIdx = s.bIdx := rfl
@[simp] theorem complete_bLen (s : State) : (complete s).bLen = s.bLen := rfl
@[simp] theorem complete_part (s : State) : (complete s).part = s.part := rfl
@[simp] theorem complete_lenAcc (s : State) : (complete s).lenAcc = s.lenAcc := rfl
@[simp] theorem complete_buf (s : State) : (complete s).buf = s.buf := rfl
@[simp] theorem complete_events (s : State) : (complete s).events = s.events ++ [.done 0] := rfl
@[simp] theorem complete_mfault (s : State) : (complete s).mfault = s.mfault := rfl
@[simp] theorem complete_refused (s : State) : (complete s).refused = s.refused := rfl
@[simp] theorem complete_agenda (s : State) : (complete s).agenda = s.agenda := rfl
@[simp] theorem complete_program (s : State) : (complete s).program = s.program := rfl
@[simp] theorem complete_hostGot (s : State) : (complete s).hostGot = s.hostGot := rfl
@[simp] theorem complete_freeCtr (s : State) : (complete s).freeCtr = s.freeCtr := rfl

/-! ### errorExit -/

@[simp] theorem errorExit_cfg (e : Err) (s : State) : (errorExit e s).cfg = s.cfg := rfl
@[simp] theorem errorExit_dir (e : Err) (s : State) : (errorExit e s).dir = s.dir := rfl
@[simp] theorem errorExit_out (e : Err) (s : State) : (errorExit e s).out = s.out := rfl
@[simp] theorem errorExit_extClk (e : Err) (s : State) : (errorExit e s).extClk = s.extClk := rfl
@[simp] theorem errorExit_extDat (e : Err) (s : State) : (errorExit e s).extDat = s.extDat := rfl
@[simp] theorem errorExit_sess (e : Err) (s : State) : (errorExit e s).sess = s.sess := rfl
@[simp] theorem errorExit_resync (e : Err) (s : State) : (errorExit e s).resync = s.resync := rfl
@[simp] theorem errorExit_busy (e : Err) (s : State) : (errorExit e s).busy = false := rfl
@[simp] theorem errorExit_err (e : Err) (s : State) : (errorExit e s).err = e.code := rfl
@[simp] theorem errorExit_fault (e : Err) (s : State) : (errorExit e s).fault = s.fault := rfl
@[simp] theorem errorExit_res (e : Err) (s : State) : (errorExit e s).res = s.res := rfl
@[simp] theorem errorExit_cur (e : Err) (s : State) : (errorExit e s).cur = s.cur := rfl
@[simp] theorem errorExit_seq (e : Err) (s : State) : (errorExit e s).seq = .start := rfl
@[simp] theorem errorExit_sr (e : Err) (s : State) : (errorExit e s).sr = Config.freeShift s.freeCtr &&& widthMask s.cfg := rfl
@[simp] theorem errorExit_bitCnt (e : Err) (s : State) : (errorExit e s).bitCnt = BitVec.ofNat 5 (Config.freeCount s.freeCtr % (s.cfg.width + 1)) := rfl
@[simp] theorem errorExit_pollCnt (e : Err) (s : State) : (errorExit e s).pollCnt = s.pollCnt := rfl
@[simp] theorem errorExit_phase (e : Err) (s : State) : (errorExit e s).phase = s.phase := rfl
@[simp] theorem errorExit_hsIdx (e : Err) (s : State) : (errorExit e s).hsIdx = s.hsIdx := rfl
@[simp] theorem errorExit_prior (e : Err) (s : State) : (errorExit e s).prior = s.prior := rfl
@[simp] theorem errorExit_bIdx (e : Err) (s : State) : (errorExit e s).bIdx = s.bIdx := rfl
@[simp] theorem errorExit_bLen (e : Err) (s : State) : (errorExit e s).bLen = s.bLen := rfl
@[simp] theorem errorExit_part (e : Err) (s : State) : (errorExit e s).part = s.part := rfl
@[simp] theorem errorExit_lenAcc (e : Err) (s : State) : (errorExit e s).lenAcc = s.lenAcc := rfl
@[simp] theorem errorExit_buf (e : Err) (s : State) : (errorExit e s).buf = s.buf := rfl
@[simp] theorem errorExit_events (e : Err) (s : State) : (errorExit e s).events = s.events ++ [.done e.code] := rfl
@[simp] theorem errorExit_mfault (e : Err) (s : State) : (errorExit e s).mfault = s.mfault := rfl
@[simp] theorem errorExit_refused (e : Err) (s : State) : (errorExit e s).refused = s.refused := rfl
@[simp] theorem errorExit_agenda (e : Err) (s : State) : (errorExit e s).agenda = s.agenda := rfl
@[simp] theorem errorExit_program (e : Err) (s : State) : (errorExit e s).program = s.program := rfl
@[simp] theorem errorExit_hostGot (e : Err) (s : State) : (errorExit e s).hostGot = s.hostGot := rfl
@[simp] theorem errorExit_freeCtr (e : Err) (s : State) : (errorExit e s).freeCtr = s.freeCtr + 1 := rfl

/-! ### recoverableExit -/

@[simp] theorem recoverableExit_cfg (sess' : Sess) (e : Err) (s : State) : (recoverableExit sess' e s).cfg = s.cfg := rfl
@[simp] theorem recoverableExit_dir (sess' : Sess) (e : Err) (s : State) : (recoverableExit sess' e s).dir = s.dir := rfl
@[simp] theorem recoverableExit_out (sess' : Sess) (e : Err) (s : State) : (recoverableExit sess' e s).out = s.out := rfl
@[simp] theorem recoverableExit_extClk (sess' : Sess) (e : Err) (s : State) : (recoverableExit sess' e s).extClk = s.extClk := rfl
@[simp] theorem recoverableExit_extDat (sess' : Sess) (e : Err) (s : State) : (recoverableExit sess' e s).extDat = s.extDat := rfl
@[simp] theorem recoverableExit_sess (sess' : Sess) (e : Err) (s : State) : (recoverableExit sess' e s).sess = sess' := rfl
@[simp] theorem recoverableExit_resync (sess' : Sess) (e : Err) (s : State) : (recoverableExit sess' e s).resync = true := rfl
@[simp] theorem recoverableExit_busy (sess' : Sess) (e : Err) (s : State) : (recoverableExit sess' e s).busy = false := rfl
@[simp] theorem recoverableExit_err (sess' : Sess) (e : Err) (s : State) : (recoverableExit sess' e s).err = e.code := rfl
@[simp] theorem recoverableExit_fault (sess' : Sess) (e : Err) (s : State) : (recoverableExit sess' e s).fault = s.fault := rfl
@[simp] theorem recoverableExit_res (sess' : Sess) (e : Err) (s : State) : (recoverableExit sess' e s).res = s.res := rfl
@[simp] theorem recoverableExit_cur (sess' : Sess) (e : Err) (s : State) : (recoverableExit sess' e s).cur = s.cur := rfl
@[simp] theorem recoverableExit_seq (sess' : Sess) (e : Err) (s : State) : (recoverableExit sess' e s).seq = .start := rfl
@[simp] theorem recoverableExit_sr (sess' : Sess) (e : Err) (s : State) : (recoverableExit sess' e s).sr = Config.freeShift s.freeCtr &&& widthMask s.cfg := rfl
@[simp] theorem recoverableExit_bitCnt (sess' : Sess) (e : Err) (s : State) : (recoverableExit sess' e s).bitCnt = BitVec.ofNat 5 (Config.freeCount s.freeCtr % (s.cfg.width + 1)) := rfl
@[simp] theorem recoverableExit_hsIdx (sess' : Sess) (e : Err) (s : State) : (recoverableExit sess' e s).hsIdx = s.hsIdx := rfl
@[simp] theorem recoverableExit_prior (sess' : Sess) (e : Err) (s : State) : (recoverableExit sess' e s).prior = s.prior := rfl
@[simp] theorem recoverableExit_bIdx (sess' : Sess) (e : Err) (s : State) : (recoverableExit sess' e s).bIdx = s.bIdx := rfl
@[simp] theorem recoverableExit_bLen (sess' : Sess) (e : Err) (s : State) : (recoverableExit sess' e s).bLen = s.bLen := rfl
@[simp] theorem recoverableExit_part (sess' : Sess) (e : Err) (s : State) : (recoverableExit sess' e s).part = s.part := rfl
@[simp] theorem recoverableExit_lenAcc (sess' : Sess) (e : Err) (s : State) : (recoverableExit sess' e s).lenAcc = s.lenAcc := rfl
@[simp] theorem recoverableExit_buf (sess' : Sess) (e : Err) (s : State) : (recoverableExit sess' e s).buf = s.buf := rfl
@[simp] theorem recoverableExit_events (sess' : Sess) (e : Err) (s : State) : (recoverableExit sess' e s).events = s.events ++ [.done e.code] := rfl
@[simp] theorem recoverableExit_mfault (sess' : Sess) (e : Err) (s : State) : (recoverableExit sess' e s).mfault = s.mfault := rfl
@[simp] theorem recoverableExit_refused (sess' : Sess) (e : Err) (s : State) : (recoverableExit sess' e s).refused = s.refused := rfl
@[simp] theorem recoverableExit_agenda (sess' : Sess) (e : Err) (s : State) : (recoverableExit sess' e s).agenda = s.agenda := rfl
@[simp] theorem recoverableExit_program (sess' : Sess) (e : Err) (s : State) : (recoverableExit sess' e s).program = s.program := rfl
@[simp] theorem recoverableExit_hostGot (sess' : Sess) (e : Err) (s : State) : (recoverableExit sess' e s).hostGot = s.hostGot := rfl
@[simp] theorem recoverableExit_freeCtr (sess' : Sess) (e : Err) (s : State) : (recoverableExit sess' e s).freeCtr = s.freeCtr + 2 := rfl

/-! ### fatalExit -/

@[simp] theorem fatalExit_cfg (e : Err) (s : State) : (fatalExit e s).cfg = s.cfg := rfl
@[simp] theorem fatalExit_dir (e : Err) (s : State) : (fatalExit e s).dir = s.dir := rfl
@[simp] theorem fatalExit_out (e : Err) (s : State) : (fatalExit e s).out = s.out := rfl
@[simp] theorem fatalExit_extClk (e : Err) (s : State) : (fatalExit e s).extClk = s.extClk := rfl
@[simp] theorem fatalExit_extDat (e : Err) (s : State) : (fatalExit e s).extDat = s.extDat := rfl
@[simp] theorem fatalExit_sess (e : Err) (s : State) : (fatalExit e s).sess = s.sess := rfl
@[simp] theorem fatalExit_resync (e : Err) (s : State) : (fatalExit e s).resync = s.resync := rfl
@[simp] theorem fatalExit_busy (e : Err) (s : State) : (fatalExit e s).busy = false := rfl
@[simp] theorem fatalExit_err (e : Err) (s : State) : (fatalExit e s).err = e.code := rfl
@[simp] theorem fatalExit_fault (e : Err) (s : State) : (fatalExit e s).fault = true := rfl
@[simp] theorem fatalExit_res (e : Err) (s : State) : (fatalExit e s).res = s.res := rfl
@[simp] theorem fatalExit_cur (e : Err) (s : State) : (fatalExit e s).cur = s.cur := rfl
@[simp] theorem fatalExit_seq (e : Err) (s : State) : (fatalExit e s).seq = .start := rfl
@[simp] theorem fatalExit_sr (e : Err) (s : State) : (fatalExit e s).sr = Config.freeShift s.freeCtr &&& widthMask s.cfg := rfl
@[simp] theorem fatalExit_bitCnt (e : Err) (s : State) : (fatalExit e s).bitCnt = BitVec.ofNat 5 (Config.freeCount s.freeCtr % (s.cfg.width + 1)) := rfl
@[simp] theorem fatalExit_pollCnt (e : Err) (s : State) : (fatalExit e s).pollCnt = s.pollCnt := rfl
@[simp] theorem fatalExit_phase (e : Err) (s : State) : (fatalExit e s).phase = s.phase := rfl
@[simp] theorem fatalExit_hsIdx (e : Err) (s : State) : (fatalExit e s).hsIdx = s.hsIdx := rfl
@[simp] theorem fatalExit_prior (e : Err) (s : State) : (fatalExit e s).prior = s.prior := rfl
@[simp] theorem fatalExit_bIdx (e : Err) (s : State) : (fatalExit e s).bIdx = s.bIdx := rfl
@[simp] theorem fatalExit_bLen (e : Err) (s : State) : (fatalExit e s).bLen = s.bLen := rfl
@[simp] theorem fatalExit_part (e : Err) (s : State) : (fatalExit e s).part = s.part := rfl
@[simp] theorem fatalExit_lenAcc (e : Err) (s : State) : (fatalExit e s).lenAcc = s.lenAcc := rfl
@[simp] theorem fatalExit_buf (e : Err) (s : State) : (fatalExit e s).buf = s.buf := rfl
@[simp] theorem fatalExit_events (e : Err) (s : State) : (fatalExit e s).events = s.events ++ [.done e.code] := rfl
@[simp] theorem fatalExit_mfault (e : Err) (s : State) : (fatalExit e s).mfault = s.mfault.or (some .hwFault) := rfl
@[simp] theorem fatalExit_refused (e : Err) (s : State) : (fatalExit e s).refused = s.refused := rfl
@[simp] theorem fatalExit_agenda (e : Err) (s : State) : (fatalExit e s).agenda = s.agenda := rfl
@[simp] theorem fatalExit_program (e : Err) (s : State) : (fatalExit e s).program = s.program := rfl
@[simp] theorem fatalExit_hostGot (e : Err) (s : State) : (fatalExit e s).hostGot = s.hostGot := rfl
@[simp] theorem fatalExit_freeCtr (e : Err) (s : State) : (fatalExit e s).freeCtr = s.freeCtr + 1 := rfl

/-! ### driveLatch -/

@[simp] theorem driveLatch_cfg (i : LineId) (v : Bit) (s : State) : (driveLatch i v s).cfg = s.cfg := rfl
@[simp] theorem driveLatch_dir (i : LineId) (v : Bit) (s : State) : (driveLatch i v s).dir = s.dir := rfl
@[simp] theorem driveLatch_out (i : LineId) (v : Bit) (s : State) : (driveLatch i v s).out = s.out.set i v := rfl
@[simp] theorem driveLatch_extClk (i : LineId) (v : Bit) (s : State) : (driveLatch i v s).extClk = s.extClk := rfl
@[simp] theorem driveLatch_extDat (i : LineId) (v : Bit) (s : State) : (driveLatch i v s).extDat = s.extDat := rfl
@[simp] theorem driveLatch_sess (i : LineId) (v : Bit) (s : State) : (driveLatch i v s).sess = s.sess := rfl
@[simp] theorem driveLatch_resync (i : LineId) (v : Bit) (s : State) : (driveLatch i v s).resync = s.resync := rfl
@[simp] theorem driveLatch_busy (i : LineId) (v : Bit) (s : State) : (driveLatch i v s).busy = s.busy := rfl
@[simp] theorem driveLatch_err (i : LineId) (v : Bit) (s : State) : (driveLatch i v s).err = s.err := rfl
@[simp] theorem driveLatch_fault (i : LineId) (v : Bit) (s : State) : (driveLatch i v s).fault = s.fault := rfl
@[simp] theorem driveLatch_res (i : LineId) (v : Bit) (s : State) : (driveLatch i v s).res = s.res := rfl
@[simp] theorem driveLatch_cur (i : LineId) (v : Bit) (s : State) : (driveLatch i v s).cur = s.cur := rfl
@[simp] theorem driveLatch_seq (i : LineId) (v : Bit) (s : State) : (driveLatch i v s).seq = s.seq := rfl
@[simp] theorem driveLatch_sr (i : LineId) (v : Bit) (s : State) : (driveLatch i v s).sr = s.sr := rfl
@[simp] theorem driveLatch_bitCnt (i : LineId) (v : Bit) (s : State) : (driveLatch i v s).bitCnt = s.bitCnt := rfl
@[simp] theorem driveLatch_pollCnt (i : LineId) (v : Bit) (s : State) : (driveLatch i v s).pollCnt = s.pollCnt := rfl
@[simp] theorem driveLatch_phase (i : LineId) (v : Bit) (s : State) : (driveLatch i v s).phase = s.phase := rfl
@[simp] theorem driveLatch_hsIdx (i : LineId) (v : Bit) (s : State) : (driveLatch i v s).hsIdx = s.hsIdx := rfl
@[simp] theorem driveLatch_prior (i : LineId) (v : Bit) (s : State) : (driveLatch i v s).prior = s.prior := rfl
@[simp] theorem driveLatch_bIdx (i : LineId) (v : Bit) (s : State) : (driveLatch i v s).bIdx = s.bIdx := rfl
@[simp] theorem driveLatch_bLen (i : LineId) (v : Bit) (s : State) : (driveLatch i v s).bLen = s.bLen := rfl
@[simp] theorem driveLatch_part (i : LineId) (v : Bit) (s : State) : (driveLatch i v s).part = s.part := rfl
@[simp] theorem driveLatch_lenAcc (i : LineId) (v : Bit) (s : State) : (driveLatch i v s).lenAcc = s.lenAcc := rfl
@[simp] theorem driveLatch_buf (i : LineId) (v : Bit) (s : State) : (driveLatch i v s).buf = s.buf := rfl
@[simp] theorem driveLatch_events (i : LineId) (v : Bit) (s : State) : (driveLatch i v s).events = s.events ++ [.out i v] := rfl
@[simp] theorem driveLatch_mfault (i : LineId) (v : Bit) (s : State) : (driveLatch i v s).mfault = s.mfault := rfl
@[simp] theorem driveLatch_refused (i : LineId) (v : Bit) (s : State) : (driveLatch i v s).refused = s.refused := rfl
@[simp] theorem driveLatch_agenda (i : LineId) (v : Bit) (s : State) : (driveLatch i v s).agenda = s.agenda := rfl
@[simp] theorem driveLatch_program (i : LineId) (v : Bit) (s : State) : (driveLatch i v s).program = s.program := rfl
@[simp] theorem driveLatch_hostGot (i : LineId) (v : Bit) (s : State) : (driveLatch i v s).hostGot = s.hostGot := rfl
@[simp] theorem driveLatch_freeCtr (i : LineId) (v : Bit) (s : State) : (driveLatch i v s).freeCtr = s.freeCtr := rfl

/-! ### configure -/

@[simp] theorem configure_cfg (i : LineId) (d : Dir) (s : State) : (configure i d s).cfg = s.cfg := rfl
@[simp] theorem configure_dir (i : LineId) (d : Dir) (s : State) : (configure i d s).dir = s.dir.set i d := rfl
@[simp] theorem configure_out (i : LineId) (d : Dir) (s : State) : (configure i d s).out = s.out := rfl
@[simp] theorem configure_extClk (i : LineId) (d : Dir) (s : State) : (configure i d s).extClk = s.extClk := rfl
@[simp] theorem configure_extDat (i : LineId) (d : Dir) (s : State) : (configure i d s).extDat = s.extDat := rfl
@[simp] theorem configure_sess (i : LineId) (d : Dir) (s : State) : (configure i d s).sess = s.sess := rfl
@[simp] theorem configure_resync (i : LineId) (d : Dir) (s : State) : (configure i d s).resync = s.resync := rfl
@[simp] theorem configure_busy (i : LineId) (d : Dir) (s : State) : (configure i d s).busy = s.busy := rfl
@[simp] theorem configure_err (i : LineId) (d : Dir) (s : State) : (configure i d s).err = s.err := rfl
@[simp] theorem configure_fault (i : LineId) (d : Dir) (s : State) : (configure i d s).fault = s.fault := rfl
@[simp] theorem configure_res (i : LineId) (d : Dir) (s : State) : (configure i d s).res = s.res := rfl
@[simp] theorem configure_cur (i : LineId) (d : Dir) (s : State) : (configure i d s).cur = s.cur := rfl
@[simp] theorem configure_seq (i : LineId) (d : Dir) (s : State) : (configure i d s).seq = s.seq := rfl
@[simp] theorem configure_sr (i : LineId) (d : Dir) (s : State) : (configure i d s).sr = s.sr := rfl
@[simp] theorem configure_bitCnt (i : LineId) (d : Dir) (s : State) : (configure i d s).bitCnt = s.bitCnt := rfl
@[simp] theorem configure_pollCnt (i : LineId) (d : Dir) (s : State) : (configure i d s).pollCnt = s.pollCnt := rfl
@[simp] theorem configure_phase (i : LineId) (d : Dir) (s : State) : (configure i d s).phase = s.phase := rfl
@[simp] theorem configure_hsIdx (i : LineId) (d : Dir) (s : State) : (configure i d s).hsIdx = s.hsIdx := rfl
@[simp] theorem configure_prior (i : LineId) (d : Dir) (s : State) : (configure i d s).prior = s.prior := rfl
@[simp] theorem configure_bIdx (i : LineId) (d : Dir) (s : State) : (configure i d s).bIdx = s.bIdx := rfl
@[simp] theorem configure_bLen (i : LineId) (d : Dir) (s : State) : (configure i d s).bLen = s.bLen := rfl
@[simp] theorem configure_part (i : LineId) (d : Dir) (s : State) : (configure i d s).part = s.part := rfl
@[simp] theorem configure_lenAcc (i : LineId) (d : Dir) (s : State) : (configure i d s).lenAcc = s.lenAcc := rfl
@[simp] theorem configure_buf (i : LineId) (d : Dir) (s : State) : (configure i d s).buf = s.buf := rfl
@[simp] theorem configure_events (i : LineId) (d : Dir) (s : State) : (configure i d s).events = s.events ++ [.cfg i d] := rfl
@[simp] theorem configure_mfault (i : LineId) (d : Dir) (s : State) : (configure i d s).mfault = s.mfault := rfl
@[simp] theorem configure_refused (i : LineId) (d : Dir) (s : State) : (configure i d s).refused = s.refused := rfl
@[simp] theorem configure_agenda (i : LineId) (d : Dir) (s : State) : (configure i d s).agenda = s.agenda := rfl
@[simp] theorem configure_program (i : LineId) (d : Dir) (s : State) : (configure i d s).program = s.program := rfl
@[simp] theorem configure_hostGot (i : LineId) (d : Dir) (s : State) : (configure i d s).hostGot = s.hostGot := rfl
@[simp] theorem configure_freeCtr (i : LineId) (d : Dir) (s : State) : (configure i d s).freeCtr = s.freeCtr := rfl

/-! ### issueCommand -/

@[simp] theorem issueCommand_cfg (w : Word) (s : State) : (issueCommand w s).cfg = s.cfg := rfl
@[simp] theorem issueCommand_dir (w : Word) (s : State) : (issueCommand w s).dir = s.dir := rfl
@[simp] theorem issueCommand_out (w : Word) (s : State) : (issueCommand w s).out = s.out := rfl
@[simp] theorem issueCommand_extClk (w : Word) (s : State) : (issueCommand w s).extClk = s.extClk := rfl
@[simp] theorem issueCommand_extDat (w : Word) (s : State) : (issueCommand w s).extDat = s.extDat := rfl
@[simp] theorem issueCommand_sess (w : Word) (s : State) : (issueCommand w s).sess = s.sess := rfl
@[simp] theorem issueCommand_resync (w : Word) (s : State) : (issueCommand w s).resync = s.resync := rfl
@[simp] theorem issueCommand_busy (w : Word) (s : State) : (issueCommand w s).busy = true := rfl
@[simp] theorem issueCommand_err (w : Word) (s : State) : (issueCommand w s).err = 0 := rfl
@[simp] theorem issueCommand_fault (w : Word) (s : State) : (issueCommand w s).fault = s.fault := rfl
@[simp] theorem issueCommand_res (w : Word) (s : State) : (issueCommand w s).res = s.res := rfl
@[simp] theorem issueCommand_cur (w : Word) (s : State) : (issueCommand w s).cur = w := rfl
@[simp] theorem issueCommand_seq (w : Word) (s : State) : (issueCommand w s).seq = .start := rfl
@[simp] theorem issueCommand_sr (w : Word) (s : State) : (issueCommand w s).sr = s.sr := rfl
@[simp] theorem issueCommand_bitCnt (w : Word) (s : State) : (issueCommand w s).bitCnt = s.bitCnt := rfl
@[simp] theorem issueCommand_pollCnt (w : Word) (s : State) : (issueCommand w s).pollCnt = s.pollCnt := rfl
@[simp] theorem issueCommand_phase (w : Word) (s : State) : (issueCommand w s).phase = s.phase := rfl
@[simp] theorem issueCommand_hsIdx (w : Word) (s : State) : (issueCommand w s).hsIdx = s.hsIdx := rfl
@[simp] theorem issueCommand_prior (w : Word) (s : State) : (issueCommand w s).prior = s.prior := rfl
@[simp] theorem issueCommand_bIdx (w : Word) (s : State) : (issueCommand w s).bIdx = s.bIdx := rfl
@[simp] theorem issueCommand_bLen (w : Word) (s : State) : (issueCommand w s).bLen = s.bLen := rfl
@[simp] theorem issueCommand_part (w : Word) (s : State) : (issueCommand w s).part = s.part := rfl
@[simp] theorem issueCommand_lenAcc (w : Word) (s : State) : (issueCommand w s).lenAcc = s.lenAcc := rfl
@[simp] theorem issueCommand_buf (w : Word) (s : State) : (issueCommand w s).buf = s.buf := rfl
@[simp] theorem issueCommand_events (w : Word) (s : State) : (issueCommand w s).events = s.events ++ [.issue w] := rfl
@[simp] theorem issueCommand_mfault (w : Word) (s : State) : (issueCommand w s).mfault = s.mfault := rfl
@[simp] theorem issueCommand_refused (w : Word) (s : State) : (issueCommand w s).refused = s.refused := rfl
@[simp] theorem issueCommand_agenda (w : Word) (s : State) : (issueCommand w s).agenda = s.agenda := rfl
@[simp] theorem issueCommand_program (w : Word) (s : State) : (issueCommand w s).program = s.program := rfl
@[simp] theorem issueCommand_hostGot (w : Word) (s : State) : (issueCommand w s).hostGot = s.hostGot := rfl
@[simp] theorem issueCommand_freeCtr (w : Word) (s : State) : (issueCommand w s).freeCtr = s.freeCtr := rfl

end Sys2Proof.Machine
end

