-- ==== Sys2Proof/Laws/Micro.lean ====
section
/-! SUPPORT. Reasoning about micro-steps: what every outcome of a piece of pseudocode satisfies, how that composes, and what
`finish` makes of it. -/

namespace Sys2Proof.Machine

/-- Every outcome of `m` satisfies its predicate: `Y` at a yield, `R` at a result, `E` at a raise, `M` at a fault mark, `F` at a
refusal, `S` at a stop. -/
def Micro.Sat {α : Type} (m : Micro α) (Y : State → Prop) (R : α → State → Prop) (E : Err → State → Prop)
    (M : MFault → State → Prop) (F : RefuseReason → State → Prop) (S : Fault → Prop) : Prop :=
  match m with
  | .yields s    => Y s
  | .ret a s     => R a s
  | .raises e s  => E e s
  | .marks r s   => M r s
  | .refuses r s => F r s
  | .stops f     => S f

section
variable {α β : Type} {Y Y' : State → Prop} {R R' : α → State → Prop} {E E' : Err → State → Prop}
  {M M' : MFault → State → Prop} {F F' : RefuseReason → State → Prop} {S S' : Fault → Prop}

/-- Sequencing: the continuation is entered where the first part returns. -/
theorem Micro.sat_andThen {m : Micro α} {k : α → State → Micro β} {Q : β → State → Prop}
    (hm : m.Sat Y R E M F S) (hk : ∀ a t, R a t → (k a t).Sat Y Q E M F S) : (m.andThen k).Sat Y Q E M F S := by
  cases m with
  | ret a s => exact hk a s hm
  | _ => exact hm

/-- Weakening of every outcome. -/
theorem Micro.Sat.mono {m : Micro α} (hm : m.Sat Y R E M F S) (hY : ∀ t, Y t → Y' t) (hR : ∀ a t, R a t → R' a t)
    (hE : ∀ e t, E e t → E' e t) (hM : ∀ r t, M r t → M' r t) (hF : ∀ r t, F r t → F' r t) (hS : ∀ f, S f → S' f) :
    m.Sat Y' R' E' M' F' S' := by
  cases m with
  | yields s => exact hY s hm
  | ret a s => exact hR a s hm
  | raises e s => exact hE e s hm
  | marks r s => exact hM r s hm
  | refuses r s => exact hF r s hm
  | stops f => exact hS f hm

end

/-- Every state an outcome of `m` carries satisfies `P`. -/
def Micro.All {α : Type} (m : Micro α) (P : State → Prop) : Prop :=
  m.Sat P (fun _ => P) (fun _ => P) (fun _ => P) (fun _ => P) (fun _ => True)

theorem Micro.all_andThen {α β : Type} {m : Micro α} {k : α → State → Micro β} {P : State → Prop}
    (hm : m.All P) (hk : ∀ a t, P t → (k a t).All P) : (m.andThen k).All P :=
  Micro.sat_andThen hm hk

theorem Micro.All.mono {α : Type} {m : Micro α} {P Q : State → Prop} (hm : m.All P) (h : ∀ t, P t → Q t) : m.All Q :=
  Micro.Sat.mono hm h (fun _ => h) (fun _ => h) (fun _ => h) (fun _ => h) (fun _ => id)

/-- What `finish` answers: the four ways a micro-step ends in a next state. -/
theorem finish_next {f : State → Sess} {m : Micro Unit} {t : State} (h : finish f m = .next t) :
    m = .yields t ∨ (∃ s, m = .ret () s ∧ t = complete s) ∨ (∃ e s, m = .raises e s ∧ t = raiseExit (f s) e s)
      ∨ (∃ r s, m = .marks r s ∧ t = setMfault r s) ∨ (∃ r s, m = .refuses r s ∧ t = setRefused r s) := by
  cases m <;> simp_all [finish]

/-- From the outcomes of the pseudocode to the next state of the micro-step. -/
theorem Micro.Sat.next {f : State → Sess} {m : Micro Unit} {Y : State → Prop} {R : Unit → State → Prop}
    {E : Err → State → Prop} {M : MFault → State → Prop} {F : RefuseReason → State → Prop} {S : Fault → Prop}
    {P : State → Prop} {t : State} (hm : m.Sat Y R E M F S) (h : finish f m = .next t)
    (hY : ∀ s, Y s → P s) (hR : ∀ s, R () s → P (complete s)) (hE : ∀ e s, E e s → P (raiseExit (f s) e s))
    (hM : ∀ r s, M r s → P (setMfault r s)) (hF : ∀ r s, F r s → P (setRefused r s)) : P t := by
  rcases finish_next h with rfl | ⟨s, rfl, rfl⟩ | ⟨e, s, rfl, rfl⟩ | ⟨r, s, rfl, rfl⟩ | ⟨r, s, rfl, rfl⟩
  · exact hY _ hm
  · exact hR _ hm
  · exact hE _ _ hm
  · exact hM _ _ hm
  · exact hF _ _ hm

/-- `finish` answers a fault exactly where the pseudocode stops. -/
theorem finish_fault {f : State → Sess} {m : Micro Unit} {r : Fault} : finish f m = .fault r ↔ m = .stops r := by
  cases m <;> simp [finish]

/-- `finish` never answers a refusal. -/
theorem finish_ne_refused {f : State → Sess} {m : Micro Unit} {r : Refusal} : finish f m ≠ .refused r := by
  cases m <;> simp [finish]

/-- A raise is the recoverable exit or the fatal exit, by the kind of its error. -/
theorem raiseExit_recoverable {e : Err} (h : e.recoverable = true) (sess' : Sess) (s : State) :
    raiseExit sess' e s = recoverableExit sess' e s := by simp [raiseExit, h]

theorem raiseExit_fatal {e : Err} (h : e.recoverable = false) (sess' : Sess) (s : State) :
    raiseExit sess' e s = fatalExit e s := by simp [raiseExit, h]

/-! ### What both exits leave alone, and what both set -/

@[simp] theorem raiseExit_cfg (sess' : Sess) (e : Err) (s : State) : (raiseExit sess' e s).cfg = s.cfg := by
  unfold raiseExit
  split <;> rfl

@[simp] theorem raiseExit_dir (sess' : Sess) (e : Err) (s : State) : (raiseExit sess' e s).dir = s.dir := by
  unfold raiseExit
  split <;> rfl

@[simp] theorem raiseExit_out (sess' : Sess) (e : Err) (s : State) : (raiseExit sess' e s).out = s.out := by
  unfold raiseExit
  split <;> rfl

@[simp] theorem raiseExit_extClk (sess' : Sess) (e : Err) (s : State) : (raiseExit sess' e s).extClk = s.extClk := by
  unfold raiseExit
  split <;> rfl

@[simp] theorem raiseExit_extDat (sess' : Sess) (e : Err) (s : State) : (raiseExit sess' e s).extDat = s.extDat := by
  unfold raiseExit
  split <;> rfl

@[simp] theorem raiseExit_res (sess' : Sess) (e : Err) (s : State) : (raiseExit sess' e s).res = s.res := by
  unfold raiseExit
  split <;> rfl

@[simp] theorem raiseExit_cur (sess' : Sess) (e : Err) (s : State) : (raiseExit sess' e s).cur = s.cur := by
  unfold raiseExit
  split <;> rfl

@[simp] theorem raiseExit_hsIdx (sess' : Sess) (e : Err) (s : State) : (raiseExit sess' e s).hsIdx = s.hsIdx := by
  unfold raiseExit
  split <;> rfl

@[simp] theorem raiseExit_prior (sess' : Sess) (e : Err) (s : State) : (raiseExit sess' e s).prior = s.prior := by
  unfold raiseExit
  split <;> rfl

@[simp] theorem raiseExit_bIdx (sess' : Sess) (e : Err) (s : State) : (raiseExit sess' e s).bIdx = s.bIdx := by
  unfold raiseExit
  split <;> rfl

@[simp] theorem raiseExit_bLen (sess' : Sess) (e : Err) (s : State) : (raiseExit sess' e s).bLen = s.bLen := by
  unfold raiseExit
  split <;> rfl

@[simp] theorem raiseExit_part (sess' : Sess) (e : Err) (s : State) : (raiseExit sess' e s).part = s.part := by
  unfold raiseExit
  split <;> rfl

@[simp] theorem raiseExit_lenAcc (sess' : Sess) (e : Err) (s : State) : (raiseExit sess' e s).lenAcc = s.lenAcc := by
  unfold raiseExit
  split <;> rfl

@[simp] theorem raiseExit_buf (sess' : Sess) (e : Err) (s : State) : (raiseExit sess' e s).buf = s.buf := by
  unfold raiseExit
  split <;> rfl

@[simp] theorem raiseExit_refused (sess' : Sess) (e : Err) (s : State) : (raiseExit sess' e s).refused = s.refused := by
  unfold raiseExit
  split <;> rfl

@[simp] theorem raiseExit_agenda (sess' : Sess) (e : Err) (s : State) : (raiseExit sess' e s).agenda = s.agenda := by
  unfold raiseExit
  split <;> rfl

@[simp] theorem raiseExit_program (sess' : Sess) (e : Err) (s : State) : (raiseExit sess' e s).program = s.program := by
  unfold raiseExit
  split <;> rfl

@[simp] theorem raiseExit_hostGot (sess' : Sess) (e : Err) (s : State) : (raiseExit sess' e s).hostGot = s.hostGot := by
  unfold raiseExit
  split <;> rfl

@[simp] theorem raiseExit_err (sess' : Sess) (e : Err) (s : State) : (raiseExit sess' e s).err = e.code := by
  unfold raiseExit
  split <;> rfl

@[simp] theorem raiseExit_busy (sess' : Sess) (e : Err) (s : State) : (raiseExit sess' e s).busy = false := by
  unfold raiseExit
  split <;> rfl

@[simp] theorem raiseExit_seq (sess' : Sess) (e : Err) (s : State) : (raiseExit sess' e s).seq = .start := by
  unfold raiseExit
  split <;> rfl

@[simp] theorem raiseExit_events (sess' : Sess) (e : Err) (s : State) : (raiseExit sess' e s).events = s.events ++ [.done e.code] := by
  unfold raiseExit
  split <;> rfl

end Sys2Proof.Machine
end

