-- ==== Sys2Proof/Laws/Frames.lean ====
section
/-! SUPPORT. What the shared sequences leave alone: the frame of every line sample, latch write, poll and shift. -/

namespace Sys2Proof.Machine

/-- `t` differs from `s` at most in the latches of OCLK and ODAT, the hidden data path (SEQ, SR, BITCNT, POLLCNT, PHASE), the
free-value count, and records other than `Done` appended to the history. -/
structure TransferFrame (s t : State) : Prop where
  cfg     : t.cfg = s.cfg
  dir     : t.dir = s.dir
  outIclk : t.out.iclk = s.out.iclk
  outIdat : t.out.idat = s.out.idat
  extClk  : t.extClk = s.extClk
  extDat  : t.extDat = s.extDat
  sess    : t.sess = s.sess
  resync  : t.resync = s.resync
  busy    : t.busy = s.busy
  err     : t.err = s.err
  fault   : t.fault = s.fault
  res     : t.res = s.res
  cur     : t.cur = s.cur
  hsIdx   : t.hsIdx = s.hsIdx
  prior   : t.prior = s.prior
  bIdx    : t.bIdx = s.bIdx
  bLen    : t.bLen = s.bLen
  part    : t.part = s.part
  lenAcc  : t.lenAcc = s.lenAcc
  buf     : t.buf = s.buf
  events  : ∃ l, t.events = s.events ++ l ∧ ∀ c, Event.done c ∉ l
  mfault  : t.mfault = s.mfault
  refused : t.refused = s.refused
  agenda  : t.agenda = s.agenda
  program : t.program = s.program
  hostGot : t.hostGot = s.hostGot

theorem TransferFrame.refl (s : State) : TransferFrame s s := by
  constructor <;> first | rfl | exact ⟨[], by simp⟩

theorem TransferFrame.trans {s t u : State} (h : TransferFrame s t) (k : TransferFrame t u) : TransferFrame s u := by
  obtain ⟨l, hl, hl'⟩ := h.events
  obtain ⟨m, hm, hm'⟩ := k.events
  constructor
  case events => exact ⟨l ++ m, by rw [hm, hl, List.append_assoc], by simp_all⟩
  all_goals first
    | exact k.cfg.trans h.cfg | exact k.dir.trans h.dir | exact k.outIclk.trans h.outIclk | exact k.outIdat.trans h.outIdat
    | exact k.extClk.trans h.extClk | exact k.extDat.trans h.extDat | exact k.sess.trans h.sess
    | exact k.resync.trans h.resync | exact k.busy.trans h.busy | exact k.err.trans h.err | exact k.fault.trans h.fault
    | exact k.res.trans h.res | exact k.cur.trans h.cur | exact k.hsIdx.trans h.hsIdx | exact k.prior.trans h.prior
    | exact k.bIdx.trans h.bIdx | exact k.bLen.trans h.bLen | exact k.part.trans h.part | exact k.lenAcc.trans h.lenAcc
    | exact k.buf.trans h.buf | exact k.mfault.trans h.mfault | exact k.refused.trans h.refused
    | exact k.agenda.trans h.agenda | exact k.program.trans h.program | exact k.hostGot.trans h.hostGot

/-- A sample of a line leaves everything but the free-value count. -/
theorem sampleLine_frame (i : LineId) (s : State) : ∃ n, (sampleLine i s).2 = { s with freeCtr := n } := by
  cases i <;> exact ⟨_, rfl⟩

/-- A sample of an input line of the peer gives the peer's level and leaves the state as it is. -/
theorem sampleLine_iclk (s : State) : sampleLine .iclk s = (s.extClk, s) := rfl
theorem sampleLine_idat (s : State) : sampleLine .idat s = (s.extDat, s) := rfl

/-- `ReadLine` and `WriteLine` on lines of the right direction. -/
theorem readLine_iclk {s : State} (h : s.dir.iclk = .inp) :
    readLine .iclk s = .ret s.extClk (record (.inp .iclk s.extClk) s) := if_pos h

theorem readLine_idat {s : State} (h : s.dir.idat = .inp) :
    readLine .idat s = .ret s.extDat (record (.inp .idat s.extDat) s) := if_pos h

theorem writeLine_of_out {i : LineId} {s : State} (v : Bit) (h : s.dir.get i = .out) :
    writeLine i v s = .ret () (driveLatch i v s) := if_pos h

/-- A frame whose latches are all kept, and whose records are samples. -/
structure SampleFrame (s t : State) : Prop extends TransferFrame s t where
  out : t.out = s.out

theorem SampleFrame.refl (s : State) : SampleFrame s s := ⟨.refl s, rfl⟩

theorem SampleFrame.trans {s t u : State} (h : SampleFrame s t) (k : SampleFrame t u) : SampleFrame s u :=
  ⟨h.toTransferFrame.trans k.toTransferFrame, k.out.trans h.out⟩

/-- An update of the hidden data path alone. -/
theorem SampleFrame.hidden (s : State) (q : Seq) (sr : BitVec 16) (n : BitVec 5) (p : Nat) (ph : Phase) :
    SampleFrame s { s with seq := q, sr := sr, bitCnt := n, pollCnt := p, phase := ph } := by
  refine ⟨?_, rfl⟩
  constructor <;> first | rfl | exact ⟨[], by simp⟩

theorem readLine_frame (i : LineId) (s : State) : (readLine i s).All (SampleFrame s) := by
  obtain ⟨n, hn⟩ := sampleLine_frame i s
  unfold readLine
  split
  · refine (?_ : SampleFrame s _)
    rw [hn]
    refine ⟨?_, rfl⟩
    constructor <;> first | rfl | exact ⟨[_], rfl, by simp⟩
  · exact SampleFrame.refl s

theorem writeLine_frame {i : LineId} (hi : i = .oclk ∨ i = .odat) (v : Bit) (s : State) :
    (writeLine i v s).All (TransferFrame s) := by
  unfold writeLine
  split
  · refine (?_ : TransferFrame s (driveLatch i v s))
    rcases hi with rfl | rfl <;> constructor <;> first | rfl | exact ⟨[_], rfl, by simp⟩
  · exact TransferFrame.refl s

theorem yieldAt_frame {α : Type} (q : Seq) (s : State) : (yieldAt q s : Micro α).All (SampleFrame s) :=
  SampleFrame.hidden s q s.sr s.bitCnt s.pollCnt s.phase

theorem sendBits_frame (bits : List Bit) (s : State) : (sendBits bits s).All (TransferFrame s) := by
  cases bits with
  | nil => exact TransferFrame.refl s
  | cons b rest =>
    exact Micro.all_andThen (writeLine_frame (.inr rfl) b s) fun _ t ht =>
      (yieldAt_frame _ t).mono fun u hu => ht.trans hu.toTransferFrame

theorem sendResume_frame (s : State) : (sendResume s).All (TransferFrame s) := by
  unfold sendResume
  split
  · exact sendBits_frame _ s
  · exact Micro.all_andThen (writeLine_frame (.inl rfl) _ s) fun _ t ht =>
      (yieldAt_frame _ t).mono fun u hu => ht.trans hu.toTransferFrame
  · refine Micro.all_andThen (writeLine_frame (.inl rfl) _ s) fun _ t ht => ?_
    split
    · exact ht
    · exact (yieldAt_frame _ t).mono fun u hu => ht.trans hu.toTransferFrame
  all_goals trivial

theorem pollAgain_frame {α : Type} (q : Seq) (s : State) : (pollAgain q s : Micro α).All (SampleFrame s) := by
  unfold pollAgain
  split
  · exact SampleFrame.refl s
  · exact yieldAt_frame q s

theorem pollBit_frame (s : State) : (pollBit s).All (SampleFrame s) := by
  refine Micro.all_andThen (readLine_frame _ s) fun c t ht => ?_
  have hp : ∀ ph, SampleFrame s { t with pollCnt := t.pollCnt + 1, phase := ph } := fun ph =>
    ht.trans (SampleFrame.hidden t t.seq t.sr t.bitCnt _ ph)
  have again : ∀ u : State, SampleFrame s u → (pollAgain .poll u : Micro Bit).All (SampleFrame s) := fun u hu =>
    (pollAgain_frame .poll u).mono fun _ => hu.trans
  dsimp only
  split
  · split
    · exact again _ (hp .waitActive)
    · exact again _ (hp t.phase)
  · split
    · exact (readLine_frame .idat _).mono fun u hu => (hp t.phase).trans hu
    · exact again _ (hp t.phase)

theorem recvBit_frame (s : State) : (recvBit s).All (SampleFrame s) :=
  (pollBit_frame _).mono fun _ => (SampleFrame.hidden s s.seq s.sr s.bitCnt 0 .waitIdle).trans

theorem recvResume_frame (s : State) : (recvResume s).All (SampleFrame s) := by
  unfold recvResume
  split
  · exact pollBit_frame s
  · exact recvBit_frame s
  all_goals trivial

theorem acceptBit_frame (b : Bit) (s : State) : (acceptBit b s).All (SampleFrame s) := by
  have hs := SampleFrame.hidden s s.seq (shiftBit s.cfg s.sr b) (s.bitCnt + 1) s.pollCnt s.phase
  unfold acceptBit
  split
  · dsimp only
    split
    · exact (yieldAt_frame _ _).mono fun _ => hs.trans
    · exact hs
  · split <;> exact SampleFrame.refl s

theorem recvWord_frame (s : State) : (recvWord s).All (SampleFrame s) :=
  Micro.all_andThen ((recvBit_frame _).mono fun _ => (SampleFrame.hidden s s.seq 0 0 s.pollCnt s.phase).trans)
    fun b t ht => (acceptBit_frame b t).mono fun _ => ht.trans

theorem recvWordResume_frame (s : State) : (recvWordResume s).All (SampleFrame s) :=
  Micro.all_andThen (recvResume_frame s) fun b t ht => (acceptBit_frame b t).mono fun _ => ht.trans

end Sys2Proof.Machine
end

