-- ==== Sys2Proof/Laws/Commands.lean ====
section
/-! SUPPORT. One inversion lemma per command: what a micro-step that answers a next state can have done. -/

namespace Sys2Proof.Machine

/-- `t` is `s` with the command's pseudocode having run through frame `P` to `u`, and then yielded, completed or raised. -/
inductive Ends (f : State → Sess) (P : State → Prop) (Q : State → Prop) (t : State) : Prop where
  | yields (h : P t)
  | completes (u : State) (h : Q u) (e : t = complete u)
  | raises (err : Err) (u : State) (h : P u) (e : t = raiseExit (f u) err u)
  | marks (r : MFault) (u : State) (h : P u) (e : t = setMfault r u)
  | refuses (r : RefuseReason) (u : State) (h : P u) (e : t = setRefused r u)

/-- From the outcomes of the pseudocode to the ways its micro-step ends. -/
theorem Micro.Sat.ends {f : State → Sess} {m : Micro Unit} {P Q : State → Prop} {t : State}
    (hm : m.Sat P (fun _ => Q) (fun _ => P) (fun _ => P) (fun _ => P) (fun _ => True)) (h : finish f m = .next t) :
    Ends f P Q t := by
  rcases finish_next h with rfl | ⟨s, rfl, rfl⟩ | ⟨e, s, rfl, rfl⟩ | ⟨r, s, rfl, rfl⟩ | ⟨r, s, rfl, rfl⟩
  · exact .yields hm
  · exact .completes _ hm rfl
  · exact .raises _ _ hm rfl
  · exact .marks _ _ hm rfl
  · exact .refuses _ _ hm rfl

/-- A `require` keeps the state; it raises its error exactly where its condition fails. -/
theorem require_andThen {c : Bool} {e : Err} {s : State} {α : Type} (k : Unit → State → Micro α) :
    (require c e s).andThen k = if c then k () s else .raises e s := by
  cases c <;> rfl

/-- SBLK and RBLK are refused exactly where words are not bytes. -/
theorem requireByteWidth_andThen {s : State} {α : Type} (k : Unit → State → Micro α) :
    (requireByteWidth s).andThen k = if s.cfg.width = 8 then k () s else .refuses .blockWidth s := by
  unfold requireByteWidth
  split <;> rfl

theorem execLcfg_next {ln : LineId} {v : Bit} {s t : State} (h : execLcfg ln v s = .next t) :
    (s.sess = .disabled ∧ t = complete (configure ln (dirOfV v) s)) ∨ (s.sess ≠ .disabled ∧ t = raiseExit s.sess .usage s) := by
  unfold execLcfg requireDisabled at h
  rw [require_andThen] at h
  by_cases hs : s.sess = .disabled <;> simp [hs, finish, keepSess] at h
  · exact .inl ⟨hs, h.symm⟩
  · exact .inr ⟨hs, h.symm⟩

theorem execLrd_next {ln : LineId} {s t : State} (h : execLrd ln s = .next t) :
    (s.sess = .disabled ∧ s.dir.get ln = .inp ∧ ∃ (v : Bit) (u : State), SampleFrame s u ∧ t = complete { u with res := v.toWord })
      ∨ (s.sess = .disabled ∧ s.dir.get ln ≠ .inp ∧ t = raiseExit s.sess .lineDirection s)
      ∨ (s.sess ≠ .disabled ∧ t = raiseExit s.sess .usage s) := by
  unfold execLrd requireDisabled at h
  rw [require_andThen] at h
  by_cases hs : s.sess = .disabled
  · have hf := readLine_frame ln s
    by_cases hd : s.dir.get ln = .inp
    · simp [hs, readLine, hd, finish, Micro.andThen] at h
      simp [readLine, hd] at hf
      exact .inl ⟨hs, hd, _, _, hf, h.symm⟩
    · simp [hs, readLine, hd, finish, Micro.andThen, keepSess] at h
      exact .inr (.inl ⟨hs, hd, by rw [hs]; exact h.symm⟩)
  · simp [hs, finish, keepSess] at h
    exact .inr (.inr ⟨hs, h.symm⟩)

theorem execLwr_next {ln : LineId} {v : Bit} {s t : State} (h : execLwr ln v s = .next t) :
    (s.sess = .disabled ∧ s.dir.get ln = .out ∧ t = complete (driveLatch ln v s))
      ∨ (s.sess = .disabled ∧ s.dir.get ln ≠ .out ∧ t = raiseExit s.sess .lineDirection s)
      ∨ (s.sess ≠ .disabled ∧ t = raiseExit s.sess .usage s) := by
  unfold execLwr requireDisabled at h
  rw [require_andThen] at h
  by_cases hs : s.sess = .disabled
  · by_cases hd : s.dir.get ln = .out
    · simp [hs, writeLine, hd, finish] at h
      exact .inl ⟨hs, hd, h.symm⟩
    · simp [hs, writeLine, hd, finish, keepSess] at h
      exact .inr (.inl ⟨hs, hd, by rw [hs]; exact h.symm⟩)
  · simp [hs, finish, keepSess] at h
    exact .inr (.inr ⟨hs, h.symm⟩)

theorem execSbit_next {b : Bit} {s t : State} (h : execSbit b s = .next t) :
    Ends keepSess (TransferFrame s) (TransferFrame s) t := by
  refine Micro.Sat.ends ?_ h
  split
  · unfold requireT0
    rw [require_andThen]
    split
    · exact sendBits_frame _ s
    · exact TransferFrame.refl s
  · exact sendResume_frame s

theorem execSbyte_next {v : BitVec 16} {s t : State} (h : execSbyte v s = .next t) :
    Ends keepSess (TransferFrame s) (TransferFrame s) t := by
  refine Micro.Sat.ends ?_ h
  split
  · unfold requireT0
    simp only [require_andThen]
    split
    · split
      · exact sendBits_frame _ s
      · exact TransferFrame.refl s
    · exact TransferFrame.refl s
  · exact sendResume_frame s

theorem execRbit_next {s t : State} (h : execRbit s = .next t) :
    Ends keepSess (SampleFrame s) (fun u => ∃ r v, SampleFrame s v ∧ u = { v with res := r }) t := by
  refine Micro.Sat.ends ?_ h
  refine Micro.sat_andThen (R := fun _ => SampleFrame s) ?_ fun b u hu => ⟨b.toWord, u, hu, rfl⟩
  split
  · unfold requireT0
    rw [require_andThen]
    split
    · exact recvBit_frame s
    · exact SampleFrame.refl s
  · exact recvResume_frame s

theorem execRbyte_next {s t : State} (h : execRbyte s = .next t) :
    Ends keepSess (SampleFrame s) (fun u => ∃ r v, SampleFrame s v ∧ u = { v with res := r }) t := by
  refine Micro.Sat.ends ?_ h
  refine Micro.sat_andThen (R := fun _ => SampleFrame s) ?_ fun b u hu => ⟨_, u, hu, rfl⟩
  split
  · unfold requireT0
    rw [require_andThen]
    split
    · exact recvWord_frame s
    · exact SampleFrame.refl s
  · exact recvWordResume_frame s

/-- The state in which ENABLE completes. -/
def enabled (s : State) : State :=
  { s with
    out := { s.out with oclk := s.cfg.clkIdle, odat := s.cfg.dataIdle }, dir := enabledDirs, sess := .idle, resync := false,
    events := s.events ++ [.out .oclk s.cfg.clkIdle, .out .odat s.cfg.dataIdle, .cfg .iclk .inp, .cfg .idat .inp,
      .cfg .oclk .out, .cfg .odat .out] }

theorem execEnable_next {s t : State} (h : execEnable s = .next t) :
    (s.sess = .disabled ∧ t = complete (enabled s)) ∨ (s.sess ≠ .disabled ∧ t = raiseExit s.sess .usage s) := by
  unfold execEnable requireDisabled at h
  rw [require_andThen] at h
  by_cases hs : s.sess = .disabled
  · simp [hs, finish, complete, configure, driveLatch, record] at h
    exact .inl ⟨hs, by rw [← h]; simp [enabled, enabledDirs, complete, record]⟩
  · simp [hs, finish, keepSess] at h
    exact .inr ⟨hs, h.symm⟩

/-- DISABLE's loop writes latches of OUT lines only. -/
theorem releaseLine_next (i : LineId) (s : State) :
    ∃ o l, releaseLine i s = { s with out := o, events := s.events ++ l } ∧ (∀ c, Event.done c ∉ l)
      ∧ ∀ ln, s.dir.get ln ≠ .out → o.get ln = s.out.get ln := by
  unfold releaseLine
  split
  · rename_i hd
    exact ⟨s.out.set i s.cfg.disableLevel, [_], rfl, by simp, fun ln hl =>
      LineFile.get_set_other _ _ fun e => hl (e ▸ hd)⟩
  · exact ⟨s.out, [], by simp, by simp, fun _ _ => rfl⟩

theorem execDisable_next {s t : State} (h : execDisable s = .next t) :
    (s.sess = .disabled ∧ t = complete s)
      ∨ (s.sess ≠ .disabled ∧ ∃ o l, (∀ c, Event.done c ∉ l) ∧ (∀ ln, s.dir.get ln ≠ .out → o.get ln = s.out.get ln)
          ∧ t = complete { s with out := o, events := s.events ++ l, sess := .disabled, resync := false }) := by
  unfold execDisable at h
  by_cases hs : s.sess = .disabled
  · simp [hs, finish] at h
    exact .inl ⟨hs, h.symm⟩
  · simp only [hs, if_false, finish] at h
    obtain ⟨o1, l1, e1, d1, k1⟩ := releaseLine_next .iclk s
    rw [e1] at h
    obtain ⟨o2, l2, e2, d2, k2⟩ := releaseLine_next .idat { s with out := o1, events := s.events ++ l1 }
    rw [e2] at h
    obtain ⟨o3, l3, e3, d3, k3⟩ := releaseLine_next .oclk { s with out := o2, events := s.events ++ l1 ++ l2 }
    rw [e3] at h
    obtain ⟨o4, l4, e4, d4, k4⟩ := releaseLine_next .odat { s with out := o3, events := s.events ++ l1 ++ l2 ++ l3 }
    rw [e4] at h
    refine .inr ⟨hs, o4, l1 ++ l2 ++ l3 ++ l4, by simp_all, fun ln hl => ?_, ?_⟩
    · exact (k4 ln hl).trans ((k3 ln hl).trans ((k2 ln hl).trans (k1 ln hl)))
    · injection h with h
      rw [← h]
      simp [List.append_assoc]

/-- A WFS poll from `b` that does not complete: it samples, and HSIDX counts at most one pattern more, not the last one. -/
def PollOn (b t : State) : Prop :=
  ∃ u n, SampleFrame b u ∧ (n = b.hsIdx ∨ n = b.hsIdx + 1 ∧ n ≠ b.cfg.hsSeq.length) ∧ t = { u with hsIdx := n }

/-- A WFS poll from `b` that matches the last pattern. -/
def PollDone (b t : State) : Prop :=
  ∃ u, SampleFrame b u ∧ b.hsIdx + 1 = b.cfg.hsSeq.length
    ∧ t = { u with hsIdx := b.hsIdx + 1, sess := .transferring, resync := false }

theorem PollOn.of_sample {b t : State} (h : SampleFrame b t) : PollOn b t := ⟨t, t.hsIdx, h, .inl h.hsIdx, rfl⟩

/-- What WFS's pseudocode from the poll in `b` can come to. -/
def PollSat (b : State) (m : Micro Unit) : Prop :=
  m.Sat (PollOn b) (fun _ => PollDone b) (fun _ => PollOn b) (fun _ => PollOn b) (fun _ => PollOn b) (fun _ => True)

theorem handshakePoll_sat (b : State) : PollSat b (handshakePoll b) := by
  have read : ∀ i u, SampleFrame b u → (readLine i u).Sat (PollOn b) (fun _ => SampleFrame b) (fun _ => PollOn b)
      (fun _ => PollOn b) (fun _ => PollOn b) (fun _ => True) := fun i u hu =>
    Micro.Sat.mono (readLine_frame i u) (fun _ h => .of_sample (hu.trans h)) (fun _ _ => hu.trans)
      (fun _ _ h => .of_sample (hu.trans h)) (fun _ _ h => .of_sample (hu.trans h))
      (fun _ _ h => .of_sample (hu.trans h)) (fun _ => id)
  have again : ∀ (u : State) (n : Nat), SampleFrame b u → (n = b.hsIdx ∨ n = b.hsIdx + 1 ∧ n ≠ b.cfg.hsSeq.length) →
      PollSat b (pollAgain .hsPoll { u with hsIdx := n }) := by
    intro u n hu hn
    unfold pollAgain
    split
    · exact ⟨u, n, hu, hn, rfl⟩
    · exact ⟨_, n, hu.trans (SampleFrame.hidden u .hsPoll u.sr u.bitCnt u.pollCnt u.phase), hn, rfl⟩
  refine Micro.sat_andThen (read .iclk b (.refl b)) fun c t ht => ?_
  refine Micro.sat_andThen (read .idat t ht) fun d t ht => ?_
  have hp : SampleFrame b { t with pollCnt := t.pollCnt + 1 } :=
    ht.trans (SampleFrame.hidden t t.seq t.sr t.bitCnt _ t.phase)
  dsimp only
  split
  · split
    · rename_i h
      exact ⟨_, hp, by rw [← ht.hsIdx, ← ht.cfg]; exact h, by rw [← ht.hsIdx]⟩
    · rename_i h
      exact again _ (t.hsIdx + 1) hp (.inr ⟨by rw [ht.hsIdx], by rw [← ht.cfg]; exact h⟩)
  · exact again _ t.hsIdx hp (.inl ht.hsIdx)

/-- WFS: a UsageError, or a poll, from the state WFS begins with or from its last poll. -/
theorem execWfs_next {s t : State} (h : execWfs s = .next t) :
    (s.seq = .start ∧ s.sess ≠ .idle ∧ s.sess ≠ .transferring ∧ t = raiseExit s.prior .usage s)
      ∨ ∃ b, (s.seq = .hsPoll ∧ b = s
          ∨ s.seq = .start ∧ (s.sess = .idle ∨ s.sess = .transferring)
            ∧ b = { s with prior := s.sess, sess := .syncing, hsIdx := 0, pollCnt := 0 })
        ∧ Ends priorSess (PollOn b) (PollDone b) t := by
  unfold execWfs at h
  split at h
  · rename_i hs
    rw [require_andThen] at h
    split at h
    · rename_i hl
      exact .inr ⟨_, .inr ⟨hs, by simpa using hl, rfl⟩, Micro.Sat.ends (handshakePoll_sat _) h⟩
    · rename_i hl
      injection h with h
      exact .inl ⟨hs, by simp_all, by simp_all, h.symm⟩
  · rename_i hs
    exact .inr ⟨s, .inl ⟨hs, rfl⟩, Micro.Sat.ends (handshakePoll_sat s) h⟩
  · exact absurd h nofun

/-! ### Block commands -/

/-- `t` differs from `s` at most as in `TransferFrame`, in the block counters, in the layout position and, where a byte was
stored, in the buffer at `s.bIdx`. -/
structure BlockFrame (s t : State) : Prop where
  cfg     : t.cfg = s.cfg
  dir     : t.dir = s.dir
  outIclk : t.out.iclk = s.out.iclk
  outIdat : t.out.idat = s.out.idat
  extClk  : t.extClk = s.extClk
  extDat  : t.extDat = s.extDat
  sess    : t.sess = s.sess
  resync  : t.resync = s.resync
  busy    : t.busy = s.busy
  err     : t.err = s.err
  fault   : t.fault = s.fault
  res     : t.res = s.res
  cur     : t.cur = s.cur
  hsIdx   : t.hsIdx = s.hsIdx
  prior   : t.prior = s.prior
  events  : ∃ l, t.events = s.events ++ l ∧ ∀ c, Event.done c ∉ l
  mfault  : t.mfault = s.mfault
  refused : t.refused = s.refused
  agenda  : t.agenda = s.agenda
  program : t.program = s.program
  hostGot : t.hostGot = s.hostGot

theorem TransferFrame.block {s t : State} (h : TransferFrame s t) : BlockFrame s t where
  cfg     := h.cfg
  dir     := h.dir
  outIclk := h.outIclk
  outIdat := h.outIdat
  extClk  := h.extClk
  extDat  := h.extDat
  sess    := h.sess
  resync  := h.resync
  busy    := h.busy
  err     := h.err
  fault   := h.fault
  res     := h.res
  cur     := h.cur
  hsIdx   := h.hsIdx
  prior   := h.prior
  events  := h.events
  mfault  := h.mfault
  refused := h.refused
  agenda  := h.agenda
  program := h.program
  hostGot := h.hostGot

theorem BlockFrame.refl (s : State) : BlockFrame s s := (TransferFrame.refl s).block

theorem BlockFrame.trans {s t u : State} (h : BlockFrame s t) (k : BlockFrame t u) : BlockFrame s u := by
  obtain ⟨l, hl, hl'⟩ := h.events
  obtain ⟨m, hm, hm'⟩ := k.events
  constructor
  case events => exact ⟨l ++ m, by rw [hm, hl, List.append_assoc], by simp_all⟩
  all_goals first
    | exact k.cfg.trans h.cfg | exact k.dir.trans h.dir | exact k.outIclk.trans h.outIclk | exact k.outIdat.trans h.outIdat
    | exact k.extClk.trans h.extClk | exact k.extDat.trans h.extDat | exact k.sess.trans h.sess
    | exact k.resync.trans h.resync | exact k.busy.trans h.busy | exact k.err.trans h.err | exact k.fault.trans h.fault
    | exact k.res.trans h.res | exact k.cur.trans h.cur | exact k.hsIdx.trans h.hsIdx | exact k.prior.trans h.prior
    | exact k.mfault.trans h.mfault | exact k.refused.trans h.refused
    | exact k.agenda.trans h.agenda | exact k.program.trans h.program | exact k.hostGot.trans h.hostGot

/-- An update of the block counters, the layout position, the buffer and SEQ alone. -/
theorem BlockFrame.position (s : State) (i n : BitVec 17) (p : Part) (q : List Byte) (m : Memory) (k : Seq) :
    BlockFrame s { s with bIdx := i, bLen := n, part := p, lenAcc := q, buf := m, seq := k } := by
  constructor <;> first | rfl | exact ⟨[], by simp⟩

/-- An element byte is read without a change of the state. -/
theorem elemByte_frame (p : Part) (s : State) : (elemByte p s).All (· = s) := by
  cases p with
  | startMarker => cases h : s.cfg.startMarker <;> simp [elemByte, h, Micro.All, Micro.Sat]
  | lenByte j => rfl
  | data =>
    simp only [elemByte, memRead]
    split
    · split <;> rfl
    · trivial
  | endMarker => cases h : s.cfg.endMarker <;> simp [elemByte, h, Micro.All, Micro.Sat]

theorem sendElem_frame (s : State) : (sendElem s).All (TransferFrame s) := by
  refine Micro.all_andThen (P := TransferFrame s) ?_ fun v t ht => (sendBits_frame _ t).mono fun _ => ht.trans
  exact (elemByte_frame s.part s).mono fun t ht => ht ▸ TransferFrame.refl s

/-- The frame of SBLK between its start and its end: the buffer is kept. -/
def SblkFrame (s t : State) : Prop := BlockFrame s t ∧ t.buf = s.buf

theorem SblkFrame.refl (s : State) : SblkFrame s s := ⟨.refl s, rfl⟩

theorem SblkFrame.transfer {s t u : State} (h : SblkFrame s t) (k : TransferFrame t u) : SblkFrame s u :=
  ⟨h.1.trans k.block, k.buf.trans h.2⟩

theorem SblkFrame.position {s t : State} (h : SblkFrame s t) (i n : BitVec 17) (p : Part) (k : Seq) :
    SblkFrame s { t with bIdx := i, bLen := n, part := p, seq := k } :=
  ⟨h.1.trans (.position t i n p t.lenAcc t.buf k), h.2⟩

/-- The state in which SBLK completes: SESS = Idle. -/
def SblkDone (s u : State) : Prop := ∃ v, SblkFrame s v ∧ u = { v with sess := .idle }

/-- What SBLK's pseudocode can come to. -/
def SblkSat (s : State) (m : Micro Unit) : Prop :=
  m.Sat (SblkFrame s) (fun _ => SblkDone s) (fun _ => SblkFrame s) (fun _ => SblkFrame s) (fun _ => SblkFrame s)
    (fun _ => True)

theorem afterSentElem_frame {s t : State} (h : SblkFrame s t) : SblkSat s (afterSentElem t) := by
  have hi : SblkFrame s (if t.part = .data then { t with bIdx := t.bIdx + 1 } else t) := by
    split
    · exact h.position (t.bIdx + 1) t.bLen t.part t.seq
    · exact h
  unfold afterSentElem
  dsimp only
  generalize (if t.part = .data then { t with bIdx := t.bIdx + 1 } else t) = u at hi ⊢
  split
  · exact hi.position u.bIdx u.bLen _ .elem
  · exact ⟨u, hi, rfl⟩

theorem SblkSat.elems {s : State} {m : Micro Unit} (h : m.All (SblkFrame s)) :
    SblkSat s (m.andThen fun _ t => afterSentElem t) :=
  Micro.sat_andThen h fun _ _ => afterSentElem_frame

theorem execSblk_next {len : BitVec 16} {s t : State} (h : execSblk len s = .next t) :
    Ends idleSess (SblkFrame s) (SblkDone s) t := by
  refine Micro.Sat.ends ?_ h
  have elem : ∀ u, SblkFrame s u → SblkSat s ((sendElem u).andThen fun _ t => afterSentElem t) := fun u hu =>
    SblkSat.elems ((sendElem_frame u).mono fun _ => hu.transfer)
  split
  · unfold requireT0
    rw [requireByteWidth_andThen]
    simp only [require_andThen]
    split
    · split
      · split
        · split
          · split
            · exact elem _ ((SblkFrame.refl s).position 0 _ _ s.seq)
            · exact ⟨_, (SblkFrame.refl s).position 0 _ s.part s.seq, rfl⟩
          · exact SblkFrame.refl s
        · exact SblkFrame.refl s
      · exact SblkFrame.refl s
    · exact SblkFrame.refl s
  · exact elem s (SblkFrame.refl s)
  · exact SblkSat.elems ((sendResume_frame s).mono fun _ => (SblkFrame.refl s).transfer)

/-- The frame of RBLK: the latches are kept, and the buffer is kept but for the byte at BIDX in a data element. -/
def RblkFrame (s t : State) : Prop :=
  BlockFrame s t ∧ t.out = s.out ∧
    (t.buf = s.buf ∨ s.part = .data ∧ s.seq ≠ .start ∧ ∃ v, t.buf = s.buf.write s.bIdx.toNat v)

/-- The part of RBLK's frame before an element is accepted: the buffer is kept, and outside the first micro-step so are the
block counters and the layout position. -/
def RblkBefore (s t : State) : Prop :=
  BlockFrame s t ∧ t.out = s.out ∧ t.buf = s.buf ∧ (s.seq ≠ .start → t.part = s.part ∧ t.bIdx = s.bIdx)

theorem RblkBefore.refl (s : State) : RblkBefore s s := ⟨.refl s, rfl, rfl, fun _ => ⟨rfl, rfl⟩⟩

theorem RblkBefore.frame {s t : State} (h : RblkBefore s t) : RblkFrame s t := ⟨h.1, h.2.1, .inl h.2.2.1⟩

theorem RblkBefore.sample {s t u : State} (h : RblkBefore s t) (k : SampleFrame t u) : RblkBefore s u :=
  ⟨h.1.trans k.toTransferFrame.block, k.out.trans h.2.1, k.buf.trans h.2.2.1, fun hs =>
    ⟨k.part.trans (h.2.2.2 hs).1, k.bIdx.trans (h.2.2.2 hs).2⟩⟩

theorem RblkFrame.position {s t : State} (h : RblkFrame s t) (i n : BitVec 17) (p : Part) (q : List Byte) (k : Seq) :
    RblkFrame s { t with bIdx := i, bLen := n, part := p, lenAcc := q, seq := k } :=
  ⟨h.1.trans (.position t i n p q t.buf k), h.2.1, h.2.2⟩

/-- The state in which RBLK completes: SESS = Idle and RES = BLEN. -/
def RblkDone (s u : State) : Prop := ∃ v, RblkFrame s v ∧ u = { v with sess := .idle, res := v.bLen.setWidth 32 }

/-- What RBLK's pseudocode can come to. -/
def RblkSat (s : State) (m : Micro Unit) : Prop :=
  m.Sat (RblkFrame s) (fun _ => RblkDone s) (fun _ => RblkFrame s) (fun _ => RblkFrame s) (fun _ => RblkFrame s)
    (fun _ => True)

theorem recvNextElem_frame {s t : State} (h : RblkFrame s t) (next : Option Part) : RblkSat s (recvNextElem next t) := by
  cases next with
  | some p => exact h.position t.bIdx t.bLen p t.lenAcc .elem
  | none => exact ⟨t, h, rfl⟩

/-- In its first micro-step RecvBit cannot end: its first poll only looks for the idle level. -/
theorem recvBit_ne_ret {s t : State} {b : Bit} : recvBit s ≠ .ret b t := by
  obtain ⟨n, hn⟩ := sampleLine_frame .iclk { s with phase := .waitIdle, pollCnt := 0 }
  unfold recvBit pollBit readLine
  split
  · simp only [Micro.andThen, record_phase, record_cfg, hn]
    split <;> (unfold pollAgain; split <;> exact nofun)
  · exact nofun

/-- So RecvWord does not end in its first micro-step either. -/
theorem recvWord_first {s u : State} (h : RblkFrame s u) (cap : Nat) : RblkSat s ((recvWord u).andThen (acceptElem cap)) := by
  have hm := recvBit_frame { u with sr := 0, bitCnt := 0 }
  have step : ∀ t, SampleFrame { u with sr := 0, bitCnt := 0 } t → RblkFrame s t := fun t k =>
    have k := (SampleFrame.hidden u u.seq 0 0 u.pollCnt u.phase).trans k
    ⟨h.1.trans k.toTransferFrame.block, k.out.trans h.2.1, k.buf ▸ h.2.2⟩
  unfold recvWord
  cases e : recvBit { u with sr := 0, bitCnt := 0 } with
  | ret b t => exact absurd e recvBit_ne_ret
  | yields t => exact step t (by rw [e] at hm; exact hm)
  | raises r t => exact step t (by rw [e] at hm; exact hm)
  | marks r t => exact step t (by rw [e] at hm; exact hm)
  | refuses r t => exact step t (by rw [e] at hm; exact hm)
  | stops f => trivial

theorem acceptElem_frame {cap : Nat} {v : BitVec 16} {s t : State} (hs : s.seq ≠ .start) (h : RblkBefore s t) :
    RblkSat s (acceptElem cap v t) := by
  unfold acceptElem
  dsimp only
  split
  · rw [require_andThen]
    split
    · exact recvNextElem_frame h.frame _
    · exact h.frame
  · unfold acceptLenByte
    dsimp only
    split
    · exact recvNextElem_frame (h.frame.position t.bIdx t.bLen t.part _ t.seq) _
    · rw [require_andThen]
      split
      · exact recvNextElem_frame (h.frame.position t.bIdx _ t.part _ t.seq) _
      · exact h.frame.position t.bIdx t.bLen t.part _ t.seq
  · rename_i hp
    unfold memWrite
    split
    · refine recvNextElem_frame (t := { t with buf := t.buf.write t.bIdx.toNat (v.setWidth 8), bIdx := t.bIdx + 1 }) ⟨h.1.trans (.position t _ t.bLen t.part t.lenAcc _ t.seq), h.2.1, .inr ?_⟩ _
      obtain ⟨e1, e2⟩ := h.2.2.2 hs
      exact ⟨e1 ▸ hp, hs, v.setWidth 8, by simp [h.2.2.1, e2]⟩
    · trivial
  · rw [require_andThen]
    split
    · exact recvNextElem_frame h.frame _
    · exact h.frame

theorem execRblk_next {cap : BitVec 16} {s t : State} (h : execRblk cap s = .next t) :
    Ends idleSess (RblkFrame s) (RblkDone s) t := by
  refine Micro.Sat.ends ?_ h
  have word : ∀ m : Micro (BitVec 16), s.seq ≠ .start → m.All (RblkBefore s) →
      RblkSat s (m.andThen (acceptElem cap.toNat)) := fun m hs hm =>
    Micro.sat_andThen (R := fun _ => RblkBefore s)
      (Micro.Sat.mono hm (fun _ => RblkBefore.frame) (fun _ _ => id) (fun _ _ => RblkBefore.frame)
        (fun _ _ => RblkBefore.frame) (fun _ _ => RblkBefore.frame) (fun _ => id)) fun _ _ => acceptElem_frame hs
  split
  · unfold requireT0
    rw [requireByteWidth_andThen]
    simp only [require_andThen]
    split
    · split
      · split
        · split
          · split
            · exact recvWord_first ((RblkBefore.refl s).frame.position 0 _ _ [] s.seq) _
            · exact ⟨_, (RblkBefore.refl s).frame.position 0 _ s.part [] s.seq, rfl⟩
          · exact (RblkBefore.refl s).frame
        · exact (RblkBefore.refl s).frame
      · exact (RblkBefore.refl s).frame
    · exact (RblkBefore.refl s).frame
  · rename_i hs
    exact word _ (by rw [hs]; exact nofun) ((recvWord_frame s).mono fun _ => (RblkBefore.refl s).sample)
  · rename_i hs _
    exact word _ hs ((recvWordResume_frame s).mono fun _ => (RblkBefore.refl s).sample)

/-! ### Every command -/

/-- What no command changes before its micro-step ends: the configuration, CUR, the peer's levels, BUSY, ERR, FAULT, the marks
and the environment's plans. The history only grows, without a record of an end. -/
structure Steady (s t : State) : Prop where
  cfg     : t.cfg = s.cfg
  extClk  : t.extClk = s.extClk
  extDat  : t.extDat = s.extDat
  busy    : t.busy = s.busy
  err     : t.err = s.err
  fault   : t.fault = s.fault
  cur     : t.cur = s.cur
  events  : ∃ l, t.events = s.events ++ l ∧ ∀ c, Event.done c ∉ l
  mfault  : t.mfault = s.mfault
  refused : t.refused = s.refused
  agenda  : t.agenda = s.agenda
  program : t.program = s.program
  hostGot : t.hostGot = s.hostGot

theorem Steady.refl (s : State) : Steady s s := by
  constructor <;> first | rfl | exact ⟨[], by simp⟩

theorem Steady.trans {s t u : State} (h : Steady s t) (k : Steady t u) : Steady s u := by
  obtain ⟨l, hl, hl'⟩ := h.events
  obtain ⟨m, hm, hm'⟩ := k.events
  constructor
  case events => exact ⟨l ++ m, by rw [hm, hl, List.append_assoc], by simp_all⟩
  all_goals first
    | exact k.cfg.trans h.cfg | exact k.extClk.trans h.extClk | exact k.extDat.trans h.extDat | exact k.busy.trans h.busy
    | exact k.err.trans h.err | exact k.fault.trans h.fault | exact k.cur.trans h.cur | exact k.mfault.trans h.mfault
    | exact k.refused.trans h.refused | exact k.agenda.trans h.agenda | exact k.program.trans h.program
    | exact k.hostGot.trans h.hostGot

theorem BlockFrame.steady {s t : State} (h : BlockFrame s t) : Steady s t where
  cfg     := h.cfg
  extClk  := h.extClk
  extDat  := h.extDat
  busy    := h.busy
  err     := h.err
  fault   := h.fault
  cur     := h.cur
  events  := h.events
  mfault  := h.mfault
  refused := h.refused
  agenda  := h.agenda
  program := h.program
  hostGot := h.hostGot

theorem TransferFrame.steady {s t : State} (h : TransferFrame s t) : Steady s t := h.block.steady

/-- A change of the lines, the session, RES, the block counters, the layout position, the buffer and the hidden data path,
with records other than ends. -/
theorem Steady.update {s t : State} (h : Steady s t) (d : LineFile Dir) (o : LineFile Bit) (se : Sess) (r : Bool) (w : Word)
    (q : Seq) (k : Nat) (p : Sess) (m : Memory) : Steady s { t with
      dir := d, out := o, sess := se, resync := r, res := w, seq := q, hsIdx := k, prior := p, buf := m } := by
  obtain ⟨_, _, _, _, _, _, _, _, _, _, _, _, _⟩ := h
  constructor <;> assumption

theorem Ends.mono {f : State → Sess} {P P' Q Q' : State → Prop} {t : State} (h : Ends f P Q t) (hP : ∀ u, P u → P' u)
    (hQ : ∀ u, Q u → Q' u) : Ends f P' Q' t := by
  cases h with
  | yields h => exact .yields (hP _ h)
  | completes u h e => exact .completes u (hQ _ h) e
  | raises r u h e => exact .raises r u (hP _ h) e
  | marks r u h e => exact .marks r u (hP _ h) e
  | refuses r u h e => exact .refuses r u (hP _ h) e

/-- A part `g` of the state that no exit changes is after a micro-step what it is in the pseudocode's state. -/
theorem Ends.proj {α : Type} (g : State → α) {v : α} {f : State → Sess} {P Q : State → Prop} {t : State} (h : Ends f P Q t)
    (hP : ∀ u, P u → g u = v) (hQ : ∀ u, Q u → g u = v) (hc : ∀ u, g (complete u) = g u)
    (hr : ∀ x e u, g (raiseExit x e u) = g u) (hm : ∀ r u, g (setMfault r u) = g u)
    (hf : ∀ r u, g (setRefused r u) = g u) : g t = v := by
  cases h with
  | yields h => exact hP t h
  | completes u h e => exact e ▸ (hc u).trans (hQ u h)
  | raises r u h e => exact e ▸ (hr _ _ u).trans (hP u h)
  | marks r u h e => exact e ▸ (hm _ u).trans (hP u h)
  | refuses r u h e => exact e ▸ (hf _ u).trans (hP u h)

theorem execBufw_next {a : BitVec 16} {d : Byte} {s t : State} (h : execBufw a d s = .next t) :
    (a.toNat < s.cfg.bufSize ∧ t = complete { s with buf := s.buf.write a.toNat d })
      ∨ (s.cfg.bufSize ≤ a.toNat ∧ t = raiseExit s.sess .usage s) := by
  unfold execBufw memWrite at h
  rw [require_andThen] at h
  by_cases ha : a.toNat < s.cfg.bufSize <;> simp [ha, finish, keepSess] at h
  · exact .inl ⟨ha, h.symm⟩
  · exact .inr ⟨by omega, h.symm⟩

theorem execBufr_next {a : BitVec 16} {s t : State} (h : execBufr a s = .next t) :
    (∃ v, a.toNat < s.cfg.bufSize ∧ s.buf.read a.toNat = some v ∧ t = complete { s with res := v.setWidth 32 })
      ∨ (a.toNat < s.cfg.bufSize ∧ s.buf.read a.toNat = none ∧ t = setMfault .uninitRead s)
      ∨ (s.cfg.bufSize ≤ a.toNat ∧ t = raiseExit s.sess .usage s) := by
  unfold execBufr memRead at h
  rw [require_andThen] at h
  by_cases ha : a.toNat < s.cfg.bufSize
  · cases hv : s.buf.read a.toNat <;> simp [ha, hv, finish, Micro.andThen] at h
    · exact .inr (.inl ⟨ha, rfl, h.symm⟩)
    · exact .inl ⟨_, ha, rfl, h.symm⟩
  · simp [ha, finish, keepSess] at h
    exact .inr (.inr ⟨by omega, h.symm⟩)

theorem refuseFileLevel_next {s t : State} (h : refuseFileLevel s = .next t) : t = setRefused .fileLevelOp s := by
  injection h with h
  exact h.symm

/-- The spec lemma of `exec`: every command's micro-step runs its pseudocode in a steady part of the state, and then yields,
completes, raises, or sets a mark. -/
theorem exec_ends {i : Instr} {s t : State} (h : exec i s = .next t) :
    ∃ f, Ends f (Steady s) (Steady s) t := by
  have hs := Steady.refl s
  have step : ∀ (u : State) (e : Event), (∀ c, e ≠ .done c) → Steady s u → Steady s (record e u) := by
    rintro u e he ⟨_, _, _, _, _, _, _, ⟨l, hl, hl'⟩, _, _, _, _, _⟩
    constructor <;> first | assumption | skip
    exact ⟨l ++ [e], by simp [hl], by simpa [hl'] using fun c => (he c).symm⟩
  cases i with
  | lcfg ln v =>
    rcases execLcfg_next h with ⟨_, rfl⟩ | ⟨_, rfl⟩
    · exact ⟨keepSess, .completes _ (step { s with dir := _ } _ (by simp)
        (hs.update _ s.out s.sess s.resync s.res s.seq s.hsIdx s.prior s.buf)) rfl⟩
    · exact ⟨keepSess, .raises _ s hs rfl⟩
  | lrd ln =>
    rcases execLrd_next h with ⟨_, _, v, u, hu, rfl⟩ | ⟨_, _, rfl⟩ | ⟨_, rfl⟩
    · exact ⟨keepSess, .completes _ (hu.toTransferFrame.steady.update u.dir u.out u.sess u.resync _ u.seq u.hsIdx u.prior
        u.buf) rfl⟩
    · exact ⟨keepSess, .raises _ s hs rfl⟩
    · exact ⟨keepSess, .raises _ s hs rfl⟩
  | lwr ln v =>
    rcases execLwr_next h with ⟨_, _, rfl⟩ | ⟨_, _, rfl⟩ | ⟨_, rfl⟩
    · exact ⟨keepSess, .completes _ (step { s with out := _ } _ (by simp)
        (hs.update s.dir _ s.sess s.resync s.res s.seq s.hsIdx s.prior s.buf)) rfl⟩
    · exact ⟨keepSess, .raises _ s hs rfl⟩
    · exact ⟨keepSess, .raises _ s hs rfl⟩
  | sbit b => exact ⟨_, (execSbit_next h).mono (fun _ => TransferFrame.steady) fun _ => TransferFrame.steady⟩
  | sbyte v => exact ⟨_, (execSbyte_next h).mono (fun _ => TransferFrame.steady) fun _ => TransferFrame.steady⟩
  | rbit =>
    refine ⟨_, (execRbit_next h).mono (fun _ k => k.toTransferFrame.steady) ?_⟩
    rintro _ ⟨r, v, k, rfl⟩
    exact k.toTransferFrame.steady.update v.dir v.out v.sess v.resync r v.seq v.hsIdx v.prior v.buf
  | rbyte =>
    refine ⟨_, (execRbyte_next h).mono (fun _ k => k.toTransferFrame.steady) ?_⟩
    rintro _ ⟨r, v, k, rfl⟩
    exact k.toTransferFrame.steady.update v.dir v.out v.sess v.resync r v.seq v.hsIdx v.prior v.buf
  | enable =>
    rcases execEnable_next h with ⟨_, rfl⟩ | ⟨_, rfl⟩
    · refine ⟨keepSess, .completes _ ?_ rfl⟩
      constructor <;> first | rfl | exact ⟨_, rfl, by simp⟩
    · exact ⟨keepSess, .raises _ s hs rfl⟩
  | disable =>
    rcases execDisable_next h with ⟨_, rfl⟩ | ⟨_, o, l, hl, _, rfl⟩
    · exact ⟨keepSess, .completes s hs rfl⟩
    · refine ⟨keepSess, .completes _ ?_ rfl⟩
      constructor <;> first | rfl | exact ⟨l, rfl, hl⟩
  | wfs =>
    rcases execWfs_next h with ⟨_, _, _, rfl⟩ | ⟨b, hb, he⟩
    · exact ⟨priorSess, .raises _ s hs rfl⟩
    · have hb : Steady s b := by
        rcases hb with ⟨_, rfl⟩ | ⟨_, _, rfl⟩
        · exact hs
        · constructor <;> first | rfl | exact ⟨[], by simp⟩
      refine ⟨_, he.mono ?_ ?_⟩
      · rintro _ ⟨u, n, hu, _, rfl⟩
        exact (hb.trans hu.toTransferFrame.steady).update u.dir u.out u.sess u.resync u.res u.seq n u.prior u.buf
      · rintro _ ⟨u, hu, _, rfl⟩
        exact (hb.trans hu.toTransferFrame.steady).update u.dir u.out .transferring false u.res u.seq _ u.prior u.buf
  | sblk n =>
    refine ⟨_, (execSblk_next h).mono (fun _ k => k.1.steady) ?_⟩
    rintro _ ⟨v, k, rfl⟩
    exact k.1.steady.update v.dir v.out .idle v.resync v.res v.seq v.hsIdx v.prior v.buf
  | rblk n =>
    refine ⟨_, (execRblk_next h).mono (fun _ k => k.1.steady) ?_⟩
    rintro _ ⟨v, k, rfl⟩
    exact k.1.steady.update v.dir v.out .idle v.resync _ v.seq v.hsIdx v.prior v.buf
  | bufw a d =>
    rcases execBufw_next h with ⟨_, rfl⟩ | ⟨_, rfl⟩
    · exact ⟨keepSess, .completes _ (hs.update s.dir s.out s.sess s.resync s.res s.seq s.hsIdx s.prior _) rfl⟩
    · exact ⟨keepSess, .raises _ s hs rfl⟩
  | bufr a =>
    rcases execBufr_next h with ⟨v, _, _, rfl⟩ | ⟨_, _, rfl⟩ | ⟨_, rfl⟩
    · exact ⟨keepSess, .completes _ (hs.update s.dir s.out s.sess s.resync _ s.seq s.hsIdx s.prior s.buf) rfl⟩
    · exact ⟨keepSess, .marks _ s hs rfl⟩
    · exact ⟨keepSess, .raises _ s hs rfl⟩
  | reqfl => exact ⟨keepSess, .refuses _ s hs (refuseFileLevel_next h)⟩
  | listf => exact ⟨keepSess, .refuses _ s hs (refuseFileLevel_next h)⟩
  | sendf => exact ⟨keepSess, .refuses _ s hs (refuseFileLevel_next h)⟩
  | retrf => exact ⟨keepSess, .refuses _ s hs (refuseFileLevel_next h)⟩

end Sys2Proof.Machine
end

