-- ==== Sys2Proof/Laws/Memory.lean ====
section
/-! SUPPORT. The laws of the block buffer: what a write leaves at every address, and that it keeps the canonical form. -/

namespace Sys2Proof.Machine

/-- A read after a write (spec/20_memory.md R51, R52). -/
theorem Memory.read_write (m : Memory) (a b : Nat) (v : Byte) :
    (m.write a v).read b = if b = a then some v else m.read b := by
  induction m with
  | nil => rfl
  | cons c m ih =>
    obtain ⟨k, u⟩ := c
    simp only [Memory.write]
    split
    · simp only [Memory.read]
    · split
      · rename_i h
        subst h
        simp only [Memory.read]
        split <;> rfl
      · simp only [Memory.read, ih]
        split
        · rename_i h1 h2
          subst h2
          rw [if_neg (fun h => absurd h.symm ‹_›)]
        · rfl

@[simp] theorem Memory.read_write_self (m : Memory) (a : Nat) (v : Byte) : (m.write a v).read a = some v := by
  simp [read_write]

theorem Memory.read_write_other (m : Memory) {a b : Nat} (v : Byte) (h : b ≠ a) : (m.write a v).read b = m.read b := by
  simp [read_write, h]

/-- The cells of a written buffer: those that were there, and the one written. -/
theorem Memory.mem_write {m : Memory} {a : Nat} {v : Byte} {c : Host.Cell} (h : c ∈ m.write a v) :
    c ∈ m ∨ c = (a, v) := by
  induction m with
  | nil => simpa [Memory.write] using h
  | cons d m ih =>
    simp only [Memory.write] at h
    split at h
    · rcases List.mem_cons.mp h with h | h
      · exact .inr h
      · exact .inl h
    · split at h
      · rcases List.mem_cons.mp h with h | h
        · exact .inr h
        · exact .inl (List.mem_cons_of_mem _ h)
      · rcases List.mem_cons.mp h with h | h
        · exact .inl (h ▸ List.mem_cons_self)
        · exact (ih h).imp (List.mem_cons_of_mem _) id

/-- Every write keeps the canonical form. -/
theorem Memory.wf_write {m : Memory} (h : m.wf) (a : Nat) (v : Byte) : (m.write a v).wf := by
  induction m with
  | nil => simp [Memory.wf, Memory.write]
  | cons d m ih =>
    obtain ⟨k, u⟩ := d
    simp only [Memory.wf, List.map_cons, List.pairwise_cons, List.mem_map] at h
    obtain ⟨hk, hm⟩ := h
    simp only [Memory.write]
    split
    · rename_i hak
      simp only [Memory.wf, List.map_cons, List.pairwise_cons, List.mem_cons, List.mem_map]
      exact ⟨fun b hb => hb.elim (· ▸ hak) fun hb => hak.trans (hk b hb), hk, hm⟩
    · split
      · rename_i hak
        subst hak
        simp only [Memory.wf, List.map_cons, List.pairwise_cons, List.mem_map]
        exact ⟨hk, hm⟩
      · simp only [Memory.wf, List.map_cons, List.pairwise_cons, List.mem_map]
        refine ⟨fun b hb => ?_, ih hm⟩
        obtain ⟨c, hc, rfl⟩ := hb
        rcases mem_write hc with hc | rfl
        · exact hk _ ⟨c, hc, rfl⟩
        · show k < a
          omega

/-- The empty buffer is in canonical form; so the buffer of the reset state is. -/
theorem Memory.wf_reset : State.reset.buf.wf := by decide

/-- A write never takes a value back. -/
theorem Memory.isSome_write {m : Memory} {b : Nat} (h : (m.read b).isSome) (a : Nat) (v : Byte) :
    ((m.write a v).read b).isSome := by
  rw [read_write]
  split
  · rfl
  · exact h

end Sys2Proof.Machine
end

