-- ==== Sys2Proof/Laws/PerInstr.lean ====
section
/-! SUPPORT. Statements about every command as syntax, one lemma per constructor. -/

namespace Sys2Proof.Laws.Encoding

/-- The fixed bits of a command's word are those of its row of the opcode table: OP in bits 31:24, zeros in every
must-be-zero bit (spec/30_encoding.md R72 to R77, R79). -/
def Statement (i : Instr) : Prop := encode i &&& (rowOf i).mask = (rowOf i).pattern

/-- Format D: OP, eight zeros, the immediate. -/
theorem fixed_imm (r : Row) (imm : BitVec 16) (h : r.mask = 0xFFFF0000) :
    (r.opcode ++ 0#8 ++ imm) &&& r.mask = r.pattern := by
  refine BitVec.eq_of_getLsbD_eq fun i hi => ?_
  simp only [h, Row.pattern, BitVec.getLsbD_and, BitVec.getLsbD_append]
  interval_cases i <;> simp

/-- Format M: OP, the address, the data byte. -/
theorem fixed_addr (r : Row) (addr : BitVec 16) (data : Byte)
    (h : r.mask = 0xFF000000 ∨ r.mask = 0xFF0000FF ∧ data = 0) : (r.opcode ++ addr ++ data) &&& r.mask = r.pattern := by
  refine BitVec.eq_of_getLsbD_eq fun i hi => ?_
  rcases h with h | ⟨h, rfl⟩ <;> simp only [h, Row.pattern, BitVec.getLsbD_and, BitVec.getLsbD_append] <;>
    interval_cases i <;> simp

theorem lcfg (ln : LineId) (v : Bit) : Statement (.lcfg ln v) := by cases ln <;> cases v <;> rfl

theorem lrd (ln : LineId) : Statement (.lrd ln) := by cases ln <;> rfl

theorem lwr (ln : LineId) (v : Bit) : Statement (.lwr ln v) := by cases ln <;> cases v <;> rfl

theorem sbit (b : Bit) : Statement (.sbit b) := by cases b <;> rfl

theorem rbit : Statement .rbit := rfl

theorem sbyte (imm : BitVec 16) : Statement (.sbyte imm) := fixed_imm .sbyte imm rfl

theorem rbyte : Statement .rbyte := rfl

theorem enable : Statement .enable := rfl

theorem disable : Statement .disable := rfl

theorem wfs : Statement .wfs := rfl

theorem sblk (len : BitVec 16) : Statement (.sblk len) := fixed_imm .sblk len rfl

theorem rblk (cap : BitVec 16) : Statement (.rblk cap) := fixed_imm .rblk cap rfl

theorem bufw (addr : BitVec 16) (data : Byte) : Statement (.bufw addr data) := fixed_addr .bufw addr data (.inl rfl)

theorem bufr (addr : BitVec 16) : Statement (.bufr addr) := fixed_addr .bufr addr 0 (.inr ⟨rfl, rfl⟩)

theorem reqfl : Statement .reqfl := rfl

theorem listf : Statement .listf := rfl

theorem sendf : Statement .sendf := rfl

theorem retrf : Statement .retrf := rfl

end Sys2Proof.Laws.Encoding
end

