-- ==== Sys2Proof/Laws/Step.lean ====
section
/-! SUPPORT. The inversion lemma of the global step: everything a step that answers a next state can have done. -/

namespace Sys2Proof.Machine

/-- `t` follows from `s` by one global step; `u` is `s` with the step's move taken from the schedule. -/
inductive Stepped (s u t : State) : Prop where
  /-- a micro-step of the running command -/
  | micro (i : Instr) (he : u.blockEnabled) (hd : decode u.cur = .ok i) (h : exec i u = .next t)
  /-- the first micro-step of a word that is no command -/
  | illegal (e : DecodeError) (he : u.blockEnabled) (hd : decode u.cur = .error e) (h : t = raiseExit u.sess .illegalCommand u)
  /-- the block's turn while no command runs, or a host write without an effect -/
  | idle (got : Option Word) (h : t = { u with hostGot := got })
  /-- the host issues a command, from its program or by a write of CMD -/
  | issue (w : Word) (ws : List Word) (got : Option Word) (hb : u.busy = false) (hu : u.unmarked)
      (h : t = issueCommand w { u with program := ws, hostGot := got })
  | peer (ln : PeerLine) (v : Bit) (h : t = peerStep ln v u)
  /-- a host read -/
  | read (got : Option Word) (n : Nat) (h : t = { u with hostGot := got, freeCtr := n })
  | badAccess (h : t = setRefused .hostAccess { u with hostGot := none })
  | reset (ms : List Move) (ha : s.agenda = .reset :: ms) (h : t = resetBlock u)

/-- A read of LINES changes nothing but the free-value count. -/
theorem readLines_frame (s : State) : ∃ n, (readLines s).2 = { s with freeCtr := n } := by
  have draw : ∀ (k : Option Bit) (u : State) (n : Nat), u = { s with freeCtr := n } →
      ∃ m, (levelOrDraw k u).2 = { s with freeCtr := m } := by
    rintro k u n rfl
    cases k with
    | some v => exact ⟨n, rfl⟩
    | none => exact ⟨n + 1, rfl⟩
  obtain ⟨n0, h0⟩ := draw (s.pin .iclk) s s.freeCtr rfl
  obtain ⟨n1, h1⟩ := draw _ _ _ h0
  obtain ⟨n2, h2⟩ := draw _ _ _ h1
  exact draw _ _ _ h2

theorem microStep_next {s u t : State} (he : u.blockEnabled) (h : microStep u = .next t) : Stepped s u t := by
  unfold microStep at h
  split at h
  · exact .micro _ he ‹_› h
  · injection h with h
    exact .illegal _ he ‹_› h.symm

/-- A stop lets the block take no step. -/
theorem stopOf_none {s : State} (h : stopOf s = none) : s.unmarked := by
  unfold stopOf at h
  unfold State.unmarked
  split at h <;> simp_all

theorem stopOf_next {s t : State} {o : Host.Outcome State Fault Refusal} (h : stopOf s = some o) : o ≠ .next t := by
  unfold stopOf at h
  split at h <;> (try split at h) <;> cases h <;> exact nofun

/-- The spec lemma of `step`. -/
theorem step_next {s t : State} (h : step s = .next t) :
    s.cfg.wf = true ∧ Stepped s { s with agenda := s.agenda.tail } t := by
  unfold step globalStep at h
  split at h
  · rename_i hw
    refine ⟨hw, ?_⟩
    split at h
    · rename_i ha
      have e : ({ s with agenda := s.agenda.tail } : State) = s := by rw [ha, List.tail_nil, ← ha]
      rw [e]
      unfold freeTurn at h
      split at h
      · exact absurd h (stopOf_next ‹_›)
      · rename_i hs
        split at h
        · exact microStep_next ⟨‹_›, stopOf_none hs⟩ h
        · rename_i hb
          split at h
          · injection h with h
            exact .idle s.hostGot h.symm
          · injection h with h
            exact .issue _ _ s.hostGot (by simpa using hb) (stopOf_none hs) h.symm
    · rename_i m ms ha
      have e : ({ s with agenda := s.agenda.tail } : State) = { s with agenda := ms } := by rw [ha, List.tail_cons]
      rw [e]
      generalize hu : ({ s with agenda := ms } : State) = u at h
      cases m with
      | block =>
        unfold perform blockTurn at h
        dsimp only at h
        split at h
        · exact absurd h (stopOf_next ‹_›)
        · rename_i hs
          split at h
          · exact microStep_next ⟨‹_›, stopOf_none hs⟩ h
          · injection h with h
            exact .idle u.hostGot h.symm
      | peer ln v =>
        injection h with h
        exact .peer ln v h.symm
      | host a =>
        unfold perform hostAccess at h
        dsimp only at h
        split at h
        · split at h
          · injection h with h
            unfold readRegister at h
            split at h
            · exact .read _ u.freeCtr h.symm
            · split at h
              · exact .read _ u.freeCtr h.symm
              · split at h
                · obtain ⟨n, hn⟩ := readLines_frame u
                  refine .read (some (readLines u).1) n ?_
                  rw [← h, hn]
                · exact .read _ u.freeCtr h.symm
          · unfold writeRegister at h
            split at h
            · split at h
              · injection h with h
                exact .idle _ h.symm
              · split at h
                · cases h
                · split at h
                  · cases h
                  · rename_i hf hb hm
                    injection h with h
                    exact .issue _ u.program _ (by simpa using hb)
                      ⟨by simp_all, by simp_all, by simpa using hf⟩ h.symm
            · injection h with h
              exact .idle _ h.symm
        · injection h with h
          exact .badAccess h.symm
      | reset =>
        injection h with h
        exact .reset ms ha h.symm
  · cases h

end Sys2Proof.Machine
end

