-- ==== Sys2Proof/Machine/Assembler.lean ====
section
/-! DEFINITION. The assembler syntax of spec/30_encoding.md R83: one line of text, as a list of characters, to a command word.
There are no pseudo-instructions and no labels (R84, R85). -/

namespace Sys2Proof.Machine

/-- Why a line is rejected. -/
inductive AsmError where
  /-- no command has this mnemonic -/
  | unknownMnemonic
  /-- an operand is missing, superfluous, ill-spelled, or does not fit its field -/
  | badOperand
  deriving DecidableEq, Repr

/-- The mnemonic of a row (R79). -/
def rowName : Row → List Char
  | .lcfg    => ['L', 'C', 'F', 'G']
  | .lrd     => ['L', 'R', 'D']
  | .lwr     => ['L', 'W', 'R']
  | .sbit    => ['S', 'B', 'I', 'T']
  | .rbit    => ['R', 'B', 'I', 'T']
  | .sbyte   => ['S', 'B', 'Y', 'T', 'E']
  | .rbyte   => ['R', 'B', 'Y', 'T', 'E']
  | .enable  => ['E', 'N', 'A', 'B', 'L', 'E']
  | .disable => ['D', 'I', 'S', 'A', 'B', 'L', 'E']
  | .wfs     => ['W', 'F', 'S']
  | .sblk    => ['S', 'B', 'L', 'K']
  | .rblk    => ['R', 'B', 'L', 'K']
  | .bufw    => ['B', 'U', 'F', 'W']
  | .bufr    => ['B', 'U', 'F', 'R']
  | .reqfl   => ['R', 'E', 'Q', 'F', 'L']
  | .listf   => ['L', 'I', 'S', 'T', 'F']
  | .sendf   => ['S', 'E', 'N', 'D', 'F']
  | .retrf   => ['R', 'E', 'T', 'R', 'F']

/-- A separator inside a line. -/
def isBlank (c : Char) : Bool := c == ' ' || c == '\t'

/-- The text without blanks at either end. -/
def trimBlanks (t : List Char) : List Char := ((t.dropWhile isBlank).reverse.dropWhile isBlank).reverse

/-- The text before the comment, if there is one. -/
def stripComment (t : List Char) : List Char := t.takeWhile (· != ';')

/-- The pieces between the commas. -/
def splitCommas : List Char → List (List Char)
  | [] => [[]]
  | c :: cs =>
    if c == ',' then [] :: splitCommas cs
    else
      match splitCommas cs with
      | [] => [[c]]
      | p :: ps => (c :: p) :: ps

/-- The operands after a mnemonic: none when nothing stands there. -/
def splitOperands (t : List Char) : List (List Char) :=
  if (trimBlanks t).isEmpty then [] else (splitCommas t).map trimBlanks

/-- A digit below `base`; hexadecimal letters in either case. -/
def digitValue (base : Nat) (c : Char) : Option Nat :=
  let n := c.toNat
  let d : Option Nat :=
    if 48 ≤ n ∧ n ≤ 57 then some (n - 48)
    else if 65 ≤ n ∧ n ≤ 70 then some (n - 55)
    else if 97 ≤ n ∧ n ≤ 102 then some (n - 87)
    else none
  d.filter (· < base)

/-- The value of a string of digits. -/
def digitsValue (base : Nat) (ds : List Char) : Option Nat :=
  ds.foldl (fun acc c => acc.bind fun a => (digitValue base c).map fun d => base * a + d) (some 0)

/-- A number: decimal, or hexadecimal after `0x`. -/
def parseNumber : List Char → Option Nat
  | [] => none
  | '0' :: 'x' :: ds => if ds.isEmpty then none else digitsValue 16 ds
  | ds => digitsValue 10 ds

/-- A number that fits a field of `width` bits. -/
def parseField (width : Nat) (t : List Char) : Option (BitVec width) :=
  ((parseNumber t).filter (· < 2 ^ width)).map (BitVec.ofNat width)

/-- A level or a bit: 0 or 1. -/
def parseBit (t : List Char) : Option Bit := (parseField 1 t).map fun b => b.getLsbD 0

/-- A line name (10_state.md R20). -/
def parseLine (t : List Char) : Option LineId :=
  if t = ['I', 'C', 'L', 'K'] then some .iclk
  else if t = ['I', 'D', 'A', 'T'] then some .idat
  else if t = ['O', 'C', 'L', 'K'] then some .oclk
  else if t = ['O', 'D', 'A', 'T'] then some .odat
  else none

/-- A direction: IN is V = 0, OUT is V = 1. -/
def parseDir (t : List Char) : Option Bit :=
  if t = ['I', 'N'] then some false
  else if t = ['O', 'U', 'T'] then some true
  else none

/-- The command of a row with the given operand texts (R83). -/
def buildInstr (r : Row) (ops : List (List Char)) : Option Instr :=
  match r, ops with
  | .lcfg, [l, d] => (parseLine l).bind fun ln => (parseDir d).map fun v => .lcfg ln v
  | .lrd, [l] => (parseLine l).map .lrd
  | .lwr, [l, v] => (parseLine l).bind fun ln => (parseBit v).map fun v => .lwr ln v
  | .sbit, [b] => (parseBit b).map .sbit
  | .rbit, [] => some .rbit
  | .sbyte, [v] => (parseField 16 v).map .sbyte
  | .rbyte, [] => some .rbyte
  | .enable, [] => some .enable
  | .disable, [] => some .disable
  | .wfs, [] => some .wfs
  | .sblk, [n] => (parseField 16 n).map .sblk
  | .rblk, [n] => (parseField 16 n).map .rblk
  | .bufw, [a, d] => (parseField 16 a).bind fun addr => (parseField 8 d).map fun v => .bufw addr v
  | .bufr, [a] => (parseField 16 a).map .bufr
  | .reqfl, [] => some .reqfl
  | .listf, [] => some .listf
  | .sendf, [] => some .sendf
  | .retrf, [] => some .retrf
  | _, _ => none

/-- One line of a program: no command on an empty or comment line, else its word. -/
def assembleLine (t : List Char) : Except AsmError (Option Word) :=
  let body := trimBlanks (stripComment t)
  if body.isEmpty then .ok none
  else
    let name := body.takeWhile fun c => !isBlank c
    match Row.all.find? fun r => rowName r == name with
    | none => .error .unknownMnemonic
    | some r =>
      match buildInstr r (splitOperands (body.drop name.length)) with
      | none => .error .badOperand
      | some i => .ok (some (encode i))

/-- A program: the words of its lines, in order (R83, 60_exceptions.md R222). -/
def assembleProgram : List (List Char) → Except AsmError (List Word)
  | [] => .ok []
  | l :: ls =>
    match assembleLine l with
    | .error e => .error e
    | .ok none => assembleProgram ls
    | .ok (some w) =>
      match assembleProgram ls with
      | .error e => .error e
      | .ok ws => .ok (w :: ws)

end Sys2Proof.Machine
end

