-- ==== Sys2Proof/Tests/Slice0.lean ====
section
/-! SUPPORT. The model's own tests: ill-formed terms that WellFormed refuses, words written out from the encoding tables,
single steps of the test vectors of spec/95_test_vectors.md, and for every obligation with hypotheses a state that meets them. -/

namespace Sys2Proof.Tests

open Sys2Proof
open Sys2Proof.Machine

/-! ### Well-formedness (spec/00_scope.md R6, spec/30_encoding.md R81) -/

theorem test_default_is_wellformed : Cfg.default.wf = true := by decide

theorem test_wf1_refuses : { Cfg.default with width := 0 }.wf = false ∧ { Cfg.default with width := 17 }.wf = false := by decide

theorem test_wf2_refuses : { Cfg.default with timeout := some 0 }.wf = false := by decide

theorem test_wf3_refuses :
    { Cfg.default with hsSeq := [⟨0b10, 0b00⟩] }.wf = false
      ∧ { Cfg.default with hsSeq := [⟨0b00, 0b00⟩, ⟨0b10, 0b00⟩, ⟨0b10, 0b10⟩] }.wf = false
      ∧ { Cfg.default with hsSeq := [⟨0b10, 0b01⟩, ⟨0b10, 0b00⟩, ⟨0b10, 0b10⟩] }.wf = false := by decide

theorem test_wf4_refuses : { Cfg.default with hsSeq := [⟨0b10, 0b10⟩, ⟨0b01, 0b01⟩] }.wf = false := by decide

theorem test_wf5_refuses :
    { Cfg.default with blockMode := .fixed }.wf = false
      ∧ { Cfg.default with blockMode := .fixed, blockLen := some 0 }.wf = false
      ∧ { Cfg.default with blockMode := .fixed, blockLen := some 257 }.wf = false
      ∧ { Cfg.default with blockMode := .fixed, blockLen := some 65536, bufSize := 65536 }.wf = false := by decide

theorem test_wf6_refuses : { Cfg.default with bufSize := 0 }.wf = false ∧ { Cfg.default with bufSize := 65537 }.wf = false := by decide

theorem test_sbyte_operand_refused : (Instr.sbyte 0x100).wf Cfg.default = false ∧ (Instr.sbyte 0xFF).wf Cfg.default = true := by decide

/-! ### Words written out from the formats R72 to R77 and the opcode map R79: OP, then the fields below it -/

theorem test_decode_line_words :
    decode (0b00010000#8 ++ 0b000000000000000#15 ++ 0b1#1 ++ 0b000000#6 ++ 0b11#2) = .ok (.lcfg .odat true)
      ∧ decode (0b00010001#8 ++ 0b0000000000000000000000#22 ++ 0b10#2) = .ok (.lrd .oclk)
      ∧ decode (0b00010010#8 ++ 0b000000000000000#15 ++ 0b0#1 ++ 0b000000#6 ++ 0b01#2) = .ok (.lwr .idat false) := by decide

theorem test_decode_bit_words :
    decode (0b00100000#8 ++ 0b00000000000000000000000#23 ++ 0b1#1) = .ok (.sbit true)
      ∧ decode (0b00100001#8 ++ 0b000000000000000000000000#24) = .ok .rbit := by decide

theorem test_decode_word_words :
    decode (0b00110000#8 ++ 0b00000000#8 ++ 0b1011111011101111#16) = .ok (.sbyte 0xBEEF)
      ∧ decode (0b00110001#8 ++ 0b000000000000000000000000#24) = .ok .rbyte := by decide

theorem test_decode_session_words :
    decode (0b01000000#8 ++ 0b000000000000000000000000#24) = .ok .enable
      ∧ decode (0b01000001#8 ++ 0b000000000000000000000000#24) = .ok .disable
      ∧ decode (0b01000010#8 ++ 0b000000000000000000000000#24) = .ok .wfs
      ∧ decode (0b01000011#8 ++ 0b00000000#8 ++ 0b1000000000000001#16) = .ok (.sblk 0x8001)
      ∧ decode (0b01000100#8 ++ 0b00000000#8 ++ 0b0000000100000000#16) = .ok (.rblk 256) := by decide

theorem test_decode_buffer_words :
    decode (0b01010000#8 ++ 0b1111111100000001#16 ++ 0b10000010#8) = .ok (.bufw 0xFF01 0x82)
      ∧ decode (0b01010001#8 ++ 0b1000000000000011#16 ++ 0b00000000#8) = .ok (.bufr 0x8003) := by decide

theorem test_decode_file_words :
    decode (0b01100000#8 ++ 0b101010111100110100000001#24) = .ok .reqfl
      ∧ decode (0b01100001#8 ++ 0b000000000000000000000000#24) = .ok .listf
      ∧ decode (0b01100010#8 ++ 0b000000000000000000000000#24) = .ok .sendf
      ∧ decode (0b01100011#8 ++ 0b111111111111111111111111#24) = .ok .retrf := by decide

/-- The words of L2.8, LD7, LD8, BT4, BF6, BF17, BA6 and B13. -/
theorem test_decode_unassigned :
    [0x00000000#32, 0xFFFFFFFF, 0x0F000000, 0x13000000, 0x22000000, 0x45000000, 0x52000000, 0x64000000].all (fun w =>
      decide (decode w = .error .unassignedOpcode)) = true := by rfl

theorem test_decode_must_be_zero :
    [0x40000001#32, 0x41000100, 0x11000100, 0x10000200, 0x20000002, 0x30010000, 0x31000001, 0x51000201, 0x43010000].all (fun w =>
      decide (decode w = .error .mustBeZeroBit)) = true := by rfl

theorem test_decode_table_word : decodeTableWord 32 0x5000027F = some (.bufw 2 0x7F) ∧ decodeTableWord 32 0x13000000 = none :=
  ⟨rfl, rfl⟩

/-- The spellings of R83. -/
theorem test_assemble :
    assembleProgram ["LCFG ODAT, OUT".toList, "; a comment".toList, "  BUFW 0x02, 127 ; comment".toList, "WFS".toList]
      = .ok [0x10000103, 0x5000027F, 0x42000000]
    ∧ assembleLine "SBYTE 0x10000".toList = .error .badOperand ∧ assembleLine "NOP".toList = .error .unknownMnemonic := by
  decide

/-! ### Small states -/

/-- The word `w` issued from reset. -/
def issued (w : Word) : State := State.reset.withFetchWord 32 w.toNat

/-- After SS1: Idle. -/
def idleState : State := { State.reset with dir := enabledDirs, sess := .idle }

/-- After the prefix T0: Transferring, RESYNC = 0, the peer holding IDAT = 1. -/
def t0State : State := { State.reset with dir := enabledDirs, sess := .transferring, extDat := true }

/-- `s` with the command word `w` running. -/
def running (s : State) (w : Word) : State := { s with cur := w, busy := true }

/-- A receive command of T0 in its second poll: the edge is awaited. -/
def polling (w : Word) : State := { running t0State w with seq := .poll, phase := .waitActive, pollCnt := 1 }

/-- A WFS from Idle after its first poll, which matched pattern 0. -/
def handshaking : State :=
  { running idleState 0x42000000 with sess := .syncing, prior := .idle, hsIdx := 1, pollCnt := 1, seq := .hsPoll }

/-- A send command of T0 before its last clock return. -/
def lastClock (w : Word) : State := { running t0State w with seq := .clkIdle [], out := ⟨false, false, true, true⟩ }

/-- Whether the step from `s` is a next state with the property `p`. -/
def stepsTo (s : State) (p : State → Bool) : Bool :=
  match step s with
  | .next t => p t
  | .fault _ => false
  | .refused _ => false

/-! ### One step of each command (vectors of spec/95_test_vectors.md) -/

/-- LD1. -/
theorem test_lcfg : stepsTo (issued 0x10000103) (fun t =>
    t.dir == ⟨.uncfg, .uncfg, .uncfg, .out⟩ && t.status == 0 && t.events == [.issue 0x10000103, .cfg .odat .out, .done 0]
      && t.pin .odat == some false) = true := by decide

/-- LD9. -/
theorem test_lcfg_enabled : stepsTo (running idleState 0x10000000) (fun t =>
    t.status == 0x161 && t.dir == enabledDirs && t.mfault == some .hwFault) = true := by decide

/-- LD3. -/
theorem test_lrd : stepsTo (running { State.reset with extClk := true, dir := ⟨.inp, .uncfg, .uncfg, .uncfg⟩ } 0x11000000) (fun t =>
    t.res == 1 && t.status == 0 && t.events == [.inp .iclk true, .done 0]) = true := by decide

/-- LD4. -/
theorem test_lrd_unconfigured : stepsTo (issued 0x11000000) (fun t => t.status == 0x110 && t.res == 0) = true := by decide

/-- LD2. -/
theorem test_lwr : stepsTo (running { State.reset with dir := ⟨.uncfg, .uncfg, .uncfg, .out⟩ } 0x12000103) (fun t =>
    t.out == ⟨false, false, false, true⟩ && t.status == 0 && t.events == [.out .odat true, .done 0]) = true := by decide

/-- LD5. -/
theorem test_lwr_input : stepsTo (running { State.reset with dir := ⟨.inp, .uncfg, .uncfg, .uncfg⟩ } 0x12000100) (fun t =>
    t.status == 0x110 && t.out == State.reset.out) = true := by decide

/-- BT2, third micro-step. -/
theorem test_sbit_end : stepsTo (lastClock 0x20000001) (fun t =>
    t.status == 0x003 && (readLines t).1 == 0x8A5A && t.events == [.out .oclk false, .done 0]) = true := by decide

/-- BT4: the must-be-zero bit 1 of SBIT, from T0. -/
theorem test_sbit_illegal : stepsTo (running t0State 0x20000002) (fun t =>
    t.status == 0x173 && t.events == [.done 7]) = true := by decide

/-- BT7, poll 2. -/
theorem test_rbit_end : stepsTo { polling 0x21000000 with extClk := true } (fun t =>
    t.res == 1 && t.pollCnt == 2 && t.status == 0x003 && t.events == [.inp .iclk true, .inp .idat true, .done 0]) = true := by
  decide

/-- L1.4a, poll 2. -/
theorem test_rbit_timeout : stepsTo { polling 0x21000000 with cfg := { Cfg.default with timeout := some 2 } } (fun t =>
    t.status == 0x027 && t.res == 0) = true := by decide

/-- The table of L1.1, row 0xCA. -/
theorem test_wire_bits :
    wireBits Cfg.default 0xCA = [true, true, false, false, true, false, true, false]
      ∧ wireBits { Cfg.default with bitOrder := .lsbFirst } 0xCA = [false, true, false, true, false, false, true, true]
      ∧ wireBits { Cfg.default with parity := .odd } 0xCA = [true, true, false, false, true, false, true, false, true]
      ∧ wireBits { Cfg.default with parity := .even, bitOrder := .lsbFirst } 0xCA
        = [false, true, false, true, false, false, true, true, false] := by decide

/-- BF1, first micro-step. -/
theorem test_sbyte_first : stepsTo (running t0State 0x300000A5) (fun t =>
    t.events == [.out .odat true] && t.seq == .clkActive [false, true, false, false, true, false, true] && t.status == 0x00B)
      = true := by decide

/-- BF5. -/
theorem test_sbyte_too_wide : stepsTo (running t0State 0x30000100) (fun t => t.status == 0x173 && t.events == [.done 7])
    = true := by decide

/-- BF11, the last poll: seven bits of 0xCA received, the eighth is 0. -/
theorem test_rbyte_end :
    stepsTo { polling 0x31000000 with sr := 0x65, bitCnt := 7, extClk := true, extDat := false } (fun t =>
      t.res == 0xCA && t.status == 0x003) = true := by decide

/-- BF15, the last poll: the parity bit 1 after 0xCA under EVEN parity. -/
theorem test_rbyte_parity :
    stepsTo { polling 0x31000000 with cfg := { Cfg.default with parity := .even }, sr := 0xCA, bitCnt := 8, extClk := true }
      (fun t => t.status == 0x037 && t.res == 0) = true := by decide

/-- SS1. -/
theorem test_enable : stepsTo (issued 0x40000000) (fun t =>
    t.events == [.issue 0x40000000, .out .oclk false, .out .odat false, .cfg .iclk .inp, .cfg .idat .inp, .cfg .oclk .out,
      .cfg .odat .out, .done 0] && t.status == 0x001 && (readLines t).1 == 0xA50) = true := by decide

/-- SS2. -/
theorem test_enable_twice : stepsTo (running idleState 0x40000000) (fun t => t.status == 0x161) = true := by decide

/-- SS3. -/
theorem test_disable_disabled : stepsTo (issued 0x41000000) (fun t =>
    t.events == [.issue 0x41000000, .done 0] && t.status == 0) = true := by decide

/-- SS5. -/
theorem test_disable : stepsTo (running { t0State with cfg := { Cfg.default with disableLevel := true } } 0x41000000) (fun t =>
    t.events == [.out .oclk true, .out .odat true, .done 0] && t.status == 0 && (readLines t).1 == 0xCA5E) = true := by decide

/-- SS8, poll 2. -/
theorem test_wfs_end : stepsTo { handshaking with extDat := true } (fun t =>
    t.status == 0x003 && t.events == [.inp .iclk false, .inp .idat true, .done 0]) = true := by decide

/-- L1.4b, poll 4. -/
theorem test_wfs_timeout :
    stepsTo { handshaking with cfg := { Cfg.default with timeout := some 4 }, hsIdx := 0, pollCnt := 3, extDat := true } (fun t =>
      t.status == 0x025) = true := by decide

/-- B4. -/
theorem test_sblk_length : stepsTo (running { t0State with cfg := { Cfg.default with lenBytes := .one } } 0x43000100) (fun t =>
    t.status == 0x045 && t.events == [.done 4]) = true := by decide

/-- B10, micro-step 49. -/
theorem test_sblk_uninit : stepsTo { running t0State 0x43000001 with seq := .elem, part := .data, bLen := 1 } (fun t =>
    t.mfault == some .uninitRead && t.status == 0x00B && t.events == []) = true := by decide

/-- B18, the last prefix poll: the length 0x0011 is above the capacity 16. -/
theorem test_rblk_too_long :
    stepsTo { polling 0x44000010 with part := .lenByte 1, lenAcc := [0x11], bitCnt := 7, extClk := true, extDat := false } (fun t =>
      t.status == 0x045 && t.res == 0 && t.buf == []) = true := by decide

/-- B16, the last poll: the second data byte 0x55. -/
theorem test_rblk_end :
    stepsTo { polling 0x44000010 with
      part := .data, bLen := 2, bIdx := 1, buf := [(0, 0xAA)], sr := 0x2A, bitCnt := 7, extClk := true } (fun t =>
      t.buf == [(0, 0xAA), (1, 0x55)] && t.res == 2 && t.status == 0x001) = true := by decide

/-- BA4, the last byte. -/
theorem test_bufw : stepsTo (issued 0x5000FFEE) (fun t => t.buf == [(255, 0xEE)] && t.status == 0) = true := by decide

/-- BA3. -/
theorem test_bufw_range : stepsTo (issued 0x50010000) (fun t => t.status == 0x160 && t.buf == []) = true := by decide

/-- BA2. -/
theorem test_bufr : stepsTo (running { State.reset with buf := [(2, 0x7F)] } 0x51000200) (fun t => t.res == 0x7F && t.status == 0)
    = true := by decide

/-- BA5. -/
theorem test_bufr_uninit : stepsTo (issued 0x51000300) (fun t =>
    t.mfault == some .uninitRead && t.status == 0x008 && t.res == 0) = true := by decide

/-- FL2 and FL3. -/
theorem test_file_level : [0x6000ABCD#32, 0x61000000, 0x62000000, 0x63000000].all (fun w => stepsTo (issued w) (fun t =>
    t.refused == some .fileLevelOp && t.status == 0x008 && t.events == [.issue w])) = true := by rfl

/-- FL1: the step after it names the refusal. -/
theorem test_file_level_stops :
    step { running State.reset 0x60000000 with refused := some .fileLevelOp } = .refused .fileLevelOp := rfl

/-- B12, and the priority of L2.8: the refusal before the legality check. -/
theorem test_block_width : stepsTo (running { State.reset with cfg := { Cfg.default with width := 7 } } 0x43000001) (fun t =>
    t.refused == some .blockWidth && t.status == 0x008) = true := by decide

/-- L2.8: the first step of a word that is no command. -/
theorem test_illegal_words : [0x00000000#32, 0xFFFFFFFF, 0x40000001, 0x41000100].all (fun w => stepsTo (issued w) (fun t =>
    t.status == 0x170 && t.mfault == some .hwFault && t.events == [.issue w, .done 7])) = true := by rfl

/-- H2, H3, H4, H5, H7. -/
theorem test_host :
    stepsTo { State.reset with res := 0x7F, agenda := [.host ⟨8, 4, none⟩] } (fun t => t.hostGot == some 0x7F) = true
      ∧ stepsTo { idleState with agenda := [.host ⟨4, 4, some 0xFFFFFFFF⟩] } (fun t => t.status == 0x001) = true
      ∧ stepsTo { State.reset with agenda := [.host ⟨2, 4, none⟩] } (fun t => t.refused == some .hostAccess) = true
      ∧ stepsTo { State.reset with fault := true, err := 1, mfault := some .hwFault, agenda := [.host ⟨0, 4, some 0x41000000⟩] }
        (fun t => t.status == 0x110 && t.events == []) = true
      ∧ stepsTo { State.reset with fault := true, err := 1, mfault := some .hwFault, res := 5, agenda := [.reset] } (fun t =>
        t.status == 0 && t.res == 0 && t.mfault == some .hwFault) = true := by decide

/-! ### Witnesses: for every obligation with hypotheses, states and operands that meet them, clause by clause -/

/-- A state between two commands meets the invariant. -/
theorem inv_between {s : State} (cfg : s.cfg.wf = true) (buf : s.buf = []) (err : s.err = 0) (sess : s.sess ≠ .syncing)
    (dirs : s.sess ≠ .disabled → s.dir = enabledDirs) (resync : s.sess = .disabled → s.resync = false) (sr : s.sr = 0)
    (cnt : s.bitCnt = 0) (poll : s.pollCnt = 0) (fault : s.fault = false) (seq : s.seq = .start) : MachineInv s where
  cfg      := cfg
  bufForm  := by rw [buf]; decide
  bufRange := by simp [buf]
  errCode  := by rw [err]; decide
  dirs     := dirs
  resync   := resync
  sr       := by rw [sr]; exact Nat.two_pow_pos _
  bitCnt   := by rw [cnt]; exact Nat.zero_le _
  pollCnt  := by simp [poll]
  polling  := by simp [seq]
  marked   := by simp [fault]
  idle     := fun _ => seq
  syncing  := fun h => absurd h sess
  running  := fun h => absurd seq h

/-- Every word issued in T0, in Idle or after reset. -/
theorem inv_running_t0 (w : Word) : MachineInv (running t0State w) :=
  inv_between rfl rfl rfl nofun (fun _ => rfl) nofun rfl rfl rfl rfl rfl

theorem inv_running_idle (w : Word) : MachineInv (running idleState w) :=
  inv_between rfl rfl rfl nofun (fun _ => rfl) nofun rfl rfl rfl rfl rfl

theorem inv_issued (w : Word) : MachineInv (issued w) :=
  inv_between rfl rfl rfl nofun (fun h => absurd rfl h) (fun _ => rfl) rfl rfl rfl rfl rfl

/-- A WFS between two polls. -/
theorem inv_handshaking (v : Bit) (w : Option Nat) (hw : w = none ∨ w = some 2) :
    MachineInv { handshaking with cfg := { Cfg.default with timeout := w }, extDat := v } where
  cfg      := by rcases hw with rfl | rfl <;> rfl
  bufForm  := .nil
  bufRange := by simp [handshaking, running, idleState, State.reset]
  errCode  := by show 0 < 8; decide
  dirs     := fun _ => rfl
  resync   := nofun
  sr       := by show 0 < 256; decide
  bitCnt   := Nat.zero_le _
  pollCnt  := by rcases hw with rfl | rfl <;> simp [handshaking]
  polling  := fun _ => by rcases hw with rfl | rfl <;> simp [handshaking]
  marked   := nofun
  idle     := nofun
  syncing  := fun _ => rfl
  running  := fun _ => ⟨.wfs, (by decide : decode 0x42000000 = .ok .wfs), rfl, rfl, .inl rfl, by show 1 < 2; decide⟩

theorem witness_DecodedWordIsTheEncoding : decode 0x5000027F = .ok (.bufw 2 0x7F) ∧ fileLevel (.bufw 2 0x7F) = false :=
  ⟨rfl, rfl⟩

/-- The hypotheses on the state, for every issued word. -/
theorem witness_IllegalWordsRaiseIllegalCommand (w : Word) : (issued w).cfg.wf = true ∧ (issued w).agenda = []
    ∧ (issued w).blockEnabled ∧ (issued w).seq = .start := ⟨rfl, rfl, ⟨rfl, rfl, rfl, rfl⟩, rfl⟩

/-- Each clause on the word, at the ends of its range. -/
theorem witness_IllegalWordsRaiseIllegalCommand_clauses :
    (fieldOp (issued 0x0FFFFFFF).cur).toNat < 0x10
      ∧ (0x13 ≤ (fieldOp (issued 0x13000000).cur).toNat ∧ (fieldOp (issued 0x1F000000).cur).toNat ≤ 0x1F)
      ∧ (0x22 ≤ (fieldOp (issued 0x22000000).cur).toNat ∧ (fieldOp (issued 0x2F000000).cur).toNat ≤ 0x2F)
      ∧ (0x32 ≤ (fieldOp (issued 0x32000000).cur).toNat ∧ (fieldOp (issued 0x3F000000).cur).toNat ≤ 0x3F)
      ∧ (0x45 ≤ (fieldOp (issued 0x45000000).cur).toNat ∧ (fieldOp (issued 0x4F000000).cur).toNat ≤ 0x4F)
      ∧ (0x52 ≤ (fieldOp (issued 0x52000000).cur).toNat ∧ (fieldOp (issued 0x5F000000).cur).toNat ≤ 0x5F)
      ∧ 0x64 ≤ (fieldOp (issued 0x64000000).cur).toNat
      ∧ (∃ r : Row, r.opcode = fieldOp (issued 0x40000001).cur ∧ r.isFormatX = false
          ∧ (issued 0x40000001).cur &&& r.mask ≠ r.pattern)
      ∧ ∃ imm : BitVec 16, (issued 0x30000100).cur = encode (.sbyte imm) ∧ 2 ^ (issued 0x30000100).cfg.width ≤ imm.toNat :=
  ⟨by decide, ⟨by decide, by decide⟩, ⟨by decide, by decide⟩, ⟨by decide, by decide⟩, ⟨by decide, by decide⟩,
    ⟨by decide, by decide⟩, by decide, ⟨.enable, by decide, by decide, by decide⟩, ⟨0x100, by decide, by decide⟩⟩

theorem witness_StepRunsTheDecodedCommand :
    (issued 0x21000000).cfg.wf = true ∧ (issued 0x21000000).blockEnabled ∧ decode (issued 0x21000000).cur = .ok .rbit
      ∧ (issued 0x21000000).agenda = [] ∧ { issued 0x21000000 with agenda := [.block] }.agenda = .block :: [] :=
  ⟨rfl, ⟨rfl, rfl, rfl, rfl⟩, rfl, rfl, rfl⟩

theorem witness_MarkedBlockTakesNoMicroStep :
    State.reset.cfg.wf = true ∧ State.reset.agenda = []
      ∧ { State.reset with mfault := some .hwFault }.mfault = some .hwFault
      ∧ { State.reset with mfault := some .uninitRead }.mfault = some .uninitRead
      ∧ ({ State.reset with refused := some .hostAccess }.mfault = none
          ∧ { State.reset with refused := some .hostAccess }.refused = some .hostAccess)
      ∧ { State.reset with agenda := [.block] }.agenda = .block :: [] :=
  ⟨rfl, rfl, rfl, rfl, ⟨rfl, rfl⟩, rfl⟩

theorem witness_IdleBlockTakesTheNextProgramWord :
    State.reset.cfg.wf = true ∧ State.reset.agenda = [] ∧ State.reset.busy = false ∧ State.reset.unmarked
      ∧ State.reset.program = [] ∧ { State.reset with program := [0x40000000] }.program = 0x40000000 :: [] :=
  ⟨rfl, rfl, rfl, ⟨rfl, rfl, rfl⟩, rfl, rfl⟩

theorem witness_IllFormedConfigurationIsRefused :
    { Cfg.default with width := 0 }.wf = false ∧ { State.reset with cfg := { Cfg.default with width := 0 } }.cfg.wf = false :=
  ⟨rfl, rfl⟩

theorem witness_StepKeepsTheInvariant :
    MachineInv (running t0State 0x300000A5) ∧ ∃ t, step (running t0State 0x300000A5) = .next t :=
  ⟨inv_running_t0 _, _, rfl⟩

theorem witness_InvariantExcludesInternalStops :
    MachineInv { handshaking with cfg := { Cfg.default with timeout := none }, extDat := true } := inv_handshaking true none (.inl rfl)

/-- A block that has both marks: a reset is still a step. -/
theorem witness_MarksAreNeverCleared :
    ∃ t, step { State.reset with mfault := some .uninitRead, refused := some .hostAccess, agenda := [.reset] } = .next t := ⟨_, rfl⟩

theorem witness_ConfigurationIsNeverChanged : ∃ t, step (running t0State 0x41000000) = .next t := ⟨_, rfl⟩

/-- A state stopped by a fatal error. -/
def faulted (ms : List Move) : State := { State.reset with fault := true, err := 1, mfault := some .hwFault, agenda := ms }

theorem witness_FaultFlagFollowsItsRule :
    (∃ t, step (issued 0x11000000) = .next t ∧ (issued 0x11000000).busy = true ∧ t.busy = false
        ∧ Err.recoverable .lineDirection = false ∧ t.err = Err.code .lineDirection)
      ∧ (∃ t, step (issued 0x11000000) = .next t ∧ (issued 0x11000000).fault = false ∧ t.fault = true)
      ∧ (∃ t, step (faulted [.peer .iclk true]) = .next t ∧ (faulted [.peer .iclk true]).fault = true
          ∧ ∀ ms, (faulted [.peer .iclk true]).agenda ≠ .reset :: ms)
      ∧ ((faulted [.reset]).cfg.wf = true ∧ (faulted [.reset]).agenda = .reset :: [])
      ∧ ((faulted []).cfg.wf = true ∧ (faulted []).fault = true ∧ (faulted []).agenda = [])
      ∧ (faulted [.block]).agenda = .block :: []
      ∧ ((faulted [.host ⟨0, 4, some 0x41000000⟩]).fault = true
          ∧ (faulted [.host ⟨0, 4, some 0x41000000⟩]).agenda = .host ⟨0, 4, some 0x41000000⟩ :: []) :=
  ⟨⟨_, rfl, rfl, rfl, rfl, rfl⟩, ⟨_, rfl, rfl, rfl⟩, ⟨_, rfl, rfl, by simp [faulted]⟩, ⟨rfl, rfl⟩, ⟨rfl, rfl, rfl⟩, rfl, ⟨rfl, rfl⟩⟩

theorem witness_HostResetAppliesTheTable : (faulted [.reset]).cfg.wf = true ∧ (faulted [.reset]).agenda = .reset :: [] := ⟨rfl, rfl⟩

/-- One micro-step of each kind of command, for the statements about every command. -/
theorem witness_CommandsLeaveTheEnvironmentAlone :
    (∃ t, exec (.lcfg .odat true) (issued 0x10000103) = .next t) ∧ (∃ t, exec .rbyte (polling 0x31000000) = .next t)
      ∧ (∃ t, exec (.sblk 0) (running t0State 0x43000000) = .next t) := ⟨⟨_, rfl⟩, ⟨_, rfl⟩, ⟨_, rfl⟩⟩

/-- An RBLK of two data bytes at the last poll of the second. -/
def lastDataPoll : State :=
  { polling 0x44000010 with part := .data, bLen := 2, bIdx := 1, buf := [(0, 0xAA)], sr := 0x2A, bitCnt := 7, extClk := true }

theorem witness_BufferBytesOutsideTheStoreAreKept :
    ((∃ t, exec (.bufw 255 0xEE) (issued 0x5000FFEE) = .next t) ∧ 254 ≠ (255 : BitVec 16).toNat)
      ∧ ((∃ t, exec (.rblk 16) lastDataPoll = .next t) ∧ 0 ≠ lastDataPoll.bIdx.toNat)
      ∧ ((∃ t, exec (.rblk 16) { lastDataPoll with part := .endMarker } = .next t) ∧ Part.endMarker ≠ .data)
      ∧ ∃ t, exec (.sblk 1) (lastClock 0x43000001) = .next t :=
  ⟨⟨⟨_, rfl⟩, by decide⟩, ⟨⟨_, rfl⟩, by decide⟩, ⟨⟨_, rfl⟩, by decide⟩, ⟨_, rfl⟩⟩

theorem witness_ResultChangesOnlyOnSuccess :
    (∃ t, exec (.lrd .iclk) { State.reset with extClk := true, dir := ⟨.inp, .uncfg, .uncfg, .uncfg⟩ } = .next t ∧ t.res ≠ 0)
      ∧ (∃ t, exec .rbit { polling 0x21000000 with extClk := true } = .next t ∧ t.res ≠ 0)
      ∧ (∃ t, exec .rbyte { polling 0x31000000 with sr := 0x65, bitCnt := 7, extClk := true } = .next t ∧ t.res ≠ 0)
      ∧ (∃ t, exec (.bufr 2) { State.reset with buf := [(2, 0x7F)] } = .next t ∧ t.res ≠ 0)
      ∧ ∃ t, exec (.rblk 16) lastDataPoll = .next t ∧ t.res ≠ lastDataPoll.res :=
  ⟨⟨_, rfl, by decide⟩, ⟨_, rfl, by decide⟩, ⟨_, rfl, by decide⟩, ⟨_, rfl, by decide⟩, ⟨_, rfl, by decide⟩⟩

/-- A micro-step that goes on, and one that ends its command. -/
theorem witness_StatusChangesOnlyAtTheCommandsEnd :
    (∃ t, exec (.sbit true) (running t0State 0x20000001) = .next t ∧ t.busy = true)
      ∧ ∃ t, exec (.sbit true) (lastClock 0x20000001) = .next t ∧ t.busy = false := ⟨⟨_, rfl, rfl⟩, ⟨_, rfl, rfl⟩⟩

theorem witness_DirectionsAndLatchesOutsideAreKept :
    ((∃ t, exec (.lcfg .odat true) State.reset = .next t) ∧ LineId.oclk ≠ .odat)
      ∧ ((∃ t, exec (.lwr .oclk true) { State.reset with dir := enabledDirs } = .next t) ∧ LineId.odat ≠ .oclk)
      ∧ (∃ t, exec .enable State.reset = .next t)
      ∧ ((∃ t, exec .disable t0State = .next t) ∧ t0State.dir.get .idat ≠ .out)
      ∧ (∃ t, exec (.sbit true) (lastClock 0x20000001) = .next t) ∧ (∃ t, exec (.sbyte 1) (lastClock 0x30000001) = .next t)
      ∧ (∃ t, exec (.sblk 1) (lastClock 0x43000001) = .next t) ∧ ∃ t, exec .wfs handshaking = .next t :=
  ⟨⟨⟨_, rfl⟩, by decide⟩, ⟨⟨_, rfl⟩, by decide⟩, ⟨_, rfl⟩, ⟨⟨_, rfl⟩, by decide⟩, ⟨_, rfl⟩, ⟨_, rfl⟩, ⟨_, rfl⟩, ⟨_, rfl⟩⟩

theorem witness_OnlyResetTakesBackDirectionsAndBytes :
    (∃ t, step lastDataPoll = .next t) ∧ (∀ ms, lastDataPoll.agenda ≠ .reset :: ms) ∧ lastDataPoll.dir.get .oclk ≠ .uncfg
      ∧ (lastDataPoll.buf.read 0).isSome := ⟨⟨_, rfl⟩, by simp [lastDataPoll, polling, running, t0State, State.reset], by decide, rfl⟩

theorem witness_SessionKeptByLineBitWordAndBufferCommands :
    (∃ t, exec (.lrd .iclk) (issued 0x11000000) = .next t)
      ∧ ∃ t, exec .rbit { polling 0x21000000 with cfg := { Cfg.default with timeout := some 2 } } = .next t ∧ t.resync = true :=
  ⟨⟨_, rfl⟩, ⟨_, rfl, rfl⟩⟩

/-- One change of SESS for each command that has one; three for WFS. -/
theorem witness_SessionChangesAreTheTable :
    (MachineInv (issued 0x40000000) ∧ decode (issued 0x40000000).cur = .ok .enable
        ∧ ∃ t, exec .enable (issued 0x40000000) = .next t ∧ t.sess = .idle)
      ∧ (MachineInv (running t0State 0x41000000) ∧ decode (running t0State 0x41000000).cur = .ok .disable
        ∧ ∃ t, exec .disable (running t0State 0x41000000) = .next t ∧ t.sess = .disabled)
      ∧ (MachineInv (running idleState 0x42000000) ∧ decode (running idleState 0x42000000).cur = .ok .wfs
        ∧ ∃ t, exec .wfs (running idleState 0x42000000) = .next t ∧ t.sess = .syncing)
      ∧ (MachineInv { handshaking with cfg := { Cfg.default with timeout := none }, extDat := true }
        ∧ ∃ t, exec .wfs { handshaking with cfg := { Cfg.default with timeout := none }, extDat := true } = .next t
            ∧ t.sess = .transferring)
      ∧ (MachineInv { handshaking with cfg := { Cfg.default with timeout := some 2 }, extDat := false }
        ∧ ∃ t, exec .wfs { handshaking with cfg := { Cfg.default with timeout := some 2 }, extDat := false } = .next t
            ∧ t.sess = .idle)
      ∧ (∃ s, MachineInv s ∧ decode s.cur = .ok (.sblk 256) ∧ s.sess = .transferring
          ∧ ∃ t, exec (.sblk 256) s = .next t ∧ t.sess = .idle)
      ∧ ∃ s, MachineInv s ∧ decode s.cur = .ok (.rblk 0) ∧ s.sess = .transferring ∧ ∃ t, exec (.rblk 0) s = .next t ∧ t.sess = .idle :=
  ⟨⟨inv_issued _, rfl, _, rfl, rfl⟩, ⟨inv_running_t0 _, rfl, _, rfl, rfl⟩, ⟨inv_running_idle _, rfl, _, rfl, rfl⟩,
    ⟨inv_handshaking true none (.inl rfl), _, rfl, rfl⟩, ⟨inv_handshaking false (some 2) (.inr rfl), _, rfl, rfl⟩,
    ⟨{ running t0State 0x43000100 with cfg := { Cfg.default with lenBytes := .one } },
      inv_between rfl rfl rfl nofun (fun _ => rfl) nofun rfl rfl rfl rfl rfl, rfl, rfl, _, rfl, rfl⟩,
    ⟨{ running t0State 0x44000000 with cfg := { Cfg.default with blockMode := .fixed, blockLen := some 1 } },
      inv_between rfl rfl rfl nofun (fun _ => rfl) nofun rfl rfl rfl rfl rfl, rfl, rfl, _, rfl, rfl⟩⟩

/-- The hypotheses of IllegalSessionStateRaisesUsageError for the instruction `i` in `s`. -/
def illegalHere (i : Instr) (s : State) : Bool :=
  s.seq == .start && !legalIn i s.sess s.resync && i.wf s.cfg && (!blockCommand i || s.cfg.width == 8)

theorem witness_IllegalSessionStateRaisesUsageError :
    illegalHere (.lcfg .iclk true) idleState && illegalHere (.sbit true) idleState
      && illegalHere (.sbyte 0xFF) { t0State with resync := true } && illegalHere (.sblk 1) idleState
      && illegalHere (.rblk 1) { t0State with resync := true } && illegalHere .enable idleState && illegalHere .wfs State.reset
      = true := by decide

theorem witness_OperandBeyondTheBufferRaisesUsageError :
    t0State.seq = .start ∧ t0State.t0 ∧ t0State.cfg.width = 8 ∧ t0State.cfg.bufSize < (257 : BitVec 16).toNat
      ∧ t0State.cfg.bufSize ≤ (256 : BitVec 16).toNat := ⟨rfl, ⟨rfl, rfl⟩, rfl, by decide, by decide⟩

theorem witness_LcfgConfiguresItsLine : State.reset.sess = .disabled := rfl

/-- A peer line, and a line the peer does not drive. -/
theorem witness_LrdReadsAnInputLine :
    State.reset.sess = .disabled ∧ (∀ ln, { State.reset with dir := ⟨.inp, .inp, .inp, .inp⟩ }.dir.get ln = .inp) :=
  ⟨rfl, fun ln => by cases ln <;> rfl⟩

theorem witness_LwrWritesTheLatch :
    State.reset.sess = .disabled ∧ { State.reset with dir := ⟨.uncfg, .uncfg, .uncfg, .out⟩ }.dir.get .odat = .out := ⟨rfl, rfl⟩

theorem witness_WrongDirectionRaisesLineDirectionError :
    State.reset.sess = .disabled ∧ State.reset.dir.get .iclk ≠ .inp ∧ State.reset.dir.get .odat ≠ .out
      ∧ enabledDirs.get .odat ≠ .inp ∧ enabledDirs.get .iclk ≠ .out := ⟨rfl, by decide, by decide, by decide, by decide⟩

/-- T0 is ready for every transfer command. -/
theorem ready (w : Word) : TransferReady (running t0State w) := ⟨⟨rfl, rfl⟩, rfl, rfl⟩

theorem witness_SbitSendsOneBit : TransferReady (running t0State 0x20000001) := ready _

theorem witness_RbitReceivesOneBit :
    TransferReady (running t0State 0x21000000) ∧ (running t0State 0x21000000).extClk = (running t0State 0x21000000).cfg.idle
      ∧ (running t0State 0x21000000).cfg.timeout ≠ some 1 := ⟨ready _, rfl, by decide⟩

theorem witness_RbitPollWithoutEdgeGoesOn :
    (polling 0x21000000).dir.iclk = .inp ∧ (polling 0x21000000).seq = .poll
      ∧ (polling 0x21000000).cfg.timeout ≠ some ((polling 0x21000000).pollCnt + 1)
      ∧ { polling 0x31000000 with phase := .waitIdle, extClk := true }.phase = .waitIdle
      ∧ ((polling 0x44000010).phase = .waitActive ∧ (polling 0x44000010).extClk = (polling 0x44000010).cfg.idle)
      ∧ (polling 0x21000000).cfg.wf = true ∧ (polling 0x21000000).cfg.timeout ≠ some 1 :=
  ⟨rfl, rfl, by decide, rfl, ⟨rfl, rfl⟩, rfl, by decide⟩

/-- The first poll of each receive command in T0, of a later bit of a word, and of a later element of a block. -/
theorem witness_firstPoll (c : Cfg) (h : c.width = 8) (hb : 16 ≤ c.bufSize) (hm : c.blockMode = .prefixed) :
    firstPoll .rbit { running t0State 0x21000000 with cfg := c } ∧ firstPoll .rbyte { running t0State 0x31000000 with cfg := c }
      ∧ firstPoll (.rblk 16) { running t0State 0x44000010 with cfg := c }
      ∧ firstPoll .rbyte { running t0State 0x31000000 with cfg := c, seq := .recvBit, sr := 1, bitCnt := 1 }
      ∧ firstPoll (.rblk 16) { running t0State 0x44000010 with cfg := c, seq := .elem, part := .lenByte 1 } :=
  ⟨⟨rfl, rfl, rfl⟩, .inl ⟨rfl, rfl, rfl⟩, .inl ⟨rfl, ⟨rfl, rfl⟩, h, hb, by simp [recvLenOk, hm]⟩, .inr rfl, .inr (.inr rfl)⟩

/-- A poll of T0 at the bound 2. -/
def atTheBound (w : Word) : State := { polling w with cfg := { Cfg.default with timeout := some 2 } }

theorem witness_PollAtTheBoundRaisesTimeoutError (w : Word) :
    (atTheBound w).dir.iclk = .inp ∧ (atTheBound w).seq = .poll ∧ (atTheBound w).cfg.timeout = some ((atTheBound w).pollCnt + 1)
      ∧ (atTheBound w).extClk = (atTheBound w).cfg.idle
      ∧ { atTheBound w with phase := .waitIdle, extClk := true }.phase = .waitIdle
      ∧ ({ Cfg.default with timeout := some 1 }.wf = true ∧ { Cfg.default with timeout := some 1 }.width = 8
          ∧ 16 ≤ { Cfg.default with timeout := some 1 }.bufSize ∧ { Cfg.default with timeout := some 1 }.blockMode = .prefixed) :=
  ⟨rfl, rfl, rfl, rfl, rfl, rfl, rfl, by decide, rfl⟩

theorem witness_ParityMakesTheCountEvenOrOdd :
    { Cfg.default with parity := .even }.parity = .even ∧ { Cfg.default with parity := .odd }.parity = .odd := ⟨rfl, rfl⟩

theorem witness_SbyteSendsTheWord :
    TransferReady (running t0State 0x300000FF) ∧ 1 ≤ (running t0State 0x300000FF).cfg.width
      ∧ (0xFF : BitVec 16).toNat < 2 ^ (running t0State 0x300000FF).cfg.width := ⟨ready _, by decide, by decide⟩

/-- The wire bits of a word, each after no extra poll, under the tightest bound: TIMEOUT = 2. -/
def promptBits (bits : List Bit) : List (Bit × Nat) := bits.map fun b => (b, 0)

theorem promptBits_patient (c : Cfg) (bits : List Bit) (h : c.timeout = some 2) : patient c (promptBits bits) := by
  intro p hp t ht
  rw [h] at ht
  cases ht
  obtain ⟨b, _, rfl⟩ := List.mem_map.mp hp
  exact Nat.lt_succ_self 1

theorem promptBits_fst (bits : List Bit) : (promptBits bits).map Prod.fst = bits := by
  simp [promptBits, Function.comp_def]

def tight : Cfg := { Cfg.default with timeout := some 2 }

def rbyteOfCA : State :=
  { running t0State 0x31000000 with cfg := tight, agenda := bitsMoves tight (promptBits (wireBits tight 0xCA)) }

theorem witness_RbyteReceivesWhatThePeerPresents :
    rbyteOfCA.cfg.wf = true ∧ rbyteOfCA.blockEnabled ∧ TransferReady rbyteOfCA ∧ rbyteOfCA.cur = encode .rbyte
      ∧ rbyteOfCA.extClk = rbyteOfCA.cfg.idle ∧ (0xCA : BitVec 16).toNat < 2 ^ rbyteOfCA.cfg.width
      ∧ (promptBits (wireBits tight 0xCA)).map Prod.fst = wireBits rbyteOfCA.cfg 0xCA
      ∧ patient rbyteOfCA.cfg (promptBits (wireBits tight 0xCA))
      ∧ rbyteOfCA.agenda = bitsMoves rbyteOfCA.cfg (promptBits (wireBits tight 0xCA)) :=
  ⟨rfl, ⟨rfl, rfl, rfl, rfl⟩, ⟨⟨rfl, rfl⟩, rfl, rfl⟩, rfl, rfl, by decide, promptBits_fst _, promptBits_patient _ _ rfl, rfl⟩

/-- The ninth bit of 0xCA under EVEN parity is 0; the peer shows 1. -/
def wrongParity (w : Word) : State :=
  { polling w with cfg := { Cfg.default with parity := .even }, sr := 0xCA, bitCnt := 8, extClk := true }

theorem witness_ParityMismatchRaisesFramingError (w : Word) :
    (wrongParity w).dir = enabledDirs ∧ (wrongParity w).seq = .poll ∧ (wrongParity w).phase = .waitActive
      ∧ (wrongParity w).extClk = (wrongParity w).cfg.active ∧ (wrongParity w).bitCnt.toNat = (wrongParity w).cfg.width
      ∧ parityBit (wrongParity w).cfg (wrongParity w).sr = some false ∧ (wrongParity w).extDat ≠ false :=
  ⟨rfl, rfl, rfl, rfl, rfl, (by decide : parityBit { Cfg.default with parity := .even } 0xCA = some false),
    by simp [wrongParity, polling, running, t0State]⟩

theorem witness_SendCommandsCompleteAtTheLastClockReturn :
    (lastClock 0x43000001).dir = enabledDirs ∧ (lastClock 0x43000001).seq = .clkIdle []
      ∧ { lastClock 0x43000001 with part := .endMarker }.part = .endMarker
      ∧ ({ lastClock 0x43000001 with part := .data, bLen := 1 }.part = .data
          ∧ { lastClock 0x43000001 with part := .data, bLen := 1 }.bIdx + 1 = 1
          ∧ (lastClock 0x43000001).cfg.endMarker = none) := ⟨rfl, rfl, rfl, rfl, rfl, rfl⟩

theorem witness_EnableOpensTheSession : State.reset.sess = .disabled := rfl

theorem witness_DisableClosesTheSession :
    State.reset.sess = .disabled ∧ t0State.sess ≠ .disabled ∧ t0State.dir = enabledDirs := ⟨rfl, by decide, rfl⟩

theorem witness_WfsCompletesAtTheLastPattern :
    { handshaking with extDat := true }.dir = enabledDirs ∧ { handshaking with extDat := true }.seq = .hsPoll
      ∧ { handshaking with extDat := true }.hsIdx + 1 = { handshaking with extDat := true }.cfg.hsSeq.length
      ∧ handshakeMatches { handshaking with extDat := true }.cfg { handshaking with extDat := true }.hsIdx
          (inputVector { handshaking with extDat := true }.extClk { handshaking with extDat := true }.extDat) = true :=
  ⟨rfl, rfl, rfl, rfl⟩

/-- A poll at the bound that matches nothing, and one that matches pattern 0, which is not the last. -/
def hsAtTheBound (k : Nat) : State := { handshaking with cfg := { Cfg.default with timeout := some 2 }, hsIdx := k }

theorem witness_WfsTimeoutRestoresThePriorState :
    (hsAtTheBound 1).dir = enabledDirs ∧ (hsAtTheBound 1).seq = .hsPoll
      ∧ (hsAtTheBound 1).cfg.timeout = some ((hsAtTheBound 1).pollCnt + 1)
      ∧ handshakeMatches (hsAtTheBound 1).cfg (hsAtTheBound 1).hsIdx
          (inputVector (hsAtTheBound 1).extClk (hsAtTheBound 1).extDat) = false
      ∧ (hsAtTheBound 0).hsIdx + 1 ≠ (hsAtTheBound 0).cfg.hsSeq.length := ⟨rfl, rfl, rfl, rfl, by decide⟩

def wfsIssued (c : Cfg) (ms : List Move) : State := { running idleState 0x42000000 with cfg := c, agenda := ms }

theorem witness_WfsNeverReturnsOnConstantInputs :
    (wfsIssued Cfg.default []).cfg.wf = true ∧ (wfsIssued Cfg.default []).blockEnabled ∧ (wfsIssued Cfg.default []).agenda = []
      ∧ (wfsIssued Cfg.default []).cur = encode .wfs ∧ (wfsIssued Cfg.default []).seq = .start
      ∧ (wfsIssued Cfg.default []).dir = enabledDirs ∧ (wfsIssued Cfg.default []).sess = .idle
      ∧ (wfsIssued Cfg.default []).cfg.timeout = none
      ∧ ((wfsIssued { Cfg.default with timeout := some 1 } []).cfg.wf = true
          ∧ (wfsIssued { Cfg.default with timeout := some 1 } []).cfg.timeout = some 1) :=
  ⟨rfl, ⟨rfl, rfl, rfl, rfl⟩, rfl, rfl, rfl, rfl, rfl, rfl, rfl, rfl⟩

/-- IDAT 0, then 1, under the tightest bound, TIMEOUT = 2. -/
theorem witness_WfsCompletesWhenThePeerShowsThePatterns :
    ∃ s : State, s.cfg.wf = true ∧ s.blockEnabled ∧ s.cur = encode .wfs ∧ s.seq = .start ∧ s.dir = enabledDirs
      ∧ s.sess = .idle ∧ [0b00#2, 0b10#2].length = s.cfg.hsSeq.length
      ∧ (∀ k iv, [0b00#2, 0b10#2][k]? = some iv → handshakeMatches s.cfg k iv = true)
      ∧ (∀ t, s.cfg.timeout = some t → [0b00#2, 0b10#2].length ≤ t) ∧ s.agenda = [0b00#2, 0b10#2].flatMap showInput := by
  refine ⟨wfsIssued tight ([0b00#2, 0b10#2].flatMap showInput), rfl, ⟨rfl, rfl, rfl, rfl⟩, rfl, rfl, rfl, rfl, rfl, ?_, ?_, rfl⟩
  · intro k iv h
    match k with
    | 0 => cases h; rfl
    | 1 => cases h; rfl
    | k + 2 => cases h
  · intro t h
    cases h
    decide

theorem witness_BlockCommandsNeedByteWords :
    { State.reset with cfg := { Cfg.default with width := 7 } }.seq = .start
      ∧ { State.reset with cfg := { Cfg.default with width := 7 } }.cfg.width ≠ 8
      ∧ { State.reset with cfg := { Cfg.default with width := 7 } }.refused = none := ⟨rfl, by decide, rfl⟩

theorem witness_LengthBytesRoundTrip :
    65535 < 2 ^ (8 * Cfg.default.lenBytes.count) ∧ 255 < 2 ^ (8 * { Cfg.default with lenBytes := .one }.lenBytes.count) := by decide

/-- BUF[0..1] = 01, 02 in T0. -/
def twoBytes : State := { running t0State 0x43000002 with buf := [(0, 0x01), (1, 0x02)] }

theorem twoBytes_holds : bufHolds twoBytes.buf [0x01, 0x02] := by
  intro k hk
  match k with
  | 0 => rfl
  | 1 => rfl
  | k + 2 => exact absurd hk (by simp)

theorem witness_SblkSendsTheBlock :
    twoBytes.cfg.wf = true ∧ TransferReady twoBytes ∧ twoBytes.cfg.width = 8 ∧ supportedLen twoBytes.cfg (2 : BitVec 16).toNat
      ∧ [(0x01 : Byte), 0x02].length = (2 : BitVec 16).toNat ∧ bufHolds twoBytes.buf [0x01, 0x02] :=
  ⟨rfl, ⟨⟨rfl, rfl⟩, rfl, rfl⟩, rfl, ⟨by decide, by decide, by decide⟩, rfl, twoBytes_holds⟩

theorem witness_UnsupportedLengthRaisesFramingError :
    (∃ s : State, s.cfg.wf = true ∧ s.seq = .start ∧ s.t0 ∧ s.cfg.width = 8 ∧ (256 : BitVec 16).toNat ≤ s.cfg.bufSize
        ∧ sendLenOk s.cfg (256 : BitVec 16).toNat = false)
      ∧ ∃ s : State, s.cfg.wf = true ∧ s.seq = .start ∧ s.t0 ∧ s.cfg.width = 8 ∧ (3 : BitVec 16).toNat ≤ s.cfg.bufSize
        ∧ s.cfg.blockMode = .fixed ∧ s.cfg.blockLen = some 4 ∧ (3 : BitVec 16).toNat < 4 :=
  ⟨⟨{ t0State with cfg := { Cfg.default with lenBytes := .one } }, rfl, rfl, ⟨rfl, rfl⟩, rfl, by decide, by decide⟩,
    ⟨{ t0State with cfg := { Cfg.default with blockMode := .fixed, blockLen := some 4 } }, rfl, rfl, ⟨rfl, rfl⟩, rfl,
      by decide, rfl, rfl, by decide⟩⟩

theorem witness_SblkOfAnUnwrittenByteIsAModelFault :
    ∃ s : State, s.seq = .elem ∧ s.part = .data ∧ s.bIdx.toNat < s.cfg.bufSize ∧ s.buf.read s.bIdx.toNat = none ∧ s.mfault = none :=
  ⟨{ running t0State 0x43000001 with seq := .elem, part := .data, bLen := 1 }, rfl, rfl, by decide, rfl, rfl⟩

/-- Its second clause, at the shortest FIXED block. -/
theorem witness_SblkOfAnUnwrittenByteIsAModelFault_fixed :
    ∃ s : State, s.cfg.wf = true ∧ s.seq = .start ∧ s.t0 ∧ s.cfg.width = 8 ∧ (1 : BitVec 16).toNat ≤ s.cfg.bufSize
      ∧ s.cfg.blockMode = .fixed ∧ s.cfg.blockLen = some (1 : BitVec 16).toNat ∧ s.cfg.startMarker = none
      ∧ s.buf.read 0 = none ∧ s.mfault = none :=
  ⟨{ running t0State 0x43000001 with cfg := { Cfg.default with blockMode := .fixed, blockLen := some 1 } },
    rfl, rfl, ⟨rfl, rfl⟩, rfl, by decide, rfl, rfl, rfl, rfl, rfl⟩

/-- An RBLK whose block fills its capacity. -/
def rblkOfTwo : State :=
  { running t0State 0x44000002 with
    cfg := tight, agenda := bitsMoves tight (promptBits (blockBits tight [0xAA, 0x55])) }

theorem witness_RblkReceivesTheBlockThePeerPresents :
    rblkOfTwo.cfg.wf = true ∧ rblkOfTwo.blockEnabled ∧ TransferReady rblkOfTwo ∧ rblkOfTwo.cfg.width = 8
      ∧ rblkOfTwo.cur = encode (.rblk 2) ∧ rblkOfTwo.extClk = rblkOfTwo.cfg.idle
      ∧ (2 : BitVec 16).toNat ≤ rblkOfTwo.cfg.bufSize ∧ [(0xAA : Byte), 0x55].length ≤ (2 : BitVec 16).toNat
      ∧ sendLenOk rblkOfTwo.cfg [(0xAA : Byte), 0x55].length = true
      ∧ (promptBits (blockBits tight [0xAA, 0x55])).map Prod.fst = blockBits rblkOfTwo.cfg [0xAA, 0x55]
      ∧ patient rblkOfTwo.cfg (promptBits (blockBits tight [0xAA, 0x55]))
      ∧ rblkOfTwo.agenda = bitsMoves rblkOfTwo.cfg (promptBits (blockBits tight [0xAA, 0x55])) :=
  ⟨rfl, ⟨rfl, rfl, rfl, rfl⟩, ⟨⟨rfl, rfl⟩, rfl, rfl⟩, rfl, rfl, rfl, by decide, by decide, rfl, promptBits_fst _,
    promptBits_patient _ _ rfl, rfl⟩

/-- The word ends with its last data bit, or with its parity bit. -/
theorem witness_ReceiveCommandsCompleteAtTheLastPoll :
    (lastDataPoll.cfg.wf = true ∧ lastDataPoll.dir = enabledDirs ∧ completesWord lastDataPoll 0x55
        ∧ lastDataPoll.part = .data ∧ lastDataPoll.bIdx + 1 = lastDataPoll.bLen
        ∧ lastDataPoll.bIdx.toNat < lastDataPoll.cfg.bufSize ∧ lastDataPoll.cfg.endMarker = none)
      ∧ ∃ s : State, s.cfg.wf = true ∧ s.dir = enabledDirs ∧ completesWord s 0xCA ∧ s.part = .endMarker
        ∧ s.cfg.endMarker = some ((0xCA : BitVec 16).setWidth 8) :=
  ⟨⟨rfl, rfl, ⟨rfl, rfl, rfl, .inl ⟨rfl, rfl, rfl⟩⟩, rfl, rfl, by decide, rfl⟩,
    ⟨{ wrongParity 0x44000010 with
        cfg := { Cfg.default with parity := .even, endMarker := some 0xCA }, part := .endMarker, extDat := false },
      rfl, rfl, ⟨rfl, rfl, rfl, .inr ⟨rfl, rfl, rfl⟩⟩, rfl, rfl⟩⟩

theorem witness_RblkRejectsWrongElements :
    (∃ s : State, s.cfg.wf = true ∧ s.dir = enabledDirs ∧ completesWord s 0x55 ∧ s.part = .startMarker
        ∧ s.cfg.startMarker ≠ some ((0x55 : BitVec 16).setWidth 8))
      ∧ (∃ s : State, s.cfg.wf = true ∧ s.dir = enabledDirs ∧ completesWord s 0x55 ∧ s.part = .endMarker
        ∧ s.cfg.endMarker ≠ some ((0x55 : BitVec 16).setWidth 8))
      ∧ ∃ s : State, s.cfg.wf = true ∧ s.dir = enabledDirs ∧ completesWord s 0x55 ∧ s.part = .lenByte 1
        ∧ 1 + 1 = s.cfg.lenBytes.count
        ∧ (0x5510 : BitVec 16).toNat < assembleLen s.cfg (s.lenAcc ++ [(0x55 : BitVec 16).setWidth 8]) :=
  ⟨⟨{ lastDataPoll with cfg := { Cfg.default with startMarker := some 0x02 }, part := .startMarker }, rfl, rfl,
      ⟨rfl, rfl, rfl, .inl ⟨rfl, rfl, rfl⟩⟩, rfl, by decide⟩,
    ⟨{ lastDataPoll with cfg := { Cfg.default with endMarker := some 0x03 }, part := .endMarker }, rfl, rfl,
      ⟨rfl, rfl, rfl, .inl ⟨rfl, rfl, rfl⟩⟩, rfl, by decide⟩,
    ⟨{ lastDataPoll with part := .lenByte 1, lenAcc := [0x11] }, rfl, rfl, ⟨rfl, rfl, rfl, .inl ⟨rfl, rfl, rfl⟩⟩, rfl, rfl,
      by decide⟩⟩

theorem witness_BufwWritesItsByte : (255 : BitVec 16).toNat < State.reset.cfg.bufSize := by decide

theorem witness_BufrReadsItsByte :
    (255 : BitVec 16).toNat < State.reset.cfg.bufSize
      ∧ { State.reset with buf := [(255, 0xEE)] }.buf.read (255 : BitVec 16).toNat = some 0xEE
      ∧ State.reset.buf.read (255 : BitVec 16).toNat = none ∧ State.reset.mfault = none := ⟨by decide, rfl, rfl, rfl⟩

theorem witness_FileLevelCommandsAreRefused :
    fileLevel .retrf = true ∧ (issued 0x63000000).refused = none ∧ (issued 0x63000000).cfg.wf = true
      ∧ (issued 0x63000000).agenda = [] ∧ (issued 0x63000000).mfault = none := ⟨rfl, rfl, rfl, rfl, rfl⟩

theorem witness_PeerStepSetsItsLine :
    State.reset.cfg.wf = true ∧ { State.reset with agenda := [.peer .iclk true] }.agenda = .peer .iclk true :: []
      ∧ { State.reset with agenda := [.peer .idat false] }.agenda = .peer .idat false :: [] := ⟨rfl, rfl, rfl⟩

theorem witness_HostReadsTheRegisters :
    State.reset.cfg.wf = true ∧ { t0State with agenda := [.host ⟨0x0, 4, none⟩] }.agenda = .host ⟨0x0, 4, none⟩ :: []
      ∧ { t0State with agenda := [.host ⟨0x4, 4, none⟩] }.agenda = .host ⟨0x4, 4, none⟩ :: []
      ∧ { t0State with agenda := [.host ⟨0x8, 4, none⟩] }.agenda = .host ⟨0x8, 4, none⟩ :: []
      ∧ { t0State with agenda := [.host ⟨0xC, 4, none⟩] }.agenda = .host ⟨0xC, 4, none⟩ :: []
      ∧ (t0State.dir.oclk = .out ∧ t0State.dir.odat = .out)
      ∧ { State.reset with agenda := [.host ⟨0xC, 4, none⟩] }.agenda = .host ⟨0xC, 4, none⟩ :: [] :=
  ⟨rfl, rfl, rfl, rfl, rfl, ⟨rfl, rfl⟩, rfl⟩

theorem witness_HostWritesActOnlyAtCmd :
    State.reset.cfg.wf = true
      ∧ ({ State.reset with agenda := [.host ⟨0, 4, some 0x40000000⟩] }.agenda = .host ⟨0, 4, some 0x40000000⟩ :: []
          ∧ State.reset.busy = false ∧ State.reset.unmarked)
      ∧ (faulted []).fault = true
      ∧ (State.reset.fault = false ∧ (running State.reset 0x42000000).busy = true
          ∧ ¬ { State.reset with refused := some .hostAccess }.unmarked)
      ∧ { State.reset with agenda := [.host ⟨0xC, 4, some 1⟩] }.agenda = .host ⟨0xC, 4, some 1⟩ :: []
      ∧ ((⟨0x0, 2, some 1⟩ : HostAccess).width ≠ 4 ∧ State.reset.refused = none)
      ∧ ((⟨0x10, 4, none⟩ : HostAccess).offset ≠ 0x0 ∧ (⟨0x10, 4, none⟩ : HostAccess).offset ≠ 0x4
          ∧ (⟨0x10, 4, none⟩ : HostAccess).offset ≠ 0x8 ∧ (⟨0x10, 4, none⟩ : HostAccess).offset ≠ 0xC) :=
  ⟨rfl, ⟨rfl, rfl, rfl, rfl, rfl⟩, rfl, ⟨rfl, rfl, by simp [State.unmarked]⟩, rfl, ⟨by decide, rfl⟩,
    ⟨by decide, by decide, by decide, by decide⟩⟩

/-! ### The end of a run (spec/60_exceptions.md R226) -/

/-- A peer step before the one ENABLE of the run: it ends after the command, with STATUS.SESS = Idle, and not before its issue. -/
theorem test_run_ends_after_its_last_command :
    ∃ t, RunEnds { State.reset with agenda := [.peer .idat true, .host ⟨0, 4, some 0x40000000⟩] } 3 t ∧ t.outcome.status = 1 := by
  refine ⟨_, ⟨rfl, ⟨rfl, rfl, rfl, rfl, rfl⟩, ?_⟩, rfl⟩
  rintro (_ | _ | _ | m) hm u hu ⟨hw, hb, _⟩
  · cases hu; cases hw
  · cases hu; cases hw
  · cases hu; cases hb
  · omega

/-- LRD of a line that was never configured: the run stops with FAULT = 1 and is not final. -/
theorem test_run_stops_at_a_fault :
    ∃ t, RunStops { State.reset with program := [0x11000000] } 2 t ∧ t.fault = true := by
  refine ⟨_, ⟨rfl, fun h => absurd h.2.2 nofun, ?_⟩, rfl⟩
  rintro (_ | _ | m) hm u hu
  · cases hu
    exact ⟨⟨rfl, rfl, rfl⟩, fun h => absurd h.1 nofun⟩
  · cases hu
    exact ⟨⟨rfl, rfl, rfl⟩, fun h => absurd h.2.1 nofun⟩
  · omega

end Sys2Proof.Tests
end

section
/-! SUPPORT. An ill-formed configuration (spec/00_scope.md R6): the answers of `launch` and `step`, and the obligation about them. -/

namespace Sys2Proof.Machine

theorem launch_of_not_wf {c : Cfg} (hc : c.wf = false) : launch c = .error .illFormedConfig :=
  if_neg (Bool.eq_false_iff.mp hc)

/-- The test of the configuration comes before the agenda is looked at, so no agent's step escapes it. -/
theorem step_of_not_wf {s : State} (hs : s.cfg.wf = false) : step s = .refused .illFormedConfig :=
  if_neg (Bool.eq_false_iff.mp hs)

/-- Settles O8: `launch` and `step` each take their refusing branch. -/
theorem illFormedConfigurationIsRefused : Obligations.IllFormedConfigurationIsRefused := by
  unfold Obligations.IllFormedConfigurationIsRefused
  exact ⟨fun _ hc => launch_of_not_wf hc, fun _ hs => step_of_not_wf hs⟩

end Sys2Proof.Machine
end

section
/-! SUPPORT. The parts of the machine invariant (spec/10_state.md R42) that hold inside a micro-step too, what each exit makes
of them, and the contract `Micro.Safe` under which a piece of pseudocode ends in a state of `MachineInv`. -/

namespace Sys2Proof.Machine

/-! ### What a well-formed configuration gives (spec/00_scope.md R6) -/

theorem width_of_wf {c : Cfg} (h : c.wf = true) : 1 ≤ c.width ∧ c.width ≤ 16 := by
  simp [Cfg.wf, Cfg.wf1] at h
  omega

theorem timeout_of_wf {c : Cfg} (h : c.wf = true) {n : Nat} (hn : c.timeout = some n) : 1 ≤ n := by
  simp [Cfg.wf, Cfg.wf2, hn] at h
  omega

theorem hsSeq_of_wf {c : Cfg} (h : c.wf = true) : 0 < c.hsSeq.length := by
  simp [Cfg.wf, Cfg.wf3] at h
  omega

/-! ### The shift register within WIDTH bits (inv4 of R42) -/

theorem toNat_and_widthMask_lt (c : Cfg) (v : BitVec 16) : (v &&& widthMask c).toNat < 2 ^ c.width := by
  have hp : 0 < 2 ^ c.width := Nat.two_pow_pos _
  have hm : (widthMask c).toNat ≤ 2 ^ c.width - 1 := by
    rw [widthMask, BitVec.toNat_ofNat]
    exact Nat.mod_le _ _
  have ha : (v &&& widthMask c).toNat ≤ (widthMask c).toNat := by
    rw [BitVec.toNat_and]
    exact Nat.and_le_right
  omega

theorem toNat_shiftBit_lt {c : Cfg} (h : c.wf = true) {sr : BitVec 16} (hs : sr.toNat < 2 ^ c.width) (b : Bit) :
    (shiftBit c sr b).toNat < 2 ^ c.width := by
  have h1 := (width_of_wf h).1
  unfold shiftBit
  dsimp only
  split
  · exact toNat_and_widthMask_lt c _
  · rw [BitVec.toNat_or]
    refine Nat.or_lt_two_pow ?_ ?_
    · rw [BitVec.toNat_ushiftRight]
      exact lt_of_le_of_lt (Nat.shiftRight_le _ _) hs
    · have hb : ((BitVec.ofBool b).setWidth 16).toNat ≤ 1 := by cases b <;> decide
      rw [BitVec.toNat_shiftLeft, Nat.shiftLeft_eq]
      calc ((BitVec.ofBool b).setWidth 16).toNat * 2 ^ (c.width - 1) % 2 ^ 16
          ≤ ((BitVec.ofBool b).setWidth 16).toNat * 2 ^ (c.width - 1) := Nat.mod_le _ _
        _ ≤ 1 * 2 ^ (c.width - 1) := Nat.mul_le_mul_right _ hb
        _ < 2 ^ c.width := by
          rw [one_mul]
          exact Nat.pow_lt_pow_right (by decide) (by omega)

/-! ### The invariant without the position -/

/-- The bounds of SR, BITCNT and POLLCNT (inv4 of R42, spec/42_byte_framer.md R138). -/
structure CounterBounds (s : State) : Prop where
  sr      : s.sr.toNat < 2 ^ s.cfg.width
  bitCnt  : s.bitCnt.toNat ≤ s.cfg.width
  pollCnt : ∀ t, s.cfg.timeout = some t → s.pollCnt ≤ t

/-- A poll that sees nothing is not yet the last one TIMEOUT allows. -/
def State.pollOpen (s : State) : Prop := ∀ t, s.cfg.timeout = some t → s.pollCnt < t

/-- The part of `MachineInv` that speaks of no position of SEQ: it holds within a micro-step as well. -/
structure Kept (s : State) : Prop where
  cfg      : s.cfg.wf = true
  bufForm  : s.buf.wf
  bufRange : ∀ c ∈ s.buf, c.1 < s.cfg.bufSize
  errCode  : s.err.toNat < 8
  dirs     : s.sess ≠ .disabled → s.dir = enabledDirs
  resync   : s.sess = .disabled → s.resync = false
  counters : CounterBounds s
  marked   : s.fault = true → s.mfault.isSome

/-- The part of `MachineInv` with which a command may complete: the session is not in the middle of a handshake. -/
structure Settled (s : State) : Prop extends Kept s where
  noHandshake : s.sess ≠ .syncing

/-- The part of `MachineInv` with which error `e` may be raised where `f` gives the SESS of the recoverable exit. -/
structure Raisable (f : State → Sess) (e : Err) (s : State) : Prop extends Kept s where
  recoverable : e.recoverable = true → s.dir = enabledDirs ∧ (f s = .idle ∨ f s = .transferring)
  fatal       : e.recoverable = false → s.sess ≠ .syncing

/-- The part of `MachineInv` that holds while command `i` runs. -/
structure Active (i : Instr) (s : State) : Prop extends Kept s where
  busy    : s.busy = true
  decoded : decode s.cur = .ok i

theorem MachineInv.kept {s : State} (h : MachineInv s) : Kept s where
  cfg      := h.cfg
  bufForm  := h.bufForm
  bufRange := h.bufRange
  errCode  := h.errCode
  dirs     := h.dirs
  resync   := h.resync
  counters := ⟨h.sr, h.bitCnt, h.pollCnt⟩
  marked   := h.marked

/-- Where no command is in the middle of its run, `Settled` is the whole invariant. -/
theorem Settled.machineInv {s : State} (h : Settled s) (hs : s.seq = .start) : MachineInv s where
  cfg      := h.cfg
  bufForm  := h.bufForm
  bufRange := h.bufRange
  errCode  := h.errCode
  dirs     := h.dirs
  resync   := h.resync
  sr       := h.counters.sr
  bitCnt   := h.counters.bitCnt
  pollCnt  := h.counters.pollCnt
  polling  := by simp [hs]
  marked   := h.marked
  idle     := fun _ => hs
  syncing  := fun k => absurd k h.noHandshake
  running  := fun k => absurd hs k

theorem RunFits.seq_of_syncing {i : Instr} {s : State} (h : RunFits i s) (hs : s.sess = .syncing) : s.seq = .hsPoll := by
  have ht : ¬ s.t0 := fun k => by simp [State.t0, hs] at k
  cases i with
  | wfs => exact h.2.1
  | sbit _ | sbyte _ | rbit | rbyte | sblk _ | rblk _ => exact absurd h.1 ht
  | _ => exact h.elim

/-- Between two micro-steps of `i`, `Active` with a position of `i` is the whole invariant. -/
theorem Active.machineInv {i : Instr} {s : State} (h : Active i s) (hf : RunFits i s)
    (hp : s.seq = .poll ∨ s.seq = .hsPoll → s.pollOpen) : MachineInv s where
  cfg      := h.cfg
  bufForm  := h.bufForm
  bufRange := h.bufRange
  errCode  := h.errCode
  dirs     := h.dirs
  resync   := h.resync
  sr       := h.counters.sr
  bitCnt   := h.counters.bitCnt
  pollCnt  := h.counters.pollCnt
  polling  := hp
  marked   := h.marked
  idle     := fun k => absurd (h.busy.symm.trans k) (by decide)
  syncing  := hf.seq_of_syncing
  running  := fun _ => ⟨i, h.decoded, hf⟩

/-- At the first micro-step of a command the session is in no handshake. -/
theorem MachineInv.settled {s : State} (h : MachineInv s) (hs : s.seq = .start) : Settled s where
  toKept      := h.kept
  noHandshake := fun k => by simp [h.syncing k] at hs

theorem MachineInv.active {i : Instr} {s : State} (h : MachineInv s) (hb : s.busy = true) (hd : decode s.cur = .ok i) :
    Active i s := ⟨h.kept, hb, hd⟩

/-- The position of a running command fits it. -/
theorem MachineInv.fits {i : Instr} {s : State} (h : MachineInv s) (hd : decode s.cur = .ok i) (hs : s.seq ≠ .start) :
    RunFits i s := by
  obtain ⟨j, hj, hf⟩ := h.running hs
  rw [hd] at hj
  injection hj with hj
  exact hj ▸ hf

/-! ### Updates that keep the parts -/

theorem CounterBounds.congr {s t : State} (h : CounterBounds s) (hc : t.cfg = s.cfg := by rfl) (hr : t.sr = s.sr := by rfl)
    (hb : t.bitCnt = s.bitCnt := by rfl) (hp : t.pollCnt = s.pollCnt := by rfl) : CounterBounds t :=
  ⟨by rw [hc, hr]; exact h.sr, by rw [hc, hb]; exact h.bitCnt, by rw [hc, hp]; exact h.pollCnt⟩

/-- A change of the session that its own two clauses allow, with every other field `Kept` reads as before. -/
theorem Kept.session {s t : State} (h : Kept s) (hd : t.sess ≠ .disabled → t.dir = enabledDirs)
    (hr : t.sess = .disabled → t.resync = false) (hk : CounterBounds t) (hc : t.cfg = s.cfg := by rfl)
    (hb : t.buf = s.buf := by rfl) (he : t.err = s.err := by rfl) (hf : t.fault = s.fault := by rfl)
    (hm : t.mfault = s.mfault := by rfl) : Kept t where
  cfg      := by rw [hc]; exact h.cfg
  bufForm  := by rw [hb]; exact h.bufForm
  bufRange := by rw [hb, hc]; exact h.bufRange
  errCode  := by rw [he]; exact h.errCode
  dirs     := hd
  resync   := hr
  counters := hk
  marked   := by rw [hf, hm]; exact h.marked

/-- Every field `Kept` reads but the counters is as before. -/
theorem Kept.congr {s t : State} (h : Kept s) (hk : CounterBounds t) (hd : t.dir = s.dir := by rfl)
    (hs : t.sess = s.sess := by rfl) (hr : t.resync = s.resync := by rfl) (hc : t.cfg = s.cfg := by rfl)
    (hb : t.buf = s.buf := by rfl) (he : t.err = s.err := by rfl) (hf : t.fault = s.fault := by rfl)
    (hm : t.mfault = s.mfault := by rfl) : Kept t :=
  h.session (by rw [hs, hd]; exact h.dirs) (by rw [hs, hr]; exact h.resync) hk hc hb he hf hm

/-- A byte stored inside the buffer keeps its form and its range (spec/20_memory.md R52). -/
theorem Kept.store {s : State} (h : Kept s) {a : Nat} (ha : a < s.cfg.bufSize) (v : Byte) :
    Kept { s with buf := s.buf.write a v } where
  cfg      := h.cfg
  bufForm  := Memory.wf_write h.bufForm a v
  bufRange := fun c hc => (Memory.mem_write hc).elim (h.bufRange c) fun e => e ▸ ha
  errCode  := h.errCode
  dirs     := h.dirs
  resync   := h.resync
  counters := h.counters.congr
  marked   := h.marked

/-! ### The exits -/

theorem Err.code_lt (e : Err) : e.code.toNat < 8 := by cases e <;> decide

/-- After an error SR and BITCNT hold any value within their bounds (R34). -/
theorem CounterBounds.errorExit {s : State} (h : CounterBounds s) (hw : s.cfg.wf = true) (e : Err) :
    CounterBounds (errorExit e s) where
  sr      := toNat_and_widthMask_lt _ _
  bitCnt  := by
    have h16 := (width_of_wf hw).2
    have hm : Config.freeCount s.freeCtr % (s.cfg.width + 1) < s.cfg.width + 1 := Nat.mod_lt _ (by omega)
    change (BitVec.ofNat 5 (Config.freeCount s.freeCtr % (s.cfg.width + 1))).toNat ≤ s.cfg.width
    rw [BitVec.toNat_ofNat, Nat.mod_eq_of_lt (by omega)]
    omega
  pollCnt := h.pollCnt

/-- After a recoverable error POLLCNT holds any value within TIMEOUT. -/
theorem CounterBounds.recoverableExit {s : State} (h : CounterBounds s) (hw : s.cfg.wf = true) (x : Sess) (e : Err) :
    CounterBounds (recoverableExit x e s) where
  sr      := (h.errorExit hw e).sr
  bitCnt  := (h.errorExit hw e).bitCnt
  pollCnt := fun n hn => by
    have hn : s.cfg.timeout = some n := hn
    simp only [Machine.recoverableExit, forgetPoll, errorExit_cfg, hn]
    exact Nat.le_of_lt_succ (Nat.mod_lt _ (Nat.succ_pos n))

/-- The recoverable exit ends in the invariant where it returns to an open session. -/
theorem Kept.recoverableExit {s : State} (h : Kept s) (hd : s.dir = enabledDirs) {x : Sess}
    (hx : x = .idle ∨ x = .transferring) (e : Err) : MachineInv (recoverableExit x e s) := by
  have hx' : x ≠ .disabled ∧ x ≠ .syncing := by rcases hx with rfl | rfl <;> decide
  refine Settled.machineInv ⟨?_, hx'.2⟩ rfl
  exact {
    cfg      := h.cfg
    bufForm  := h.bufForm
    bufRange := h.bufRange
    errCode  := e.code_lt
    dirs     := fun _ => hd
    resync   := fun k => absurd k hx'.1
    counters := h.counters.recoverableExit h.cfg x e
    marked   := h.marked }

/-- The fatal exit ends in the invariant outside a handshake. -/
theorem Settled.fatalExit {s : State} (h : Settled s) (e : Err) : MachineInv (fatalExit e s) := by
  refine Settled.machineInv ⟨?_, h.noHandshake⟩ rfl
  exact {
    cfg      := h.cfg
    bufForm  := h.bufForm
    bufRange := h.bufRange
    errCode  := e.code_lt
    dirs     := h.dirs
    resync   := h.resync
    counters := (h.counters.errorExit h.cfg e).congr
    marked   := fun _ => by simp }

theorem Raisable.raiseExit {f : State → Sess} {e : Err} {s : State} (h : Raisable f e s) :
    MachineInv (raiseExit (f s) e s) := by
  cases he : e.recoverable with
  | true =>
    rw [raiseExit_recoverable he]
    exact h.toKept.recoverableExit (h.recoverable he).1 (h.recoverable he).2 e
  | false =>
    rw [raiseExit_fatal he]
    exact Settled.fatalExit ⟨h.toKept, h.fatal he⟩ e

theorem Settled.complete {s : State} (h : Settled s) : MachineInv (complete s) := by
  refine Settled.machineInv ⟨?_, h.noHandshake⟩ rfl
  exact {
    cfg      := h.cfg
    bufForm  := h.bufForm
    bufRange := h.bufRange
    errCode  := Nat.zero_lt_succ 7
    dirs     := h.dirs
    resync   := h.resync
    counters := h.counters.congr
    marked   := h.marked }

/-- A fatal error may be raised outside a handshake. -/
theorem Settled.raisable {s : State} (h : Settled s) {e : Err} (he : e.recoverable = false) (f : State → Sess) :
    Raisable f e s := ⟨h.toKept, fun k => absurd (he.symm.trans k) (by decide), fun _ => h.noHandshake⟩

/-- A mark with a command's position as before: neither mark is read by the invariant but that FAULT comes with `mfault`. -/
theorem MachineInv.setMfault {s : State} (h : MachineInv s) (r : MFault) : MachineInv (setMfault r s) :=
  ⟨h.cfg, h.bufForm, h.bufRange, h.errCode, h.dirs, h.resync, h.sr, h.bitCnt, h.pollCnt, h.polling, fun _ => by simp,
    h.idle, h.syncing, h.running⟩

theorem MachineInv.setRefused {s : State} (h : MachineInv s) (r : RefuseReason) : MachineInv (setRefused r s) :=
  ⟨h.cfg, h.bufForm, h.bufRange, h.errCode, h.dirs, h.resync, h.sr, h.bitCnt, h.pollCnt, h.polling, h.marked,
    h.idle, h.syncing, h.running⟩

/-! ### The contract of a micro-step -/

/-- Every way the pseudocode ends the micro-step leads to the invariant, and it never stops where no rule speaks. -/
def Micro.Safe (f : State → Sess) (m : Micro Unit) : Prop :=
  m.Sat MachineInv (fun _ => Settled) (Raisable f) (fun _ => MachineInv) (fun _ => MachineInv) (fun _ => False)

theorem Micro.Safe.finish {f : State → Sess} {m : Micro Unit} (h : m.Safe f) :
    ∃ t, finish f m = .next t ∧ MachineInv t := by
  cases m with
  | yields s => exact ⟨s, rfl, h⟩
  | ret _ s => exact ⟨_, rfl, Settled.complete h⟩
  | raises e s => exact ⟨_, rfl, Raisable.raiseExit h⟩
  | marks r s => exact ⟨_, rfl, MachineInv.setMfault h r⟩
  | refuses r s => exact ⟨_, rfl, MachineInv.setRefused h r⟩
  | stops _ => exact h.elim

end Sys2Proof.Machine
end

section
/-! SUPPORT. The send and receive sequences keep the bounds of the counters and stop at positions of their own: what each can
come to, beside its frame. -/

namespace Sys2Proof.Machine

/-- What a line sequence leads to from `s`: its frame, with the counters within their bounds. -/
def Moved (s t : State) : Prop := TransferFrame s t ∧ CounterBounds t

theorem Moved.refl {s : State} (h : CounterBounds s) : Moved s s := ⟨.refl s, h⟩

theorem Moved.trans {s t u : State} (h : Moved s t) (k : Moved t u) : Moved s u := ⟨h.1.trans k.1, k.2⟩

/-- An update of the hidden data path that stays within the bounds. -/
theorem Moved.hidden {s : State} (q : Seq) (r : BitVec 16) (n : BitVec 5) (p : Nat) (ph : Phase)
    (h : CounterBounds { s with seq := q, sr := r, bitCnt := n, pollCnt := p, phase := ph }) :
    Moved s { s with seq := q, sr := r, bitCnt := n, pollCnt := p, phase := ph } :=
  ⟨(SampleFrame.hidden s q r n p ph).toTransferFrame, h⟩

theorem Moved.seq {s : State} (h : CounterBounds s) (q : Seq) : Moved s { s with seq := q } :=
  .hidden q s.sr s.bitCnt s.pollCnt s.phase h.congr

theorem Kept.moved {s t : State} (h : Kept s) (k : Moved s t) : Kept t :=
  h.congr k.2 k.1.dir k.1.sess k.1.resync k.1.cfg k.1.buf k.1.err k.1.fault k.1.mfault

theorem Active.moved {i : Instr} {s t : State} (h : Active i s) (k : Moved s t) : Active i t :=
  ⟨h.toKept.moved k, k.1.busy.trans h.busy, by rw [k.1.cur]; exact h.decoded⟩

theorem Active.position {i : Instr} {s : State} (h : Active i s) (x n : BitVec 17) (p : Part) (q : List Byte) (k : Seq) :
    Active i { s with bIdx := x, bLen := n, part := p, lenAcc := q, seq := k } :=
  ⟨h.toKept.congr h.counters.congr, h.busy, h.decoded⟩

theorem State.t0.moved {s t : State} (h : s.t0) (k : Moved s t) : t.t0 := ⟨k.1.sess.trans h.1, k.1.resync.trans h.2⟩

section
variable {α : Type} {Y Y' : State → Prop} {R R' : α → State → Prop} {E E' : Err → State → Prop} {M : MFault → State → Prop}
  {F : RefuseReason → State → Prop} {S : Fault → Prop}

/-- Weakening of the outcomes of a sequence that sets no mark and never stops. -/
theorem Micro.Sat.lift {m : Micro α} (hm : m.Sat Y R E (fun _ _ => False) (fun _ _ => False) (fun _ => False))
    (hY : ∀ t, Y t → Y' t) (hR : ∀ a t, R a t → R' a t) (hE : ∀ e t, E e t → E' e t) : m.Sat Y' R' E' M F S :=
  hm.mono hY hR hE (fun _ _ => False.elim) (fun _ _ => False.elim) (fun _ => False.elim)

/-- A sample of a line never ends the micro-step but by a raise, and touches no counter. -/
theorem readLine_moved (i : LineId) {s : State} (h : CounterBounds s) :
    (readLine i s).Sat Y (fun _ t => Moved s t ∧ t.bitCnt = s.bitCnt ∧ t.pollCnt = s.pollCnt) (fun _ => Moved s) M F S := by
  have hf := readLine_frame i s
  obtain ⟨n, hn⟩ := sampleLine_frame i s
  unfold readLine at hf ⊢
  split
  · rename_i hd
    rw [if_pos hd, hn] at hf
    rw [hn]
    exact ⟨⟨hf.toTransferFrame, h.congr⟩, rfl, rfl⟩
  · exact .refl h

/-- So does a latch write of a send command. -/
theorem writeLine_moved {i : LineId} (hi : i = .oclk ∨ i = .odat) (v : Bit) {s : State} (h : CounterBounds s) :
    (writeLine i v s).Sat Y (fun _ => Moved s) (fun _ => Moved s) M F S := by
  have hf := writeLine_frame hi v s
  unfold writeLine at hf ⊢
  split
  · rename_i hd
    rw [if_pos hd] at hf
    exact ⟨hf, h.congr⟩
  · exact .refl h

end

/-! ### Sending -/

/-- What a send sequence can come to: it goes on at a position of SendWord, ends, or raises. -/
def SendSat (s : State) (m : Micro Unit) : Prop :=
  m.Sat (fun t => Moved s t ∧ t.seq.isSend = true) (fun _ => Moved s) (fun _ => Moved s) (fun _ _ => False) (fun _ _ => False)
    (fun _ => False)

theorem sendBits_sat (bits : List Bit) {s : State} (h : CounterBounds s) : SendSat s (sendBits bits s) := by
  cases bits with
  | nil => exact .refl h
  | cons b rest =>
    exact Micro.sat_andThen (writeLine_moved (.inr rfl) b h) fun _ _ ht => ⟨ht.trans (.seq ht.2 _), rfl⟩

theorem sendResume_sat {s : State} (h : CounterBounds s) (hs : s.seq.isSend = true) : SendSat s (sendResume s) := by
  unfold sendResume
  split
  · exact sendBits_sat _ h
  · exact Micro.sat_andThen (writeLine_moved (.inl rfl) _ h) fun _ _ ht => ⟨ht.trans (.seq ht.2 _), rfl⟩
  · refine Micro.sat_andThen (writeLine_moved (.inl rfl) _ h) fun _ _ ht => ?_
    split
    · exact ht
    · exact ⟨ht.trans (.seq ht.2 _), rfl⟩
  all_goals simp_all [Seq.isSend]

/-! ### Receiving -/

/-- The end of a poll that may be the last one TIMEOUT allows: it goes on with a poll still open, or times out. -/
theorem pollAgain_sat {α : Type} (q : Seq) {s : State} (h : CounterBounds s) :
    (pollAgain q s : Micro α).Sat (fun t => t = { s with seq := q } ∧ t.pollOpen) (fun _ _ => False)
      (fun e t => e = .timeout ∧ t = s) (fun _ _ => False) (fun _ _ => False) (fun _ => False) := by
  unfold pollAgain
  split
  · exact ⟨rfl, rfl⟩
  · rename_i hn
    exact ⟨rfl, fun n ht => lt_of_le_of_ne (h.pollCnt n ht) fun e => hn (e ▸ ht)⟩

/-- A poll yields only to the next poll of the same bit. -/
def PollBitSat (s : State) (m : Micro Bit) : Prop :=
  m.Sat (fun t => Moved s t ∧ t.seq = .poll ∧ t.pollOpen ∧ t.bitCnt = s.bitCnt) (fun _ => Moved s) (fun _ => Moved s)
    (fun _ _ => False) (fun _ _ => False) (fun _ => False)

theorem pollBit_sat {s : State} (h : CounterBounds s) (hp : s.pollOpen) : PollBitSat s (pollBit s) := by
  refine Micro.sat_andThen (readLine_moved _ h) fun c t ⟨ht, hb, hpc⟩ => ?_
  have counted : ∀ ph, Moved s { t with pollCnt := t.pollCnt + 1, phase := ph } := fun ph =>
    ht.trans <| .hidden t.seq t.sr t.bitCnt _ ph ⟨ht.2.sr, ht.2.bitCnt, fun n hn => by
      have := hp n (ht.1.cfg ▸ hn)
      show t.pollCnt + 1 ≤ n
      omega⟩
  have again : ∀ u : State, Moved s u → u.bitCnt = s.bitCnt → PollBitSat s (pollAgain .poll u) := fun u hu hub =>
    (pollAgain_sat .poll hu.2).lift (fun _ ⟨e, ho⟩ => e ▸ ⟨hu.trans (.seq hu.2 _), rfl, e ▸ ho, hub⟩) (fun _ _ => False.elim)
      (fun _ _ ⟨_, e⟩ => e ▸ hu)
  dsimp only
  split
  · split
    · exact again _ (counted .waitActive) hb
    · exact again _ (counted t.phase) hb
  · split
    · exact (readLine_moved .idat (counted t.phase).2).lift (fun _ => id) (fun _ _ k => (counted t.phase).trans k.1)
        (fun _ _ => (counted t.phase).trans)
    · exact again _ (counted t.phase) hb

theorem recvBit_sat {s : State} (h : CounterBounds s) (hw : s.cfg.wf = true) : PollBitSat s (recvBit s) := by
  have hs : Moved s { s with phase := .waitIdle, pollCnt := 0 } :=
    .hidden s.seq s.sr s.bitCnt 0 .waitIdle ⟨h.sr, h.bitCnt, fun _ _ => Nat.zero_le _⟩
  exact (pollBit_sat hs.2 fun _ hn => timeout_of_wf hw hn).lift (fun _ ⟨k, hk⟩ => ⟨hs.trans k, hk⟩) (fun _ _ => hs.trans)
    (fun _ _ => hs.trans)

theorem recvResume_sat {s : State} (h : CounterBounds s) (hw : s.cfg.wf = true) (hs : s.seq.isRecv = true)
    (hp : s.seq = .poll → s.pollOpen) : PollBitSat s (recvResume s) := by
  unfold recvResume
  split
  · exact pollBit_sat h (hp ‹_›)
  · exact recvBit_sat h hw
  all_goals simp_all [Seq.isRecv]

/-- A word in reception yields to a position of RecvWord that still has a bit to take. -/
def RecvSat (s : State) (m : Micro (BitVec 16)) : Prop :=
  m.Sat (fun t => Moved s t ∧ t.seq.isRecv = true ∧ t.wordOpen ∧ (t.seq = .poll → t.pollOpen)) (fun _ => Moved s)
    (fun _ => Moved s) (fun _ _ => False) (fun _ _ => False) (fun _ => False)

theorem RecvSat.of_moved {s t : State} {m : Micro (BitVec 16)} (hm : RecvSat t m) (h : Moved s t) : RecvSat s m :=
  hm.lift (fun _ ⟨k, hk⟩ => ⟨h.trans k, hk⟩) (fun _ _ => h.trans) (fun _ _ => h.trans)

theorem acceptBit_sat (b : Bit) {s : State} (h : CounterBounds s) (hw : s.cfg.wf = true) : RecvSat s (acceptBit b s) := by
  unfold acceptBit
  split
  · rename_i hlt
    have h16 := (width_of_wf hw).2
    have hs : Moved s { s with sr := shiftBit s.cfg s.sr b, bitCnt := s.bitCnt + 1 } := by
      refine .hidden s.seq _ _ s.pollCnt s.phase ⟨toNat_shiftBit_lt hw h.sr b, ?_, h.pollCnt⟩
      show (s.bitCnt + 1).toNat ≤ s.cfg.width
      have h1 : (1 : BitVec 5).toNat = 1 := rfl
      rw [BitVec.toNat_add, h1, Nat.mod_eq_of_lt (by omega)]
      exact hlt
    dsimp only
    split
    · rename_i ho
      exact ⟨hs.trans (.seq hs.2 _), rfl, ho, nofun⟩
    · exact hs
  · split <;> exact .refl h

/-- The bit that a poll ends with is accepted; a poll that goes on leaves the word as open as it was. -/
theorem PollBitSat.acceptBit {s : State} {m : Micro Bit} (hm : PollBitSat s m) (hw : s.cfg.wf = true) (ho : s.wordOpen) :
    RecvSat s (m.andThen acceptBit) := by
  refine Micro.sat_andThen (R := fun _ => Moved s) (hm.lift ?_ (fun _ _ => id) (fun _ _ => id)) fun b t ht => ?_
  · rintro t ⟨ht, hq, hp, hb⟩
    exact ⟨ht, by rw [hq]; rfl, by rw [State.wordOpen, hb, ht.1.cfg]; exact ho, fun _ => hp⟩
  · exact (acceptBit_sat b ht.2 (ht.1.cfg ▸ hw)).of_moved ht

theorem recvWord_sat {s : State} (h : CounterBounds s) (hw : s.cfg.wf = true) : RecvSat s (recvWord s) := by
  have hs : Moved s { s with sr := 0, bitCnt := 0 } :=
    .hidden s.seq 0 0 s.pollCnt s.phase ⟨Nat.two_pow_pos _, Nat.zero_le _, h.pollCnt⟩
  have ho : State.wordOpen { s with sr := 0, bitCnt := 0 } := .inl (width_of_wf hw).1
  exact ((recvBit_sat hs.2 hw).acceptBit hw ho).of_moved hs

theorem recvWordResume_sat {s : State} (h : CounterBounds s) (hw : s.cfg.wf = true) (hs : s.seq.isRecv = true)
    (hp : s.seq = .poll → s.pollOpen) (ho : s.wordOpen) : RecvSat s (recvWordResume s) :=
  (recvResume_sat h hw hs hp).acceptBit hw ho

end Sys2Proof.Machine
end

section
/-! SUPPORT. Every micro-step of a running command answers a next state that meets the invariant: one lemma per command. -/

namespace Sys2Proof.Machine

/-! ### Pieces the commands share -/

/-- A `require`: its error where the condition fails, else what follows. -/
theorem require_sat {α : Type} {Y : State → Prop} {R : α → State → Prop} {E : Err → State → Prop}
    {M : MFault → State → Prop} {F : RefuseReason → State → Prop} {S : Fault → Prop} {c : Bool} {e : Err} {s : State}
    {k : Unit → State → Micro α} (hE : E e s) (hk : c = true → (k () s).Sat Y R E M F S) :
    ((require c e s).andThen k).Sat Y R E M F S := by
  rw [require_andThen]
  split
  · exact hk ‹_›
  · exact hE

theorem t0_of_decide {s : State} (h : (decide (s.sess = .transferring) && !s.resync) = true) : s.t0 := by
  simpa [State.t0] using h

theorem Settled.withRes {s : State} (h : Settled s) (r : Word) : Settled { s with res := r } :=
  ⟨h.toKept.congr h.counters.congr, h.noHandshake⟩

theorem Kept.settled_of_t0 {s : State} (h : Kept s) (ht : s.t0) : Settled s := ⟨h, by rw [ht.1]; decide⟩

/-- In T0 every error may be raised. -/
theorem Kept.raisable_of_t0 {s : State} (h : Kept s) (ht : s.t0) {f : State → Sess} (hf : f s = .idle ∨ f s = .transferring)
    (e : Err) : Raisable f e s :=
  ⟨h, fun _ => ⟨h.dirs (by rw [ht.1]; decide), hf⟩, fun _ => by rw [ht.1]; decide⟩

theorem Kept.raisable_keepSess {s : State} (h : Kept s) (ht : s.t0) (e : Err) : Raisable keepSess e s :=
  h.raisable_of_t0 ht (.inr ht.1) e

theorem Kept.raisable_idleSess {s : State} (h : Kept s) (ht : s.t0) (e : Err) : Raisable idleSess e s :=
  h.raisable_of_t0 ht (.inl rfl) e

/-- The end of a block (spec/43_session.md R163, R165): SESS = Idle. -/
theorem Kept.blockEnd {s : State} (h : Kept s) (ht : s.t0) (r : Word) : Settled { s with sess := .idle, res := r } :=
  ⟨h.session (fun _ => h.dirs (by rw [ht.1]; nofun)) nofun h.counters.congr, nofun⟩

/-! ### Line commands -/

section
variable {s : State}

theorem execLcfg_keeps (h : Settled s) (ln : LineId) (v : Bit) : ∃ t, execLcfg ln v s = .next t ∧ MachineInv t :=
  Micro.Safe.finish <| require_sat (h.raisable rfl _) fun hs => by
    have hs : s.sess = .disabled := by simpa using hs
    exact ⟨h.session (absurd hs) h.resync h.counters.congr, h.noHandshake⟩

theorem execLrd_keeps (h : Settled s) (ln : LineId) : ∃ t, execLrd ln s = .next t ∧ MachineInv t := by
  refine Micro.Safe.finish <| require_sat (h.raisable rfl _) fun _ => ?_
  unfold readLine
  split
  · obtain ⟨n, hn⟩ := sampleLine_frame ln s
    simp only [Micro.andThen, hn]
    exact ⟨h.toKept.congr h.counters.congr, h.noHandshake⟩
  · exact h.raisable rfl _

theorem execLwr_keeps (h : Settled s) (ln : LineId) (v : Bit) : ∃ t, execLwr ln v s = .next t ∧ MachineInv t := by
  refine Micro.Safe.finish <| require_sat (h.raisable rfl _) fun hs => ?_
  unfold writeLine
  split
  · have hs : s.sess = .disabled := by simpa using hs
    exact ⟨h.session (absurd hs) h.resync h.counters.congr, h.noHandshake⟩
  · exact h.raisable rfl _

/-! ### Session commands -/

theorem execEnable_keeps (h : Settled s) : ∃ t, execEnable s = .next t ∧ MachineInv t :=
  Micro.Safe.finish <| require_sat (h.raisable rfl _) fun _ =>
    ⟨h.session (fun _ => rfl) nofun h.counters.congr, nofun⟩

theorem Kept.releaseLine (h : Kept s) (i : LineId) : Kept (releaseLine i s) := by
  obtain ⟨o, l, e, -⟩ := releaseLine_next i s
  rw [e]
  exact h.congr h.counters.congr

theorem execDisable_keeps (h : Settled s) : ∃ t, execDisable s = .next t ∧ MachineInv t := by
  refine Micro.Safe.finish ?_
  split
  · exact h
  · have hk := (((h.toKept.releaseLine .iclk).releaseLine .idat).releaseLine .oclk).releaseLine .odat
    exact ⟨hk.session (absurd rfl) (fun _ => rfl) hk.counters.congr, nofun⟩

/-- WFS is polling. -/
structure Handshaking (s : State) : Prop extends Active .wfs s where
  syncing : s.sess = .syncing
  prior   : s.prior = .idle ∨ s.prior = .transferring
  hsIdx   : s.hsIdx < s.cfg.hsSeq.length

/-- The state after the two samples of a WFS poll (spec/43_session.md R155). -/
def handshakeSampled (s : State) : State :=
  { record (.inp .idat s.extDat) (record (.inp .iclk s.extClk) s) with pollCnt := s.pollCnt + 1 }

/-- A WFS poll with both input lines configured. -/
theorem handshakePoll_eq (hd : s.dir = enabledDirs) :
    handshakePoll s =
      if handshakeMatches s.cfg s.hsIdx (inputVector s.extClk s.extDat) then
        if s.hsIdx + 1 = s.cfg.hsSeq.length then
          .ret () { handshakeSampled s with hsIdx := s.hsIdx + 1, sess := .transferring, resync := false }
        else pollAgain .hsPoll { handshakeSampled s with hsIdx := s.hsIdx + 1 }
      else pollAgain .hsPoll (handshakeSampled s) := by
  unfold handshakePoll
  rw [readLine_iclk (by rw [hd]; rfl), Micro.andThen, readLine_idat (by rw [record_dir, hd]; rfl)]
  rfl

theorem Handshaking.dirs_eq (h : Handshaking s) : s.dir = enabledDirs := h.dirs (by rw [h.syncing]; decide)

theorem Handshaking.pollAgain_safe (h : Handshaking s) : (pollAgain .hsPoll s).Safe priorSess := by
  refine (pollAgain_sat .hsPoll h.counters).lift ?_ (fun _ _ => False.elim) ?_
  · rintro _ ⟨rfl, hp⟩
    have hm : Moved s { s with seq := .hsPoll } := .seq h.counters .hsPoll
    exact (h.toActive.moved hm).machineInv ⟨h.syncing, rfl, h.prior, h.hsIdx⟩ fun _ => hp
  · rintro _ _ ⟨rfl, rfl⟩
    exact ⟨h.toKept, fun _ => ⟨h.dirs_eq, h.prior⟩, fun k => absurd k (by decide)⟩

theorem Handshaking.poll_safe (h : Handshaking s) (hp : s.pollOpen) : (handshakePoll s).Safe priorSess := by
  have hc : CounterBounds (handshakeSampled s) := ⟨h.counters.sr, h.counters.bitCnt, fun n hn => hp n hn⟩
  have hk : Kept (handshakeSampled s) := h.toKept.congr hc
  have again : ∀ k, k < s.cfg.hsSeq.length → Handshaking { handshakeSampled s with hsIdx := k } := fun k hlt =>
    ⟨⟨hk.congr hc.congr, h.busy, h.decoded⟩, h.syncing, h.prior, hlt⟩
  rw [handshakePoll_eq h.dirs_eq]
  split
  · split
    · exact ⟨hk.session (fun _ => h.dirs_eq) nofun hc.congr, nofun⟩
    · have := h.hsIdx
      exact (again (s.hsIdx + 1) (by omega)).pollAgain_safe
  · exact (again s.hsIdx h.hsIdx).pollAgain_safe

end

end Sys2Proof.Machine
end

section
/-! SUPPORT. WFS, the bit and word commands and the buffer commands keep the invariant; the layout of a block and the part of
`MachineInv` that speaks of it. -/

namespace Sys2Proof.Machine

section
variable {s : State}

theorem execWfs_keeps (h : MachineInv s) (ha : Active .wfs s) : ∃ t, execWfs s = .next t ∧ MachineInv t := by
  refine Micro.Safe.finish ?_
  split
  · rename_i hs
    refine require_sat ((h.settled hs).raisable rfl _) fun hl => ?_
    have hl : s.sess = .idle ∨ s.sess = .transferring := by simpa using hl
    have hd : s.dir = enabledDirs := h.dirs (by rcases hl with k | k <;> rw [k] <;> decide)
    have hc : CounterBounds { s with prior := s.sess, sess := .syncing, hsIdx := 0, pollCnt := 0 } :=
      ⟨h.sr, h.bitCnt, fun _ _ => Nat.zero_le _⟩
    exact Handshaking.poll_safe ⟨⟨h.kept.session (fun _ => hd) nofun hc, ha.busy, ha.decoded⟩, rfl, hl, hsSeq_of_wf h.cfg⟩
      fun _ hn => timeout_of_wf h.cfg hn
  · rename_i hs
    obtain ⟨hy, -, hp, hi⟩ := h.fits ha.decoded (by rw [hs]; nofun)
    exact Handshaking.poll_safe ⟨ha, hy, hp, hi⟩ (h.polling (.inr hs))
  · rename_i hs hq
    exact absurd (h.fits ha.decoded hs).2.1 hq

/-! ### Bit and word commands -/

/-- SBIT and SBYTE: a send sequence in T0. -/
theorem SendSat.safe {i : Instr} {m : Micro Unit} (hm : SendSat s m) (ha : Active i s) (ht : s.t0)
    (hi : ∀ t : State, t.t0 → t.seq.isSend = true → RunFits i t) : m.Safe keepSess := by
  refine hm.lift ?_ (fun _ t k => (ha.moved k).toKept.settled_of_t0 (ht.moved k))
    fun e t k => (ha.moved k).toKept.raisable_keepSess (ht.moved k) e
  rintro t ⟨k, hq⟩
  refine (ha.moved k).machineInv (hi t (ht.moved k) hq) fun hp => ?_
  rcases hp with hp | hp <;> simp [hp, Seq.isSend] at hq

theorem execSbit_keeps {b : Bit} (h : MachineInv s) (ha : Active (.sbit b) s) : ∃ t, execSbit b s = .next t ∧ MachineInv t := by
  refine Micro.Safe.finish ?_
  split
  · exact require_sat ((h.settled ‹_›).raisable rfl _) fun ht =>
      (sendBits_sat [b] ha.counters).safe ha (t0_of_decide ht) fun _ => .intro
  · rename_i hs
    obtain ⟨ht, hq⟩ := h.fits ha.decoded hs
    exact (sendResume_sat ha.counters hq).safe ha ht fun _ => .intro

theorem execSbyte_keeps {v : BitVec 16} (h : MachineInv s) (ha : Active (.sbyte v) s) :
    ∃ t, execSbyte v s = .next t ∧ MachineInv t := by
  refine Micro.Safe.finish ?_
  split
  · have hr := (h.settled ‹_›).raisable (e := .usage) rfl keepSess
    refine require_sat ((h.settled ‹_›).raisable rfl _) fun _ => require_sat hr fun ht => ?_
    exact (sendBits_sat _ ha.counters).safe ha (t0_of_decide ht) fun _ => .intro
  · rename_i hs
    obtain ⟨ht, hq⟩ := h.fits ha.decoded hs
    exact (sendResume_sat ha.counters hq).safe ha ht fun _ => .intro

/-- What the receiving part of RBIT or RBYTE comes to, before the result is stored. -/
def ReceivesSafely {α : Type} (m : Micro α) : Prop :=
  m.Sat MachineInv (fun _ => Settled) (Raisable keepSess) (fun _ => MachineInv) (fun _ => MachineInv) (fun _ => False)

theorem PollBitSat.safe {m : Micro Bit} (hm : PollBitSat s m) (ha : Active .rbit s) (ht : s.t0) : ReceivesSafely m := by
  refine hm.lift ?_ (fun _ t k => (ha.moved k).toKept.settled_of_t0 (ht.moved k))
    fun e t k => (ha.moved k).toKept.raisable_keepSess (ht.moved k) e
  rintro t ⟨k, hq, hp, -⟩
  exact (ha.moved k).machineInv ⟨ht.moved k, hq⟩ fun _ => hp

theorem RecvSat.safe {m : Micro (BitVec 16)} (hm : RecvSat s m) (ha : Active .rbyte s) (ht : s.t0) : ReceivesSafely m := by
  refine hm.lift ?_ (fun _ t k => (ha.moved k).toKept.settled_of_t0 (ht.moved k))
    fun e t k => (ha.moved k).toKept.raisable_keepSess (ht.moved k) e
  rintro t ⟨k, hq, ho, hp⟩
  refine (ha.moved k).machineInv ⟨ht.moved k, hq, ho⟩ fun hs => hs.elim hp fun hs => ?_
  simp [hs, Seq.isRecv] at hq

theorem execRbit_keeps (h : MachineInv s) (ha : Active .rbit s) : ∃ t, execRbit s = .next t ∧ MachineInv t := by
  refine Micro.Safe.finish (Micro.sat_andThen (R := fun _ => Settled) ?_ fun _ _ hu => hu.withRes _)
  split
  · exact require_sat ((h.settled ‹_›).raisable rfl _) fun ht =>
      (recvBit_sat ha.counters h.cfg).safe ha (t0_of_decide ht)
  · rename_i hs
    obtain ⟨ht, hq⟩ := h.fits ha.decoded hs
    exact (recvResume_sat ha.counters h.cfg (by rw [hq]; rfl) fun k => h.polling (.inl k)).safe ha ht

theorem execRbyte_keeps (h : MachineInv s) (ha : Active .rbyte s) : ∃ t, execRbyte s = .next t ∧ MachineInv t := by
  refine Micro.Safe.finish (Micro.sat_andThen (R := fun _ => Settled) ?_ fun _ _ hu => hu.withRes _)
  split
  · exact require_sat ((h.settled ‹_›).raisable rfl _) fun ht =>
      (recvWord_sat ha.counters h.cfg).safe ha (t0_of_decide ht)
  · rename_i hs
    obtain ⟨ht, hq, ho⟩ := h.fits ha.decoded hs
    exact (recvWordResume_sat ha.counters h.cfg hq (fun k => h.polling (.inl k)) ho).safe ha ht

/-! ### Buffer and file-level commands -/

theorem execBufw_keeps (h : Settled s) (a : BitVec 16) (d : Byte) : ∃ t, execBufw a d s = .next t ∧ MachineInv t := by
  refine Micro.Safe.finish <| require_sat (h.raisable rfl _) fun ha => ?_
  have ha : a.toNat < s.cfg.bufSize := by simpa using ha
  rw [memWrite, if_pos ha]
  exact ⟨h.toKept.store ha d, h.noHandshake⟩

/-- A byte inside the buffer is read, or found unwritten. -/
theorem memRead_of_lt {a : Nat} (ha : a < s.cfg.bufSize) :
    (∃ v, memRead a s = .ret v s) ∨ memRead a s = .marks .uninitRead s := by
  rw [memRead, if_pos ha]
  cases s.buf.read a with
  | none => exact .inr rfl
  | some v => exact .inl ⟨v, rfl⟩

theorem execBufr_keeps (h : Settled s) (hs : s.seq = .start) (a : BitVec 16) :
    ∃ t, execBufr a s = .next t ∧ MachineInv t := by
  refine Micro.Safe.finish <| require_sat (h.raisable rfl _) fun ha => ?_
  obtain ⟨v, e⟩ | e := memRead_of_lt (of_decide_eq_true ha) <;> rw [e]
  · exact h.withRes _
  · exact h.machineInv hs

theorem refuseFileLevel_keeps (h : MachineInv s) : ∃ t, refuseFileLevel s = .next t ∧ MachineInv t :=
  Micro.Safe.finish h

/-! ### The layout of a block (spec/43_session.md R160) -/

/-- The next element exists, and BIDX fits it: at or after data byte BIDX. -/
theorem blockOpen_of_dataPart (hw : s.cfg.width = 8) (hb : s.bIdx ≤ s.bLen) {p : Part}
    (h : dataPart s.cfg s.bIdx s.bLen = some p) : State.blockOpen { s with part := p } := by
  unfold dataPart at h
  split at h
  · cases h
    exact ⟨hw, hb, ‹_›⟩
  · unfold endPart at h
    split at h
    · cases h
      exact ⟨hw, hb, ‹_›⟩
    · cases h

/-- At or after a length byte. -/
theorem blockOpen_of_lenPart (hw : s.cfg.width = 8) (h0 : s.bIdx = 0) {j : Nat} {p : Part}
    (h : lenPart s.cfg j s.bIdx s.bLen = some p) : State.blockOpen { s with part := p } := by
  have hb : s.bIdx ≤ s.bLen := by bv_omega
  unfold lenPart at h
  split at h
  · rename_i hj
    cases h
    exact ⟨hw, hb, hj.1, hj.2, h0⟩
  · exact blockOpen_of_dataPart hw hb h

/-- At the start of a block. -/
theorem blockOpen_of_firstPart (hw : s.cfg.width = 8) (h0 : s.bIdx = 0) {p : Part}
    (h : firstPart s.cfg s.bIdx s.bLen = some p) : State.blockOpen { s with part := p } := by
  unfold firstPart at h
  split at h
  · cases h
    exact ⟨hw, by bv_omega, ‹_›, h0⟩
  · exact blockOpen_of_lenPart hw h0 h

/-- After an element other than a data byte. -/
theorem State.blockOpen.next (h : s.blockOpen) (hd : s.part ≠ .data) {p : Part}
    (hn : nextPart s.cfg s.part s.bIdx s.bLen = some p) : State.blockOpen { s with part := p } := by
  obtain ⟨hw, hb, hp⟩ := h
  cases he : s.part with
  | startMarker =>
    rw [he] at hp hn
    exact blockOpen_of_lenPart hw hp.2 hn
  | lenByte j =>
    rw [he] at hp hn
    exact blockOpen_of_lenPart hw hp.2.2 hn
  | data => exact absurd he hd
  | endMarker =>
    rw [he] at hn
    cases hn

/-- Data byte BIDX is one of the block's BLEN bytes. -/
theorem State.blockOpen.data_lt (h : s.blockOpen) (hd : s.part = .data) : s.bIdx < s.bLen := by
  have hp := h.2.2
  rw [hd] at hp
  exact hp

/-- After data byte BIDX the index is at most BLEN. -/
theorem bIdx_succ_le {i n : BitVec 17} (h : i < n) : i + 1 ≤ n := by bv_omega

theorem State.blockOpen.moved {t : State} (h : s.blockOpen) (k : Moved s t) : t.blockOpen := by
  unfold State.blockOpen
  rw [k.1.cfg, k.1.bIdx, k.1.bLen, k.1.part]
  exact h

end

end Sys2Proof.Machine
end

section
/-! SUPPORT. The block commands keep the invariant, and so the micro-step of every command. -/

namespace Sys2Proof.Machine

/-! ### SBLK -/

/-- SBLK runs in T0 with its length inside the buffer. -/
structure SblkRuns (len : BitVec 16) (s : State) : Prop extends Active (.sblk len) s where
  t0   : s.t0
  bLen : s.bLen.toNat = len.toNat
  fits : len.toNat ≤ s.cfg.bufSize

theorem SblkRuns.moved {len : BitVec 16} {s t : State} (h : SblkRuns len s) (k : Moved s t) : SblkRuns len t where
  toActive := h.toActive.moved k
  t0       := h.t0.moved k
  bLen     := by rw [k.1.bLen]; exact h.bLen
  fits     := by rw [k.1.cfg]; exact h.fits

theorem SblkRuns.position {len : BitVec 16} {s : State} (h : SblkRuns len s) (i : BitVec 17) (p : Part) (k : Seq) :
    SblkRuns len { s with bIdx := i, part := p, seq := k } :=
  ⟨h.toActive.position i s.bLen p s.lenAcc k, h.t0, h.bLen, h.fits⟩

theorem SblkRuns.machineInv {len : BitVec 16} {s : State} (h : SblkRuns len s) (ho : s.blockOpen)
    (hq : s.seq.isSend = true ∨ s.seq = .elem) : MachineInv s := by
  refine h.toActive.machineInv ⟨h.t0, hq, ho, h.bLen, h.fits⟩ fun hp => ?_
  rcases hp with hp | hp <;> simp [hp, Seq.isSend] at hq

/-- The yield before the next element, or the end of the block. -/
theorem afterSentElem_safe {len : BitVec 16} {s : State} (h : SblkRuns len s) (ho : s.blockOpen) :
    (afterSentElem s).Safe idleSess := by
  unfold afterSentElem
  by_cases hd : s.part = .data
  · rw [if_pos hd]
    dsimp only
    split
    · rename_i p hp
      rw [hd] at hp
      have hn := blockOpen_of_dataPart (s := { s with bIdx := s.bIdx + 1 }) ho.1 (bIdx_succ_le (ho.data_lt hd)) hp
      exact (h.position (s.bIdx + 1) p .elem).machineInv hn (.inr rfl)
    · exact (h.position (s.bIdx + 1) s.part s.seq).toKept.blockEnd h.t0 s.res
  · rw [if_neg hd]
    dsimp only
    split
    · rename_i p hp
      exact (h.position s.bIdx p .elem).machineInv (ho.next hd hp) (.inr rfl)
    · exact h.toKept.blockEnd h.t0 s.res

/-- SBLK's send sequence, and what follows its last bit. -/
theorem SendSat.sblk {len : BitVec 16} {s : State} {m : Micro Unit} (hm : SendSat s m) (h : SblkRuns len s)
    (ho : s.blockOpen) : (m.andThen fun _ t => afterSentElem t).Safe idleSess := by
  refine Micro.sat_andThen (R := fun _ => Moved s) (hm.lift ?_ (fun _ _ => id) ?_) fun _ t k =>
    afterSentElem_safe (h.moved k) (ho.moved k)
  · rintro t ⟨k, hq⟩
    exact (h.moved k).machineInv (ho.moved k) (.inl hq)
  · exact fun e t k => (h.moved k).toKept.raisable_idleSess (h.t0.moved k) e

/-- An element that exists has its byte; a data byte that holds no value is marked. -/
theorem elemByte_of_open {len : BitVec 16} {s : State} (h : SblkRuns len s) (ho : s.blockOpen) :
    (∃ v, elemByte s.part s = .ret v s) ∨ elemByte s.part s = .marks .uninitRead s := by
  obtain ⟨-, -, hp⟩ := ho
  cases he : s.part with
  | startMarker =>
    rw [he] at hp
    obtain ⟨v, hv⟩ := Option.isSome_iff_exists.mp hp.1
    exact .inl ⟨v, by simp [elemByte, hv]⟩
  | lenByte j => exact .inl ⟨_, rfl⟩
  | data =>
    rw [he] at hp
    exact memRead_of_lt ((BitVec.lt_def.mp hp).trans_le (h.bLen.le.trans h.fits))
  | endMarker =>
    rw [he] at hp
    obtain ⟨v, hv⟩ := Option.isSome_iff_exists.mp hp
    exact .inl ⟨v, by simp [elemByte, hv]⟩

theorem sendElem_safe {len : BitVec 16} {s : State} (h : SblkRuns len s) (ho : s.blockOpen) (hm : MachineInv s) :
    ((sendElem s).andThen fun _ t => afterSentElem t).Safe idleSess := by
  unfold sendElem
  obtain ⟨v, e⟩ | e := elemByte_of_open h ho <;> rw [e]
  · exact (sendBits_sat _ h.counters).sblk h ho
  · exact hm

theorem execSblk_keeps {len : BitVec 16} {s : State} (h : MachineInv s) (ha : Active (.sblk len) s) :
    ∃ t, execSblk len s = .next t ∧ MachineInv t := by
  refine Micro.Safe.finish ?_
  split
  · rename_i hs
    have hr := (h.settled hs).raisable (e := .usage) rfl idleSess
    rw [requireByteWidth_andThen]
    split
    · rename_i hw
      refine require_sat hr fun ht => require_sat hr fun hl => ?_
      have ht := t0_of_decide ht
      refine require_sat (ha.toKept.raisable_idleSess ht _) fun _ => ?_
      have hn : (len.setWidth 17).toNat = len.toNat := by
        rw [BitVec.toNat_setWidth, Nat.mod_eq_of_lt (by omega)]
      have hc : ∀ p, SblkRuns len { s with bLen := len.setWidth 17, bIdx := 0, part := p } := fun p =>
        ⟨ha.position 0 _ p s.lenAcc s.seq, ht, hn, of_decide_eq_true hl⟩
      dsimp only
      split
      · rename_i p hp
        have ho := blockOpen_of_firstPart (s := { s with bLen := len.setWidth 17, bIdx := 0 }) hw rfl hp
        exact sendElem_safe (hc p) ho (((hc p).toKept.settled_of_t0 ht).machineInv hs)
      · exact (hc s.part).toKept.blockEnd ht s.res
    · exact h
  · rename_i hs
    obtain ⟨ht, -, ho, hl, hc⟩ := h.fits ha.decoded (by rw [hs]; nofun)
    exact sendElem_safe ⟨ha, ht, hl, hc⟩ ho h
  · rename_i hs he
    obtain ⟨ht, hq, ho, hl, hc⟩ := h.fits ha.decoded hs
    exact (sendResume_sat ha.counters (hq.resolve_right he)).sblk ⟨ha, ht, hl, hc⟩ ho

/-! ### RBLK -/

/-- RBLK runs in T0 with at most its capacity of data bytes, all inside the buffer. -/
structure RblkRuns (cap : BitVec 16) (s : State) : Prop extends Active (.rblk cap) s where
  t0   : s.t0
  bLen : s.bLen.toNat ≤ cap.toNat
  fits : cap.toNat ≤ s.cfg.bufSize

theorem RblkRuns.moved {cap : BitVec 16} {s t : State} (h : RblkRuns cap s) (k : Moved s t) : RblkRuns cap t where
  toActive := h.toActive.moved k
  t0       := h.t0.moved k
  bLen     := by rw [k.1.bLen]; exact h.bLen
  fits     := by rw [k.1.cfg]; exact h.fits

/-- RBLK's block counters, its length bytes and the stored bytes. -/
theorem RblkRuns.position {cap : BitVec 16} {s : State} (h : RblkRuns cap s) (i : BitVec 17) {n : BitVec 17}
    (hn : n.toNat ≤ cap.toNat) (p : Part) (q : List Byte) :
    RblkRuns cap { s with bIdx := i, bLen := n, part := p, lenAcc := q } :=
  ⟨h.toActive.position i n p q s.seq, h.t0, hn, h.fits⟩

theorem RblkRuns.store {cap : BitVec 16} {s : State} (h : RblkRuns cap s) {a : Nat} (ha : a < s.cfg.bufSize) (v : Byte) :
    RblkRuns cap { s with buf := s.buf.write a v } :=
  ⟨⟨h.toKept.store ha v, h.busy, h.decoded⟩, h.t0, h.bLen, h.fits⟩

theorem RblkRuns.raisable {cap : BitVec 16} {s : State} (h : RblkRuns cap s) (e : Err) : Raisable idleSess e s :=
  h.toKept.raisable_idleSess h.t0 e

theorem recvNextElem_safe {cap : BitVec 16} {s : State} (h : RblkRuns cap s) {next : Option Part}
    (hp : ∀ p, next = some p → State.blockOpen { s with part := p }) : (recvNextElem next s).Safe idleSess := by
  cases next with
  | some p =>
    have hm : Moved s { s with seq := .elem } := .seq h.counters .elem
    have hr := (h.moved hm).position s.bIdx h.bLen p s.lenAcc
    exact hr.toActive.machineInv ⟨hr.t0, .inr rfl, hp p rfl, hr.bLen, hr.fits⟩ (by simp)
  | none => exact h.toKept.blockEnd h.t0 _

/-- The last length byte fixes BLEN within the capacity; the one before it does not move BIDX. -/
theorem acceptLenByte_safe {cap : BitVec 16} {s : State} (h : RblkRuns cap s) (ho : s.blockOpen) {j : Nat}
    (hj : s.part = .lenByte j) (b : Byte) : (acceptLenByte cap.toNat j b s).Safe idleSess := by
  obtain ⟨hw, hb, hp⟩ := ho
  rw [hj] at hp
  obtain ⟨hm, -, h0⟩ := hp
  have hr := h.position s.bIdx h.bLen s.part (s.lenAcc ++ [b])
  unfold acceptLenByte
  dsimp only
  split
  · rename_i hlt
    refine recvNextElem_safe hr fun p hp => ?_
    cases hp
    exact ⟨hw, hb, hm, hlt, h0⟩
  · refine require_sat (hr.raisable _) fun hl => ?_
    have hl : assembleLen s.cfg (s.lenAcc ++ [b]) ≤ cap.toNat := of_decide_eq_true hl
    have hn : (BitVec.ofNat 17 (assembleLen s.cfg (s.lenAcc ++ [b]))).toNat ≤ cap.toNat := by
      rw [BitVec.toNat_ofNat]
      exact (Nat.mod_le _ _).trans hl
    refine recvNextElem_safe (hr.position s.bIdx hn s.part (s.lenAcc ++ [b])) fun p hp => ?_
    refine blockOpen_of_dataPart (s := { s with lenAcc := s.lenAcc ++ [b], bLen := BitVec.ofNat 17 _ }) hw ?_ hp
    show s.bIdx ≤ _
    rw [h0]
    bv_omega

theorem acceptElem_safe {cap : BitVec 16} {s : State} (h : RblkRuns cap s) (ho : s.blockOpen) (v : BitVec 16) :
    (acceptElem cap.toNat v s).Safe idleSess := by
  unfold acceptElem
  dsimp only
  split
  · rename_i hp
    refine require_sat (h.raisable _) fun _ => recvNextElem_safe h fun p hn => ?_
    exact ho.next (by rw [hp]; nofun) (by rw [hp]; exact hn)
  · exact acceptLenByte_safe h ho ‹_› _
  · rename_i hp
    have hlt := ho.data_lt hp
    have ha : s.bIdx.toNat < s.cfg.bufSize := (BitVec.lt_def.mp hlt).trans_le (h.bLen.trans h.fits)
    rw [memWrite, if_pos ha]
    have hr := (h.store ha (v.setWidth 8)).position (s.bIdx + 1) h.bLen s.part s.lenAcc
    exact recvNextElem_safe hr fun p hn =>
      blockOpen_of_dataPart (s := { s with buf := s.buf.write _ (v.setWidth 8), bIdx := s.bIdx + 1 }) ho.1 (bIdx_succ_le hlt) hn
  · exact require_sat (h.raisable _) fun _ => recvNextElem_safe h nofun

/-- RBLK's receive sequence, and what follows its last bit. -/
theorem RecvSat.rblk {cap : BitVec 16} {s : State} {m : Micro (BitVec 16)} (hm : RecvSat s m) (h : RblkRuns cap s)
    (ho : s.blockOpen) : (m.andThen (acceptElem cap.toNat)).Safe idleSess := by
  refine Micro.sat_andThen (R := fun _ => Moved s) (hm.lift ?_ (fun _ _ => id) ?_) fun v t k =>
    acceptElem_safe (h.moved k) (ho.moved k) v
  · rintro t ⟨k, hq, hw, hp⟩
    have hr := h.moved k
    refine hr.toActive.machineInv ⟨hr.t0, .inl ⟨hq, hw⟩, ho.moved k, hr.bLen, hr.fits⟩ fun hs => hs.elim hp fun hs => ?_
    simp [hs, Seq.isRecv] at hq
  · exact fun e t k => (h.moved k).raisable e

theorem execRblk_keeps {cap : BitVec 16} {s : State} (h : MachineInv s) (ha : Active (.rblk cap) s) :
    ∃ t, execRblk cap s = .next t ∧ MachineInv t := by
  refine Micro.Safe.finish ?_
  split
  · rename_i hs
    have hr := (h.settled hs).raisable (e := .usage) rfl idleSess
    rw [requireByteWidth_andThen]
    split
    · rename_i hw
      refine require_sat hr fun ht => require_sat hr fun hl => ?_
      have ht := t0_of_decide ht
      refine require_sat (ha.toKept.raisable_idleSess ht _) fun hf => ?_
      have hn : (BitVec.ofNat 17 (if s.cfg.blockMode = .fixed then s.cfg.blockLen.getD 0 else 0)).toNat ≤ cap.toNat := by
        rw [BitVec.toNat_ofNat]
        refine (Nat.mod_le _ _).trans ?_
        split
        · rename_i hm
          simpa [recvLenOk, hm] using hf
        · exact Nat.zero_le _
      have hc : ∀ p, RblkRuns cap { s with bLen := BitVec.ofNat 17 _, bIdx := 0, lenAcc := [], part := p } := fun p =>
        ⟨ha.position 0 _ p [] s.seq, ht, hn, of_decide_eq_true hl⟩
      dsimp only
      split
      · rename_i p hp
        have ho := blockOpen_of_firstPart (s := { s with bLen := BitVec.ofNat 17 _, bIdx := 0, lenAcc := [] }) hw rfl hp
        exact (recvWord_sat (hc p).counters h.cfg).rblk (hc p) ho
      · exact (hc s.part).toKept.blockEnd ht _
    · exact h
  · rename_i hs
    obtain ⟨ht, -, ho, hl, hc⟩ := h.fits ha.decoded (by rw [hs]; nofun)
    exact (recvWord_sat ha.counters h.cfg).rblk ⟨ha, ht, hl, hc⟩ ho
  · rename_i hs he
    obtain ⟨ht, hq, ho, hl, hc⟩ := h.fits ha.decoded hs
    obtain ⟨hq, hw⟩ := hq.resolve_right he
    exact (recvWordResume_sat ha.counters h.cfg hq (fun k => h.polling (.inl k)) hw).rblk ⟨ha, ht, hl, hc⟩ ho

/-! ### Every command -/

/-- In the invariant a micro-step of the running command answers a next state in the invariant. -/
theorem exec_keeps {i : Instr} {s : State} (h : MachineInv s) (hb : s.busy = true) (hd : decode s.cur = .ok i) :
    ∃ t, exec i s = .next t ∧ MachineInv t := by
  have ha := h.active hb hd
  have first : (RunFits i s → False) → s.seq = .start := fun k => by
    by_contra hs
    exact k (h.fits hd hs)
  cases i with
  | lcfg ln v => exact execLcfg_keeps (h.settled (first id)) ln v
  | lrd ln => exact execLrd_keeps (h.settled (first id)) ln
  | lwr ln v => exact execLwr_keeps (h.settled (first id)) ln v
  | sbit b => exact execSbit_keeps h ha
  | rbit => exact execRbit_keeps h ha
  | sbyte v => exact execSbyte_keeps h ha
  | rbyte => exact execRbyte_keeps h ha
  | enable => exact execEnable_keeps (h.settled (first id))
  | disable => exact execDisable_keeps (h.settled (first id))
  | wfs => exact execWfs_keeps h ha
  | sblk len => exact execSblk_keeps h ha
  | rblk cap => exact execRblk_keeps h ha
  | bufw a d => exact execBufw_keeps (h.settled (first id)) a d
  | bufr a => exact execBufr_keeps (h.settled (first id)) (first id) a
  | reqfl | listf | sendf | retrf => exact refuseFileLevel_keeps h

end Sys2Proof.Machine
end

section
/-! SUPPORT. The invariant under every agent's step, and what it excludes: the obligations about `MachineInv`. -/

namespace Sys2Proof.Machine

/-! ### Every step -/

/-- The environment's fields, the peer's levels and the history are not read by the invariant. -/
theorem MachineInv.environment {s : State} (h : MachineInv s) (x y : Bit) (l : List Event) (ms : List Move) (ws : List Word)
    (got : Option Word) (n : Nat) : MachineInv { s with
      extClk := x, extDat := y, events := l, agenda := ms, program := ws, hostGot := got, freeCtr := n } :=
  ⟨h.cfg, h.bufForm, h.bufRange, h.errCode, h.dirs, h.resync, h.sr, h.bitCnt, h.pollCnt, h.polling, h.marked, h.idle,
    h.syncing, h.running⟩

/-- A command is issued while none runs, so in no handshake. -/
theorem MachineInv.issueCommand {s : State} (h : MachineInv s) (hb : s.busy = false) (w : Word) :
    MachineInv (issueCommand w s) := by
  have hs := h.settled (h.idle hb)
  refine Settled.machineInv ⟨?_, hs.noHandshake⟩ rfl
  exact {
    cfg      := hs.cfg
    bufForm  := hs.bufForm
    bufRange := hs.bufRange
    errCode  := Nat.zero_lt_succ 7
    dirs     := hs.dirs
    resync   := hs.resync
    counters := hs.counters.congr
    marked   := hs.marked }

/-- A peer step changes the peer's levels and the history alone. -/
theorem peerStep_frame (ln : PeerLine) (v : Bit) (s : State) :
    ∃ x y l, peerStep ln v s = { s with extClk := x, extDat := y, events := l } := by
  cases ln with
  | iclk =>
    unfold peerStep
    dsimp only
    split
    · exact ⟨s.extClk, s.extDat, s.events, rfl⟩
    · exact ⟨v, s.extDat, _, rfl⟩
  | idat =>
    unfold peerStep
    dsimp only
    split
    · exact ⟨s.extClk, s.extDat, s.events, rfl⟩
    · exact ⟨s.extClk, v, _, rfl⟩

/-- The table of reset (R44) meets the invariant under every well-formed configuration. -/
theorem machineInv_resetBlock {s : State} (hw : s.cfg.wf = true) : MachineInv (resetBlock s) := by
  refine Settled.machineInv ⟨?_, nofun⟩ rfl
  exact {
    cfg      := hw
    bufForm  := Memory.wf_reset
    bufRange := nofun
    errCode  := Nat.zero_lt_succ 7
    dirs     := absurd rfl
    resync   := fun _ => rfl
    counters := ⟨Nat.two_pow_pos _, Nat.zero_le _, fun _ _ => Nat.zero_le _⟩
    marked   := nofun }

theorem Stepped.keeps {s u t : State} (h : Stepped s u t) (hu : MachineInv u) : MachineInv t := by
  cases h with
  | micro i he hd h =>
    obtain ⟨t', ht, hk⟩ := exec_keeps hu he.1 hd
    cases ht.symm.trans h
    exact hk
  | illegal e he hd h =>
    have hs : u.seq = .start := by
      by_contra hs
      obtain ⟨i, hi, -⟩ := hu.running hs
      cases hd.symm.trans hi
    rw [h]
    exact Raisable.raiseExit (f := keepSess) ((hu.settled hs).raisable rfl _)
  | idle got h => exact h ▸ hu.environment u.extClk u.extDat u.events u.agenda u.program got u.freeCtr
  | issue w ws got hb _ h =>
    exact h ▸ (hu.environment u.extClk u.extDat u.events u.agenda ws got u.freeCtr).issueCommand hb w
  | peer ln v h =>
    obtain ⟨x, y, l, e⟩ := peerStep_frame ln v u
    exact h ▸ e ▸ hu.environment x y l u.agenda u.program u.hostGot u.freeCtr
  | read got n h => exact h ▸ hu.environment u.extClk u.extDat u.events u.agenda u.program got n
  | badAccess h =>
    exact h ▸ (hu.environment u.extClk u.extDat u.events u.agenda u.program none u.freeCtr).setRefused .hostAccess
  | reset ms _ h => exact h ▸ machineInv_resetBlock hu.cfg

/-- Settles O9: every move of `step_next` keeps the invariant, the command's micro-step by `exec_keeps`. -/
theorem stepKeepsTheInvariant : Obligations.StepKeepsTheInvariant := by
  unfold Obligations.StepKeepsTheInvariant
  intro s t h hst
  exact (step_next hst).2.keeps (h.environment s.extClk s.extDat s.events s.agenda.tail s.program s.hostGot s.freeCtr)

/-- Settles O10: the reset state is its own reset. -/
theorem resetMeetsTheInvariant : Obligations.ResetMeetsTheInvariant := by
  unfold Obligations.ResetMeetsTheInvariant
  exact machineInv_resetBlock (s := State.reset) (by decide)

/-! ### The faults a step can stop with -/

/-- The two faults that the model itself raises where a precondition of the spec fails (log entry 11). -/
def Fault.internal : Fault → Prop
  | .seqMismatch => True
  | .bufRange => True
  | .hwFault => False
  | .uninitRead => False

theorem MFault.toFault_not_internal (r : MFault) : ¬ r.toFault.internal := by cases r <;> exact id

theorem stopOf_not_internal {s : State} {f : Fault} (h : stopOf s = some (.fault f)) : ¬ f.internal := by
  unfold stopOf at h
  split at h
  · cases h
    exact MFault.toFault_not_internal _
  · cases h
  · split at h
    · cases h
      exact id
    · cases h

theorem microStep_ne_fault {s : State} (h : MachineInv s) (hb : s.busy = true) (f : Fault) : microStep s ≠ .fault f := by
  unfold microStep
  split
  · obtain ⟨t, ht, -⟩ := exec_keeps h hb ‹_›
    rw [ht]
    nofun
  · nofun

theorem blockTurn_fault {s : State} (h : MachineInv s) {f : Fault} (hf : blockTurn s = .fault f) : ¬ f.internal := by
  unfold blockTurn at hf
  split at hf
  · exact stopOf_not_internal (Eq.trans ‹_› (congrArg some hf))
  · split at hf
    · exact absurd hf (microStep_ne_fault h ‹_› f)
    · cases hf

theorem freeTurn_fault {s : State} (h : MachineInv s) {f : Fault} (hf : freeTurn s = .fault f) : ¬ f.internal := by
  unfold freeTurn at hf
  split at hf
  · exact stopOf_not_internal (Eq.trans ‹_› (congrArg some hf))
  · split at hf
    · exact absurd hf (microStep_ne_fault h ‹_› f)
    · split at hf <;> cases hf

/-- The host's accesses end in no fault: an access the model has no step for is refused. -/
theorem hostAccess_ne_fault (a : HostAccess) (s : State) (f : Fault) : hostAccess a s ≠ .fault f := by
  have write : ∀ o w u, writeRegister o w u ≠ .fault f := by
    intro o w u
    unfold writeRegister
    repeat' split
    all_goals nofun
  unfold hostAccess
  split
  · split
    · nofun
    · exact write _ _ _
  · nofun

/-- Under the invariant a step that stops with a fault reports a mark or FAULT. -/
theorem step_fault {s : State} (h : MachineInv s) {f : Fault} (hf : step s = .fault f) : ¬ f.internal := by
  unfold step globalStep at hf
  split at hf
  · split at hf
    · exact freeTurn_fault h hf
    · rename_i m ms _
      cases m with
      | block => exact blockTurn_fault (h.environment s.extClk s.extDat s.events ms s.program s.hostGot s.freeCtr) hf
      | host a => exact absurd hf (hostAccess_ne_fault a _ f)
      | peer ln v => cases hf
      | reset => cases hf
  · cases hf

/-- Settles O11: a fault of the step is that of a stop, and under the invariant the micro-step itself never stops. -/
theorem invariantExcludesInternalStops : Obligations.InvariantExcludesInternalStops := by
  unfold Obligations.InvariantExcludesInternalStops
  exact fun s h => ⟨fun hf => step_fault h hf trivial, fun hf => step_fault h hf trivial⟩

end Sys2Proof.Machine
end

section
/-! SUPPORT. What a turn makes of the marks and of FAULT, and the host's accesses: the obligations about the block's turn, the
host's writes, the marks and FAULT. -/

namespace Sys2Proof.Machine

/-! ### Whose step it is -/

theorem step_of_agenda_nil {s : State} (hw : s.cfg.wf = true) (ha : s.agenda = []) : step s = freeTurn s := by
  unfold step globalStep
  rw [if_pos hw, ha]

theorem step_of_agenda_cons {s : State} (hw : s.cfg.wf = true) {m : Move} {ms : List Move} (ha : s.agenda = m :: ms) :
    step s = perform m { s with agenda := ms } := by
  unfold step globalStep
  rw [if_pos hw, ha]

/-- A stop is what the step answers, whether the block's turn is scheduled or free. -/
theorem step_of_stopOf {s : State} {ms : List Move} {o : Host.Outcome State Fault Refusal} (hw : s.cfg.wf = true)
    (ha : s.agenda = [] ∨ s.agenda = .block :: ms) (h : stopOf s = some o) : step s = o := by
  rcases ha with ha | ha
  · rw [step_of_agenda_nil hw ha, freeTurn, h]
  · have h' : stopOf { s with agenda := ms } = some o := h
    rw [step_of_agenda_cons hw ha, perform, blockTurn, h']

theorem stopOf_of_mfault {s : State} {r : MFault} (h : s.mfault = some r) : stopOf s = some (.fault r.toFault) := by
  rw [stopOf, h]

theorem stopOf_of_refused {s : State} {r : RefuseReason} (hm : s.mfault = none) (h : s.refused = some r) :
    stopOf s = some (.refused r.toRefusal) := by
  rw [stopOf, hm, h]

theorem stopOf_of_unmarked {s : State} (h : s.unmarked) : stopOf s = none := by
  obtain ⟨hm, hr, hf⟩ := h
  rw [stopOf, hm, hr, hf]
  rfl

/-- Settles O6: each mark is the stop of its name. -/
theorem markedBlockTakesNoMicroStep : Obligations.MarkedBlockTakesNoMicroStep := by
  unfold Obligations.MarkedBlockTakesNoMicroStep
  exact fun s ms hw ha => ⟨fun h => step_of_stopOf hw ha (stopOf_of_mfault h),
    fun h => step_of_stopOf hw ha (stopOf_of_mfault h), fun _ hm h => step_of_stopOf hw ha (stopOf_of_refused hm h)⟩

/-- Settles O7: without a stop and with BUSY = 0 the free turn looks at the program. -/
theorem idleBlockTakesTheNextProgramWord : Obligations.IdleBlockTakesTheNextProgramWord := by
  unfold Obligations.IdleBlockTakesTheNextProgramWord
  intro s hw ha hb hu
  have turn : step s = match s.program with
      | [] => .next s
      | w :: ws => .next (issueCommand w { s with program := ws }) := by
    rw [step_of_agenda_nil hw ha, freeTurn, stopOf_of_unmarked hu]
    simp only [hb]
    rfl
  exact ⟨fun hp => by rw [turn, hp], fun w ws hp => by rw [turn, hp]; rfl⟩

/-! ### The host's accesses -/

/-- A write of one of the four registers, as a whole word. -/
theorem step_of_hostWrite {s : State} (hw : s.cfg.wf = true) {o : Nat} {w : Word} {ms : List Move}
    (ho : o = 0x0 ∨ o = 0x4 ∨ o = 0x8 ∨ o = 0xC) (ha : s.agenda = .host ⟨o, 4, some w⟩ :: ms) :
    step s = writeRegister o w { s with agenda := ms, hostGot := none } := by
  have hadm : HostAccess.admitted ⟨o, 4, some w⟩ = true := by
    rcases ho with rfl | rfl | rfl | rfl <;> rfl
  rw [step_of_agenda_cons hw ha, perform, hostAccess, if_pos hadm]

/-- While FAULT = 1 no write has an effect. -/
theorem writeRegister_of_fault {s : State} (h : s.fault = true) (o : Nat) (w : Word) : writeRegister o w s = .next s := by
  simp [writeRegister, h]

theorem step_of_cmdWrite_of_fault {s : State} (hw : s.cfg.wf = true) (hf : s.fault = true) {w : Word} {ms : List Move}
    (ha : s.agenda = .host ⟨0, 4, some w⟩ :: ms) : step s = .next { s with agenda := ms, hostGot := none } := by
  refine (step_of_hostWrite hw (.inl rfl) ha).trans (writeRegister_of_fault ?_ 0 w)
  exact hf

theorem writeRegister_idle {s : State} (hb : s.busy = false) (hu : s.unmarked) (w : Word) :
    writeRegister 0 w s = .next (issueCommand w s) := by
  obtain ⟨hm, hr, hf⟩ := hu
  simp [writeRegister, hb, hm, hr, hf]

theorem writeRegister_busy {s : State} (hf : s.fault = false) (hb : s.busy = true) (w : Word) :
    writeRegister 0 w s = .refused .cmdWriteWhileBusy := by
  simp [writeRegister, hf, hb]

theorem writeRegister_marked {s : State} (hf : s.fault = false) (hb : s.busy = false) (hu : ¬ s.unmarked) (w : Word) :
    writeRegister 0 w s = .refused .cmdWriteWhileMarked := by
  have hm : (s.mfault.isSome || s.refused.isSome) = true := by
    by_contra hn
    exact hu ⟨by simp_all, by simp_all, hf⟩
  simp [writeRegister, hf, hb, hm]

theorem admitted_eq_false {a : HostAccess}
    (h : a.width ≠ 4 ∨ (a.offset ≠ 0x0 ∧ a.offset ≠ 0x4 ∧ a.offset ≠ 0x8 ∧ a.offset ≠ 0xC)) : a.admitted = false := by
  unfold HostAccess.admitted
  rcases h with h | ⟨h0, h4, h8, hC⟩
  · simp [h]
  · simp [h0, h4, h8, hC]

/-- Settles O60: the register's test and the tests of CMD in their order. -/
theorem hostWritesActOnlyAtCmd : Obligations.HostWritesActOnlyAtCmd := by
  unfold Obligations.HostWritesActOnlyAtCmd
  intro s ms w hw
  have write : ∀ {o}, (o = 0x0 ∨ o = 0x4 ∨ o = 0x8 ∨ o = 0xC) → s.agenda = .host ⟨o, 4, some w⟩ :: ms →
      step s = writeRegister o w { s with agenda := ms, hostGot := none } := step_of_hostWrite hw
  refine ⟨fun ha hb hu => ?_, fun ha hf => step_of_cmdWrite_of_fault hw hf ha, fun ha hf => ⟨fun hb => ?_, fun hb hu => ?_⟩,
    fun o ho ha => ?_, fun a h ha hr => ?_⟩
  · refine (write (.inl rfl) ha).trans (writeRegister_idle ?_ ?_ w)
    exacts [hb, hu]
  · refine (write (.inl rfl) ha).trans (writeRegister_busy ?_ ?_ w)
    exacts [hf, hb]
  · refine (write (.inl rfl) ha).trans (writeRegister_marked ?_ ?_ ?_ w)
    exacts [hf, hb, hu]
  · exact (write (.inr ho) ha).trans (if_neg (by rcases ho with rfl | rfl | rfl <;> decide))
  · rw [step_of_agenda_cons hw ha, perform, hostAccess, admitted_eq_false h]
    simp [setRefused, hr]

/-! ### The marks -/

/-- Each mark that stands in `s` holds its reason in `t`. -/
def KeepsMarks (s t : State) : Prop :=
  (∀ r, s.mfault = some r → t.mfault = some r) ∧ (∀ r, s.refused = some r → t.refused = some r)

theorem KeepsMarks.of_eq {s t : State} (hm : t.mfault = s.mfault) (hr : t.refused = s.refused) : KeepsMarks s t :=
  ⟨fun _ => hm.trans, fun _ => hr.trans⟩

theorem KeepsMarks.trans {s t u : State} (h : KeepsMarks s t) (k : KeepsMarks t u) : KeepsMarks s u :=
  ⟨fun r e => k.1 r (h.1 r e), fun r e => k.2 r (h.2 r e)⟩

theorem setMfault_keepsMarks (r : MFault) (s : State) : KeepsMarks s (setMfault r s) :=
  ⟨fun _ h => by simp [h], fun _ => id⟩

theorem setRefused_keepsMarks (r : RefuseReason) (s : State) : KeepsMarks s (setRefused r s) :=
  ⟨fun _ => id, fun _ h => by simp [h]⟩

theorem raiseExit_keepsMarks (x : Sess) (e : Err) (s : State) : KeepsMarks s (raiseExit x e s) := by
  unfold raiseExit
  split
  · exact .of_eq rfl rfl
  · exact setMfault_keepsMarks _ _

theorem exec_keepsMarks {i : Instr} {s t : State} (h : exec i s = .next t) : KeepsMarks s t := by
  have steady : ∀ u, Steady s u → KeepsMarks s u := fun u hu => .of_eq hu.mfault hu.refused
  obtain ⟨f, he⟩ := exec_ends h
  cases he with
  | yields h => exact steady t h
  | completes u h e => exact e ▸ (steady u h).trans (.of_eq rfl rfl)
  | raises r u h e => exact e ▸ (steady u h).trans (raiseExit_keepsMarks _ r u)
  | marks r u h e => exact e ▸ (steady u h).trans (setMfault_keepsMarks r u)
  | refuses r u h e => exact e ▸ (steady u h).trans (setRefused_keepsMarks r u)

theorem Stepped.keepsMarks {s u t : State} (h : Stepped s u t) : KeepsMarks u t := by
  cases h with
  | micro i _ _ h => exact exec_keepsMarks h
  | illegal e _ _ h => exact h ▸ raiseExit_keepsMarks _ _ u
  | peer ln v h =>
    obtain ⟨x, y, l, e⟩ := peerStep_frame ln v u
    exact h ▸ e ▸ .of_eq rfl rfl
  | badAccess h => exact h ▸ setRefused_keepsMarks _ { u with hostGot := none }
  | idle got h | issue w ws got _ _ h | read got n h | reset ms _ h => exact h ▸ .of_eq rfl rfl

/-- Settles O12: a mark is set only where none stands, and reset copies both. -/
theorem marksAreNeverCleared : Obligations.MarksAreNeverCleared := by
  unfold Obligations.MarksAreNeverCleared
  exact fun s t h => (step_next h).2.keepsMarks

/-! ### FAULT -/

theorem Err.code_inj {e f : Err} (h : e.code = f.code) : e = f := by
  revert h
  cases e <;> cases f <;> decide

theorem Err.code_ne_zero (e : Err) : e.code ≠ 0 := by cases e <;> decide

theorem raiseExit_fault (x : Sess) (e : Err) (s : State) : (raiseExit x e s).fault = (!e.recoverable || s.fault) := by
  cases he : e.recoverable with
  | true =>
    rw [raiseExit_recoverable he]
    rfl
  | false =>
    rw [raiseExit_fatal he]
    rfl

/-- What the exit of error `e` leaves in STATUS and in the mark (spec/60_exceptions.md R210 to R212). -/
structure RaisedStatus (e : Err) (s t : State) : Prop where
  err    : t.err = e.code
  busy   : t.busy = false
  fault  : t.fault = (!e.recoverable || s.fault)
  marked : e.recoverable = false → t.mfault.isSome

theorem raiseExit_status (x : Sess) (e : Err) (s : State) : RaisedStatus e s (raiseExit x e s) where
  err    := by simp
  busy   := by simp
  fault  := raiseExit_fault x e s
  marked := fun he => by simp [raiseExit_fatal he]

/-- FAULT stays 0, and where the step ends a command it ends it with success or by reset. -/
def NoRaise (s t : State) : Prop := (t.fault = true → s.fault = true) ∧ (s.busy = true → t.busy = false → t.err = 0)

theorem NoRaise.of_eq {s t : State} (hf : t.fault = s.fault) (hb : t.busy = s.busy) : NoRaise s t :=
  ⟨fun h => hf ▸ h, fun h k => absurd ((hb.trans h).symm.trans k) nofun⟩

theorem exec_raised_or {i : Instr} {s t : State} (h : exec i s = .next t) : (∃ e, RaisedStatus e s t) ∨ NoRaise s t := by
  obtain ⟨f, he⟩ := exec_ends h
  cases he with
  | yields h => exact .inr (.of_eq h.fault h.busy)
  | completes u h e => exact .inr ⟨fun k => by simpa [e, h.fault] using k, fun _ _ => by rw [e]; rfl⟩
  | raises r u h e =>
    have hr := raiseExit_status (f u) r u
    exact .inl ⟨r, e ▸ ⟨hr.err, hr.busy, h.fault ▸ hr.fault, hr.marked⟩⟩
  | marks r u h e => exact .inr (e ▸ .of_eq h.fault h.busy)
  | refuses r u h e => exact .inr (e ▸ .of_eq h.fault h.busy)

/-- Only the exit of an error touches FAULT upwards or ends a command with a code. -/
theorem Stepped.raised_or {s u t : State} (h : Stepped s u t) : (∃ e, RaisedStatus e u t) ∨ NoRaise u t := by
  cases h with
  | micro i _ _ h => exact exec_raised_or h
  | illegal e _ _ h => exact .inl ⟨.illegalCommand, h ▸ raiseExit_status _ _ u⟩
  | idle got h => exact .inr (h ▸ .of_eq rfl rfl)
  | issue w ws got _ _ h => exact .inr (h ▸ ⟨id, nofun⟩)
  | peer ln v h =>
    obtain ⟨x, y, l, e⟩ := peerStep_frame ln v u
    exact .inr (h ▸ e ▸ .of_eq rfl rfl)
  | read got n h => exact .inr (h ▸ .of_eq rfl rfl)
  | badAccess h => exact .inr (h ▸ .of_eq rfl rfl)
  | reset ms _ h => exact .inr (h ▸ ⟨nofun, fun _ _ => rfl⟩)

/-- While FAULT = 1 every step but a reset keeps it: the block takes no micro-step and the host issues nothing. -/
theorem Stepped.fault_kept {s u t : State} (h : Stepped s u t) (hf : u.fault = true) (hr : ∀ ms, s.agenda ≠ .reset :: ms) :
    t.fault = true := by
  have free : u.unmarked → False := fun hu => absurd (hf.symm.trans hu.2.2) nofun
  cases h with
  | micro i he _ _ => exact (free he.2).elim
  | illegal e he _ _ => exact (free he.2).elim
  | issue w ws got _ hu _ => exact (free hu).elim
  | peer ln v h =>
    obtain ⟨x, y, l, e⟩ := peerStep_frame ln v u
    exact h ▸ e ▸ hf
  | idle got h | read got n h | badAccess h => exact h ▸ hf
  | reset ms ha h => exact absurd ha (hr ms)

theorem exists_stopOf_of_fault {s : State} (hf : s.fault = true) : ∃ o, stopOf s = some o := by
  cases ho : stopOf s with
  | some o => exact ⟨o, rfl⟩
  | none => exact absurd (hf.symm.trans (stopOf_none ho).2.2) nofun

/-- Settles O14: the exits are the only steps that set FAULT, and a set FAULT is a stop of the block. -/
theorem faultFlagFollowsItsRule : Obligations.FaultFlagFollowsItsRule := by
  unfold Obligations.FaultFlagFollowsItsRule
  refine ⟨fun s t e h hb hb' he hc => ?_, fun s t h hf hf' => ?_, fun s t h hf hr => (step_next h).2.fault_kept hf hr,
    fun s ms hw ha => ⟨_, step_of_agenda_cons hw ha, rfl⟩, fun s ms hw hf ha t => ?_,
    fun s ms w hw hf ha => step_of_cmdWrite_of_fault hw hf ha⟩
  · rcases (step_next h).2.raised_or with ⟨e', hr⟩ | hn
    · have : e' = e := Err.code_inj (hr.err.symm.trans hc)
      rw [hr.fault, this, he]
      rfl
    · exact absurd (hc.symm.trans (hn.2 hb hb')) e.code_ne_zero
  · rcases (step_next h).2.raised_or with ⟨e, hr⟩ | hn
    · have he : e.recoverable = false := by simpa [hf', show s.fault = false from hf] using hr.fault
      exact ⟨e, he, hr.err, hr.busy, hr.marked he⟩
    · exact absurd (hf.symm.trans (hn.1 hf')) nofun
  · obtain ⟨o, ho⟩ := exists_stopOf_of_fault hf
    rw [step_of_stopOf hw ha ho]
    exact stopOf_next ho

/-! ### Tables -/

/-- Settles O15: `State.reset` writes the table out. -/
theorem resetStateIsTheTable : Obligations.ResetStateIsTheTable := by
  unfold Obligations.ResetStateIsTheTable
  exact ⟨fun i => by cases i <;> exact ⟨rfl, rfl⟩, rfl, rfl, rfl, rfl, rfl, rfl, rfl, rfl, rfl, fun _ => rfl, by decide⟩

/-- A bit of STATUS, by the fields from bit 0 upwards (R23). -/
theorem status_getLsbD (s : State) (i : Nat) : s.status.getLsbD i =
    if i < 2 then s.sess.code.getLsbD i else if i < 3 then s.resync else if i < 4 then s.busy
    else if i < 8 then s.err.getLsbD (i - 4) else if i < 9 then s.fault else false := by
  simp only [State.status, BitVec.getLsbD_append]
  by_cases h : i < 9
  · interval_cases i <;> simp
  · repeat rw [if_neg (by omega)]
    exact BitVec.getLsbD_zero

/-- Settles O59: the word is the concatenation of its fields, so each is found at the sum of the widths below it. -/
theorem statusWordHasItsFields : Obligations.StatusWordHasItsFields := by
  unfold Obligations.StatusWordHasItsFields
  refine ⟨⟨rfl, rfl, rfl, rfl⟩, fun s => ?_⟩
  have field : ∀ k n (v : BitVec n), (∀ i < n, s.status.getLsbD (k + i) = v.getLsbD i) → s.status.extractLsb' k n = v :=
    fun k n v h => BitVec.eq_of_getLsbD_eq fun i hi => by rw [BitVec.getLsbD_extractLsb', h i hi]; simp [hi]
  refine ⟨field 0 2 _ fun i hi => ?_, ?_, ?_, field 4 4 _ fun i hi => ?_, ?_, field 9 23 _ fun i hi => ?_⟩
  all_goals rw [status_getLsbD]
  · simp [hi]
  · rfl
  · rfl
  · rw [if_neg (by omega), if_neg (by omega), if_neg (by omega), if_pos (by omega), Nat.add_sub_cancel_left]
  · rfl
  · repeat rw [if_neg (by omega)]
    exact BitVec.getLsbD_zero.symm

end Sys2Proof.Machine
end

section
/-! SUPPORT. Frames over all commands, from the inversion lemma of each command: the environment, the status, RES, the lines
and the session. -/

namespace Sys2Proof.Machine

/-! ### The environment -/

/-- Everything of the state that no command writes. -/
def environmentOf (s : State) : Cfg × Word × Bit × Bit × List Move × List Word × Option Word :=
  (s.cfg, s.cur, s.extClk, s.extDat, s.agenda, s.program, s.hostGot)

theorem Steady.environment {s t : State} (h : Steady s t) : environmentOf t = environmentOf s := by
  simp only [environmentOf, h.cfg, h.cur, h.extClk, h.extDat, h.agenda, h.program, h.hostGot]

/-- Settles O17: the pseudocode keeps the environment, and so does each exit. -/
theorem commandsLeaveTheEnvironmentAlone : Obligations.CommandsLeaveTheEnvironmentAlone := by
  unfold Obligations.CommandsLeaveTheEnvironmentAlone
  intro i s t h
  obtain ⟨f, he⟩ := exec_ends h
  have henv : environmentOf t = environmentOf s :=
    he.proj environmentOf (fun _ => Steady.environment) (fun _ => Steady.environment) (fun _ => rfl)
      (fun x e u => by simp [environmentOf]) (fun _ _ => rfl) (fun _ _ => rfl)
  simpa [environmentOf] using henv

/-! ### The status -/

/-- Settles O20: the command goes on where it yields or sets a mark, and ends where it completes or raises. -/
theorem statusChangesOnlyAtTheCommandsEnd : Obligations.StatusChangesOnlyAtTheCommandsEnd := by
  unfold Obligations.StatusChangesOnlyAtTheCommandsEnd
  intro i s t h
  have noEnd : ∀ u, Steady s u → ∀ code, Event.done code ∉ u.events.drop s.events.length := fun u hu code => by
    obtain ⟨l, hl, hd⟩ := hu.events
    rw [hl, List.drop_left]
    exact hd code
  obtain ⟨f, he⟩ := exec_ends h
  cases he with
  | yields h => exact .inl ⟨h.err, h.busy, h.fault, noEnd t h⟩
  | completes u h e => exact .inr (e ▸ ⟨rfl, Nat.zero_lt_succ 7, rfl, List.getLast?_concat⟩)
  | raises r u h e => exact .inr (by rw [e]; exact ⟨by simp, by simp [r.code_lt], by simp, by simp⟩)
  | marks r u h e => exact .inl (e ▸ ⟨h.err, h.busy, h.fault, noEnd u h⟩)
  | refuses r u h e => exact .inl (e ▸ ⟨h.err, h.busy, h.fault, noEnd u h⟩)

/-! ### RES -/

/-- No exit writes RES. -/
theorem Ends.res {f : State → Sess} {P Q : State → Prop} {t : State} {r : Word} (h : Ends f P Q t)
    (hP : ∀ u, P u → u.res = r) (hQ : ∀ u, Q u → u.res = r) : t.res = r :=
  h.proj (·.res) hP hQ (fun _ => rfl) (fun x e u => raiseExit_res x e u) (fun _ _ => rfl) (fun _ _ => rfl)

/-- Where the pseudocode keeps RES until it returns, a change of RES is a completion. -/
theorem Ends.completed_of_res {f : State → Sess} {P Q : State → Prop} {t : State} {r : Word} (h : Ends f P Q t)
    (hP : ∀ u, P u → u.res = r) (hne : t.res ≠ r) : t.busy = false ∧ t.err = 0 := by
  cases h with
  | yields h => exact absurd (hP t h) hne
  | completes u h e => exact e ▸ ⟨rfl, rfl⟩
  | raises e' u h e => exact absurd (by rw [e, raiseExit_res]; exact hP u h) hne
  | marks r' u h e => exact absurd (by rw [e]; exact hP u h) hne
  | refuses r' u h e => exact absurd (by rw [e]; exact hP u h) hne

/-- Settles O19: a command either keeps RES in all its pseudocode, or writes it where it returns. -/
theorem resultChangesOnlyOnSuccess : Obligations.ResultChangesOnlyOnSuccess := by
  unfold Obligations.ResultChangesOnlyOnSuccess
  intro i s t h hne
  cases i with
  | lcfg ln v => rcases execLcfg_next h with ⟨_, rfl⟩ | ⟨_, rfl⟩ <;> exact absurd (by simp) hne
  | lrd ln =>
    rcases execLrd_next h with ⟨_, _, v, u, _, rfl⟩ | ⟨_, _, rfl⟩ | ⟨_, rfl⟩
    · exact ⟨rfl, rfl, trivial⟩
    · exact absurd (by simp) hne
    · exact absurd (by simp) hne
  | lwr ln v => rcases execLwr_next h with ⟨_, _, rfl⟩ | ⟨_, _, rfl⟩ | ⟨_, rfl⟩ <;> exact absurd (by simp) hne
  | sbit b => exact absurd ((execSbit_next h).res (fun _ k => k.res) fun _ k => k.res) hne
  | sbyte v => exact absurd ((execSbyte_next h).res (fun _ k => k.res) fun _ k => k.res) hne
  | rbit =>
    obtain ⟨hb, he⟩ := (execRbit_next h).completed_of_res (fun _ k => k.res) hne
    exact ⟨hb, he, trivial⟩
  | rbyte =>
    obtain ⟨hb, he⟩ := (execRbyte_next h).completed_of_res (fun _ k => k.res) hne
    exact ⟨hb, he, trivial⟩
  | enable => rcases execEnable_next h with ⟨_, rfl⟩ | ⟨_, rfl⟩ <;> exact absurd (by simp [enabled]) hne
  | disable => rcases execDisable_next h with ⟨_, rfl⟩ | ⟨_, o, l, _, _, rfl⟩ <;> exact absurd (by simp) hne
  | wfs =>
    rcases execWfs_next h with ⟨_, _, _, rfl⟩ | ⟨b, hb, he⟩
    · exact absurd (by simp) hne
    · have hb : b.res = s.res := by rcases hb with ⟨_, rfl⟩ | ⟨_, _, rfl⟩ <;> rfl
      refine absurd (he.res ?_ ?_) hne
      · rintro _ ⟨u, n, hu, _, rfl⟩
        exact hu.res.trans hb
      · rintro _ ⟨u, hu, _, rfl⟩
        exact hu.res.trans hb
  | sblk len =>
    refine absurd ((execSblk_next h).res (fun _ k => k.1.res) ?_) hne
    rintro _ ⟨v, k, rfl⟩
    exact k.1.res
  | rblk cap =>
    obtain ⟨hb, he⟩ := (execRblk_next h).completed_of_res (fun _ k => k.1.res) hne
    exact ⟨hb, he, trivial⟩
  | bufw a d => rcases execBufw_next h with ⟨_, rfl⟩ | ⟨_, rfl⟩ <;> exact absurd (by simp) hne
  | bufr a =>
    rcases execBufr_next h with ⟨v, _, _, rfl⟩ | ⟨_, _, rfl⟩ | ⟨_, rfl⟩
    · exact ⟨rfl, rfl, trivial⟩
    · exact absurd rfl hne
    · exact absurd (by simp) hne
  | reqfl | listf | sendf | retrf => exact absurd (by rw [refuseFileLevel_next h]; rfl) hne

/-! ### Directions and latches -/

theorem Ends.dir {f : State → Sess} {P Q : State → Prop} {t : State} {d : LineFile Dir} (h : Ends f P Q t)
    (hP : ∀ u, P u → u.dir = d) (hQ : ∀ u, Q u → u.dir = d) : t.dir = d :=
  h.proj (·.dir) hP hQ (fun _ => rfl) (fun x e u => raiseExit_dir x e u) (fun _ _ => rfl) (fun _ _ => rfl)

theorem Ends.latch {f : State → Sess} {P Q : State → Prop} {t : State} {ln : LineId} {v : Bit} (h : Ends f P Q t)
    (hP : ∀ u, P u → u.out.get ln = v) (hQ : ∀ u, Q u → u.out.get ln = v) : t.out.get ln = v :=
  h.proj (·.out.get ln) hP hQ (fun _ => rfl) (fun x e u => by simp only [raiseExit_out]) (fun _ _ => rfl) (fun _ _ => rfl)

/-- A block's frame keeps the latches of the two input lines. -/
theorem BlockFrame.latch {s t : State} (h : BlockFrame s t) {ln : LineId} (hl : ln = .iclk ∨ ln = .idat) :
    t.out.get ln = s.out.get ln := by
  rcases hl with rfl | rfl
  · exact h.outIclk
  · exact h.outIdat

/-- What WFS polls leave alone, from the state of its first poll on. -/
theorem execWfs_lines {s t : State} (h : execWfs s = .next t) : t.dir = s.dir ∧ t.out = s.out := by
  rcases execWfs_next h with ⟨_, _, _, rfl⟩ | ⟨b, hb, he⟩
  · exact ⟨by simp, by simp⟩
  · have hb : b.dir = s.dir ∧ b.out = s.out := by rcases hb with ⟨_, rfl⟩ | ⟨_, _, rfl⟩ <;> exact ⟨rfl, rfl⟩
    have hP : ∀ u, PollOn b u → u.dir = s.dir ∧ u.out = s.out := by
      rintro _ ⟨u, n, hu, _, rfl⟩
      exact ⟨hu.dir.trans hb.1, hu.out.trans hb.2⟩
    have hQ : ∀ u, PollDone b u → u.dir = s.dir ∧ u.out = s.out := by
      rintro _ ⟨u, hu, _, rfl⟩
      exact ⟨hu.dir.trans hb.1, hu.out.trans hb.2⟩
    exact ⟨he.dir (fun u k => (hP u k).1) fun u k => (hQ u k).1,
      he.proj (·.out) (fun u k => (hP u k).2) (fun u k => (hQ u k).2) (fun _ => rfl) (fun x e u => raiseExit_out x e u)
        (fun _ _ => rfl) fun _ _ => rfl⟩

/-- Settles O21: the frame of each command on the directions and on the latches. -/
theorem directionsAndLatchesOutsideAreKept : Obligations.DirectionsAndLatchesOutsideAreKept := by
  unfold Obligations.DirectionsAndLatchesOutsideAreKept
  intro i s t ln h
  have get : t.dir = s.dir → t.dir.get ln = s.dir.get ln := fun e => by rw [e]
  cases i with
  | lcfg ln' v =>
    rcases execLcfg_next h with ⟨_, rfl⟩ | ⟨_, rfl⟩
    · exact ⟨LineFile.get_set_other _ _, fun _ => rfl⟩
    · exact ⟨fun _ => by simp, fun _ => by simp⟩
  | lrd ln' =>
    rcases execLrd_next h with ⟨_, _, v, u, hu, rfl⟩ | ⟨_, _, rfl⟩ | ⟨_, rfl⟩
    · exact ⟨fun _ => get hu.dir, fun _ => congrArg (·.get ln) hu.out⟩
    · exact ⟨fun _ => by simp, fun _ => by simp⟩
    · exact ⟨fun _ => by simp, fun _ => by simp⟩
  | lwr ln' v =>
    rcases execLwr_next h with ⟨_, _, rfl⟩ | ⟨_, _, rfl⟩ | ⟨_, rfl⟩
    · exact ⟨fun _ => rfl, LineFile.get_set_other _ _⟩
    · exact ⟨fun _ => by simp, fun _ => by simp⟩
    · exact ⟨fun _ => by simp, fun _ => by simp⟩
  | sbit b =>
    have he := execSbit_next h
    exact ⟨fun _ => get (he.dir (fun _ k => k.dir) fun _ k => k.dir),
      fun hl => he.latch (fun _ k => k.block.latch hl) fun _ k => k.block.latch hl⟩
  | sbyte v =>
    have he := execSbyte_next h
    exact ⟨fun _ => get (he.dir (fun _ k => k.dir) fun _ k => k.dir),
      fun hl => he.latch (fun _ k => k.block.latch hl) fun _ k => k.block.latch hl⟩
  | rbit =>
    have he := execRbit_next h
    exact ⟨fun _ => get (he.dir (fun _ k => k.dir) fun _ ⟨_, _, k, e⟩ => e ▸ k.dir),
      fun _ => he.latch (fun _ k => congrArg (·.get ln) k.out) fun _ ⟨_, _, k, e⟩ => e ▸ congrArg (·.get ln) k.out⟩
  | rbyte =>
    have he := execRbyte_next h
    exact ⟨fun _ => get (he.dir (fun _ k => k.dir) fun _ ⟨_, _, k, e⟩ => e ▸ k.dir),
      fun _ => he.latch (fun _ k => congrArg (·.get ln) k.out) fun _ ⟨_, _, k, e⟩ => e ▸ congrArg (·.get ln) k.out⟩
  | enable =>
    refine ⟨False.elim, fun hl => ?_⟩
    rcases execEnable_next h with ⟨_, rfl⟩ | ⟨_, rfl⟩
    · rcases hl with rfl | rfl <;> rfl
    · simp
  | disable =>
    rcases execDisable_next h with ⟨_, rfl⟩ | ⟨_, o, l, _, ho, rfl⟩
    · exact ⟨fun _ => rfl, fun _ => rfl⟩
    · exact ⟨fun _ => rfl, ho ln⟩
  | wfs =>
    obtain ⟨hd, ho⟩ := execWfs_lines h
    exact ⟨fun _ => get hd, fun _ => congrArg (·.get ln) ho⟩
  | sblk len =>
    have he := execSblk_next h
    exact ⟨fun _ => get (he.dir (fun _ k => k.1.dir) fun _ ⟨_, k, e⟩ => e ▸ k.1.dir),
      fun hl => he.latch (fun _ k => k.1.latch hl) fun _ ⟨_, k, e⟩ => e ▸ k.1.latch hl⟩
  | rblk cap =>
    have he := execRblk_next h
    exact ⟨fun _ => get (he.dir (fun _ k => k.1.dir) fun _ ⟨_, k, e⟩ => e ▸ k.1.dir),
      fun _ => he.latch (fun _ k => congrArg (·.get ln) k.2.1) fun _ ⟨_, k, e⟩ => e ▸ congrArg (·.get ln) k.2.1⟩
  | bufw a d =>
    rcases execBufw_next h with ⟨_, rfl⟩ | ⟨_, rfl⟩
    · exact ⟨fun _ => rfl, fun _ => rfl⟩
    · exact ⟨fun _ => by simp, fun _ => by simp⟩
  | bufr a =>
    rcases execBufr_next h with ⟨v, _, _, rfl⟩ | ⟨_, _, rfl⟩ | ⟨_, rfl⟩
    · exact ⟨fun _ => rfl, fun _ => rfl⟩
    · exact ⟨fun _ => rfl, fun _ => rfl⟩
    · exact ⟨fun _ => by simp, fun _ => by simp⟩
  | reqfl | listf | sendf | retrf =>
    rw [refuseFileLevel_next h]
    exact ⟨fun _ => rfl, fun _ => rfl⟩

/-! ### The session -/

/-- SESS is kept, and RESYNC kept or set by a recoverable end. -/
def SessionKept (s t : State) : Prop :=
  t.sess = s.sess ∧ (t.resync = s.resync ∨ (t.resync = true ∧ t.busy = false ∧ ∃ e : Err, e.recoverable = true ∧ t.err = e.code))

/-- An error of a command that is no session or block command (spec/60_exceptions.md R211). -/
theorem raiseExit_sessionKept {s u : State} (hs : u.sess = s.sess) (hr : u.resync = s.resync) (e : Err) :
    SessionKept s (raiseExit u.sess e u) := by
  cases he : e.recoverable with
  | true =>
    rw [raiseExit_recoverable he]
    exact ⟨hs, .inr ⟨rfl, rfl, e, he, rfl⟩⟩
  | false =>
    rw [raiseExit_fatal he]
    exact ⟨hs, .inl hr⟩

theorem Ends.sessionKept {P Q : State → Prop} {s t : State} (h : Ends keepSess P Q t)
    (hP : ∀ u, P u → u.sess = s.sess ∧ u.resync = s.resync) (hQ : ∀ u, Q u → u.sess = s.sess ∧ u.resync = s.resync) :
    SessionKept s t := by
  cases h with
  | yields h => exact ⟨(hP t h).1, .inl (hP t h).2⟩
  | completes u h e => exact e ▸ ⟨(hQ u h).1, .inl (hQ u h).2⟩
  | raises r u h e => exact e ▸ raiseExit_sessionKept (hP u h).1 (hP u h).2 r
  | marks r u h e => exact e ▸ ⟨(hP u h).1, .inl (hP u h).2⟩
  | refuses r u h e => exact e ▸ ⟨(hP u h).1, .inl (hP u h).2⟩

/-- Settles O23: each of these commands keeps the session in its pseudocode, and its errors leave SESS as it is. -/
theorem sessionKeptByLineBitWordAndBufferCommands : Obligations.SessionKeptByLineBitWordAndBufferCommands := by
  unfold Obligations.SessionKeptByLineBitWordAndBufferCommands
  intro i s t h hi
  have raised : ∀ e, SessionKept s (raiseExit s.sess e s) := raiseExit_sessionKept rfl rfl
  suffices SessionKept s t from this
  cases i with
  | lcfg ln v =>
    rcases execLcfg_next h with ⟨_, rfl⟩ | ⟨_, rfl⟩
    · exact ⟨rfl, .inl rfl⟩
    · exact raised _
  | lrd ln =>
    rcases execLrd_next h with ⟨_, _, v, u, hu, rfl⟩ | ⟨_, _, rfl⟩ | ⟨_, rfl⟩
    · exact ⟨hu.sess, .inl hu.resync⟩
    · exact raised _
    · exact raised _
  | lwr ln v =>
    rcases execLwr_next h with ⟨_, _, rfl⟩ | ⟨_, _, rfl⟩ | ⟨_, rfl⟩
    · exact ⟨rfl, .inl rfl⟩
    · exact raised _
    · exact raised _
  | sbit b => exact (execSbit_next h).sessionKept (fun _ k => ⟨k.sess, k.resync⟩) fun _ k => ⟨k.sess, k.resync⟩
  | sbyte v => exact (execSbyte_next h).sessionKept (fun _ k => ⟨k.sess, k.resync⟩) fun _ k => ⟨k.sess, k.resync⟩
  | rbit =>
    exact (execRbit_next h).sessionKept (fun _ k => ⟨k.sess, k.resync⟩) fun _ ⟨_, _, k, e⟩ => e ▸ ⟨k.sess, k.resync⟩
  | rbyte =>
    exact (execRbyte_next h).sessionKept (fun _ k => ⟨k.sess, k.resync⟩) fun _ ⟨_, _, k, e⟩ => e ▸ ⟨k.sess, k.resync⟩
  | enable | disable | wfs | sblk _ | rblk _ => exact hi.elim
  | bufw a d =>
    rcases execBufw_next h with ⟨_, rfl⟩ | ⟨_, rfl⟩
    · exact ⟨rfl, .inl rfl⟩
    · exact raised _
  | bufr a =>
    rcases execBufr_next h with ⟨v, _, _, rfl⟩ | ⟨_, _, rfl⟩ | ⟨_, rfl⟩
    · exact ⟨rfl, .inl rfl⟩
    · exact ⟨rfl, .inl rfl⟩
    · exact raised _
  | reqfl | listf | sendf | retrf =>
    rw [refuseFileLevel_next h]
    exact ⟨rfl, .inl rfl⟩

end Sys2Proof.Machine
end

section
/-! SUPPORT. What a step does to the block buffer and to the directions, SBLK's read of an unwritten byte, and the host's reads:
the obligations of spec/20_memory.md. -/

namespace Sys2Proof.Machine

/-! ### Where a command stores -/

/-- The addresses at which a micro-step of `i` may store (spec/20_memory.md R52): ADDR16 for BUFW, BIDX for RBLK in a data
element. -/
def storesAt (i : Instr) (s : State) (a : Nat) : Prop :=
  match i with
  | .bufw addr _ => a = addr.toNat
  | .rblk _ => s.part = .data ∧ a = s.bIdx.toNat
  | _ => False

/-- `m` is the buffer of `s`, with at most one byte written where `i` stores. -/
def StoredBy (i : Instr) (s : State) (m : Memory) : Prop :=
  m = s.buf ∨ ∃ a v, storesAt i s a ∧ m = s.buf.write a v

/-- No exit writes the buffer. -/
theorem Ends.buf {f : State → Sess} {P Q : State → Prop} {t : State} {B : Memory → Prop} (h : Ends f P Q t)
    (hP : ∀ u, P u → B u.buf) (hQ : ∀ u, Q u → B u.buf) : B t.buf := by
  cases h with
  | yields h => exact hP t h
  | completes u h e => exact e ▸ hQ u h
  | raises r u h e => rw [e, raiseExit_buf]; exact hP u h
  | marks r u h e => exact e ▸ hP u h
  | refuses r u h e => exact e ▸ hP u h

/-- WFS only samples and counts. -/
theorem execWfs_buf {s t : State} (h : execWfs s = .next t) : t.buf = s.buf := by
  rcases execWfs_next h with ⟨_, _, _, rfl⟩ | ⟨b, hb, he⟩
  · exact raiseExit_buf _ _ s
  · have hb : b.buf = s.buf := by rcases hb with ⟨_, rfl⟩ | ⟨_, _, rfl⟩ <;> rfl
    exact he.buf (B := (· = s.buf)) (fun _ ⟨_, _, k, _, e⟩ => e ▸ k.buf.trans hb) fun _ ⟨_, k, _, e⟩ => e ▸ k.buf.trans hb

theorem RblkFrame.storedBy {cap : BitVec 16} {s t : State} (h : RblkFrame s t) : StoredBy (.rblk cap) s t.buf := by
  obtain ⟨-, -, hb | ⟨hp, -, v, hb⟩⟩ := h
  · exact .inl hb
  · exact .inr ⟨_, v, ⟨hp, rfl⟩, hb⟩

/-- The buffer after a micro-step of any command. -/
theorem exec_storedBy {i : Instr} {s t : State} (h : exec i s = .next t) : StoredBy i s t.buf := by
  have raised : ∀ x e, StoredBy i s (raiseExit x e s).buf := fun x e => .inl (raiseExit_buf x e s)
  cases i with
  | lcfg ln v =>
    rcases execLcfg_next h with ⟨_, rfl⟩ | ⟨_, rfl⟩
    · exact .inl rfl
    · exact raised _ _
  | lrd ln =>
    rcases execLrd_next h with ⟨_, _, v, u, hu, rfl⟩ | ⟨_, _, rfl⟩ | ⟨_, rfl⟩
    · exact .inl hu.buf
    · exact raised _ _
    · exact raised _ _
  | lwr ln v =>
    rcases execLwr_next h with ⟨_, _, rfl⟩ | ⟨_, _, rfl⟩ | ⟨_, rfl⟩
    · exact .inl rfl
    · exact raised _ _
    · exact raised _ _
  | sbit b => exact (execSbit_next h).buf (fun _ k => .inl k.buf) fun _ k => .inl k.buf
  | sbyte v => exact (execSbyte_next h).buf (fun _ k => .inl k.buf) fun _ k => .inl k.buf
  | rbit => exact (execRbit_next h).buf (fun _ k => .inl k.buf) fun _ ⟨_, _, k, e⟩ => .inl (e ▸ k.buf)
  | rbyte => exact (execRbyte_next h).buf (fun _ k => .inl k.buf) fun _ ⟨_, _, k, e⟩ => .inl (e ▸ k.buf)
  | enable =>
    rcases execEnable_next h with ⟨_, rfl⟩ | ⟨_, rfl⟩
    · exact .inl rfl
    · exact raised _ _
  | disable =>
    rcases execDisable_next h with ⟨_, rfl⟩ | ⟨_, o, l, _, _, rfl⟩
    · exact .inl rfl
    · exact .inl rfl
  | wfs => exact .inl (execWfs_buf h)
  | sblk len => exact (execSblk_next h).buf (fun _ k => .inl k.2) fun _ ⟨_, k, e⟩ => .inl (e ▸ k.2)
  | rblk cap => exact (execRblk_next h).buf (fun _ k => k.storedBy) fun _ ⟨_, k, e⟩ => e ▸ k.storedBy
  | bufw a d =>
    rcases execBufw_next h with ⟨_, rfl⟩ | ⟨_, rfl⟩
    · exact .inr ⟨_, d, rfl, rfl⟩
    · exact raised _ _
  | bufr a =>
    rcases execBufr_next h with ⟨v, _, _, rfl⟩ | ⟨_, _, rfl⟩ | ⟨_, rfl⟩
    · exact .inl rfl
    · exact .inl rfl
    · exact raised _ _
  | reqfl | listf | sendf | retrf =>
    rw [refuseFileLevel_next h]
    exact .inl rfl

theorem StoredBy.read_eq {i : Instr} {s : State} {m : Memory} (h : StoredBy i s m) {a : Nat} (ha : ¬ storesAt i s a) :
    m.read a = s.buf.read a := by
  rcases h with rfl | ⟨b, v, hb, rfl⟩
  · rfl
  · exact Memory.read_write_other _ v fun e => ha (e ▸ hb)

theorem StoredBy.isSome_read {i : Instr} {s : State} {m : Memory} (h : StoredBy i s m) {a : Nat}
    (ha : (s.buf.read a).isSome) : (m.read a).isSome := by
  rcases h with rfl | ⟨b, v, -, rfl⟩
  · exact ha
  · exact Memory.isSome_write ha b v

/-- Settles O18: the buffer has at most the byte written that the command stores, and the address is another one. -/
theorem bufferBytesOutsideTheStoreAreKept : Obligations.BufferBytesOutsideTheStoreAreKept := by
  unfold Obligations.BufferBytesOutsideTheStoreAreKept
  intro i s t a h ha
  refine (exec_storedBy h).read_eq ?_
  cases i with
  | bufw addr d => exact ha
  | rblk cap => exact fun ⟨hp, hb⟩ => ha.elim (· hp) (· hb)
  | _ => exact id

/-! ### What only reset takes back -/

/-- A command sets a direction to IN or OUT, or leaves it. -/
theorem exec_dir_ne_uncfg {i : Instr} {s t : State} (h : exec i s = .next t) {ln : LineId} (hl : s.dir.get ln ≠ .uncfg) :
    t.dir.get ln ≠ .uncfg := by
  have kept := (directionsAndLatchesOutsideAreKept i s t ln h).1
  cases i with
  | lcfg ln' v =>
    by_cases e : ln = ln'
    · subst e
      rcases execLcfg_next h with ⟨_, rfl⟩ | ⟨_, rfl⟩
      · rw [complete_dir, configure_dir, LineFile.get_set_self]
        cases v <;> decide
      · rwa [raiseExit_dir]
    · rwa [kept e]
  | enable =>
    rcases execEnable_next h with ⟨_, rfl⟩ | ⟨_, rfl⟩
    · show enabledDirs.get ln ≠ .uncfg
      cases ln <;> decide
    · rwa [raiseExit_dir]
  | _ => rwa [kept trivial]

/-- Every line configured in `s` is configured in `t`, and every byte written in `s` is written in `t`. -/
def TakesNothingBack (s t : State) : Prop :=
  (∀ ln, s.dir.get ln ≠ .uncfg → t.dir.get ln ≠ .uncfg) ∧ ∀ a, (s.buf.read a).isSome → (t.buf.read a).isSome

theorem TakesNothingBack.of_eq {s t : State} (hd : t.dir = s.dir) (hb : t.buf = s.buf) : TakesNothingBack s t :=
  ⟨fun _ h => hd ▸ h, fun _ h => hb ▸ h⟩

theorem Stepped.takesNothingBack {s u t : State} (h : Stepped s u t) (hr : ∀ ms, s.agenda ≠ .reset :: ms) :
    TakesNothingBack u t := by
  cases h with
  | micro i _ _ h => exact ⟨fun _ => exec_dir_ne_uncfg h, fun _ => (exec_storedBy h).isSome_read⟩
  | illegal e _ _ h => exact h ▸ .of_eq (raiseExit_dir _ _ u) (raiseExit_buf _ _ u)
  | peer ln v h =>
    obtain ⟨x, y, l, e⟩ := peerStep_frame ln v u
    exact h ▸ e ▸ .of_eq rfl rfl
  | idle got h | issue w ws got _ _ h | read got n h | badAccess h => exact h ▸ .of_eq rfl rfl
  | reset ms ha h => exact absurd ha (hr ms)

/-- Settles O22: of the moves of a step only reset touches the directions and the buffer outside a command. -/
theorem onlyResetTakesBackDirectionsAndBytes : Obligations.OnlyResetTakesBackDirectionsAndBytes := by
  unfold Obligations.OnlyResetTakesBackDirectionsAndBytes
  exact fun s t h hr => (step_next h).2.takesNothingBack hr

/-! ### SBLK's read of an unwritten byte -/

theorem setMfault_of_unmarked {s : State} (h : s.mfault = none) (r : MFault) :
    setMfault r s = { s with mfault := some r } := by
  rw [setMfault, h]
  rfl

/-- A data element whose byte holds no value sets the mark before it drives a line (R53, spec/43_session.md R163). -/
theorem sendElem_of_unwritten {s : State} (hp : s.part = .data) (hi : s.bIdx.toNat < s.cfg.bufSize)
    (hn : s.buf.read s.bIdx.toNat = none) : sendElem s = .marks .uninitRead s := by
  rw [sendElem, hp, elemByte, memRead, if_pos hi, hn]
  rfl

/-- With its data byte unwritten an element is all the micro-step gets to. -/
theorem finish_sendElem_of_unwritten {s : State} (hp : s.part = .data) (hi : s.bIdx.toNat < s.cfg.bufSize)
    (hn : s.buf.read s.bIdx.toNat = none) (hm : s.mfault = none) (k : Unit → State → Micro Unit) :
    finish idleSess ((sendElem s).andThen k) = .next { s with mfault := some .uninitRead } := by
  rw [sendElem_of_unwritten hp hi hn, ← setMfault_of_unmarked hm]
  rfl

theorem execSblk_elem {s : State} (hs : s.seq = .elem) (len : BitVec 16) :
    execSblk len s = finish idleSess ((sendElem s).andThen fun _ t => afterSentElem t) := by
  rw [execSblk, hs]

/-- SBLK past its checks starts the first element of the layout (spec/43_session.md R160, R163). -/
theorem execSblk_start {s : State} {len : BitVec 16} (hs : s.seq = .start) (ht : s.t0) (hw : s.cfg.width = 8)
    (hl : len.toNat ≤ s.cfg.bufSize) (hk : sendLenOk s.cfg len.toNat = true) {p : Part}
    (hp : firstPart s.cfg 0 (len.setWidth 17) = some p) :
    execSblk len s = finish idleSess
      ((sendElem { s with bLen := len.setWidth 17, bIdx := 0, part := p }).andThen fun _ t => afterSentElem t) := by
  obtain ⟨hsess, hres⟩ := ht
  simp only [execSblk, hs, requireByteWidth_andThen, requireT0, require_andThen, hw, hsess, hres, hl, hk, hp, decide_true,
    Bool.not_false, Bool.and_self, if_true]

/-- In FIXED mode BLOCK_LEN is positive and fits the buffer (wf5 of spec/00_scope.md R6). -/
theorem blockLen_of_wf {c : Cfg} (h : c.wf = true) (hb : c.blockMode = .fixed) {n : Nat} (hn : c.blockLen = some n) :
    1 ≤ n ∧ n ≤ c.bufSize := by
  simp [Cfg.wf, Cfg.wf5, hb, hn] at h
  omega

/-- A FIXED block without a start marker begins with its first data byte (spec/43_session.md R160). -/
theorem firstPart_of_fixed {c : Cfg} (hb : c.blockMode = .fixed) (hm : c.startMarker = none) {n : BitVec 17} (hn : 0 < n) :
    firstPart c 0 n = some .data := by
  rw [firstPart, lenPart, dataPart, hb, hm, if_pos hn]
  rfl

/-- Settles O50: in both micro-steps the element read is a data byte within the buffer. -/
theorem sblkOfAnUnwrittenByteIsAModelFault : Obligations.SblkOfAnUnwrittenByteIsAModelFault := by
  unfold Obligations.SblkOfAnUnwrittenByteIsAModelFault
  refine ⟨fun s len hs hp hi hn hm => ?_, fun s len hw hs ht h8 hl hb hlen hm hn hu => ?_⟩
  · exact (execSblk_elem hs len).trans (finish_sendElem_of_unwritten hp hi hn hm _)
  · obtain ⟨h1, hle⟩ := blockLen_of_wf hw hb hlen
    have hpos : (0 : BitVec 17) < len.setWidth 17 := by bv_omega
    have hok : sendLenOk s.cfg len.toNat = true := by simp [sendLenOk, hb, hlen]
    refine (execSblk_start hs ht h8 hl hok (firstPart_of_fixed hb hm hpos)).trans ?_
    exact finish_sendElem_of_unwritten (s := { s with bLen := len.setWidth 17, bIdx := 0, part := .data }) rfl (h1.trans hle)
      hn hu _

/-! ### The host's reads -/

/-- A read of one of the four registers, as a whole word. -/
theorem step_of_hostRead {s u : State} (hw : s.cfg.wf = true) {o : Nat} {v : Word} {ms : List Move}
    (ho : o = 0x0 ∨ o = 0x4 ∨ o = 0x8 ∨ o = 0xC) (ha : s.agenda = .host ⟨o, 4, none⟩ :: ms)
    (hv : readRegister o { s with agenda := ms } = (v, u)) : step s = .next { u with hostGot := some v } := by
  have hadm : HostAccess.admitted ⟨o, 4, none⟩ = true := by
    rcases ho with rfl | rfl | rfl | rfl <;> rfl
  rw [step_of_agenda_cons hw ha, perform, hostAccess, if_pos hadm]
  simp only [hv]

/-- A level is the known one, or a draw that moves the free-value count alone. -/
theorem levelOrDraw_eq (k : Option Bit) (s : State) :
    ∃ v n, levelOrDraw k s = (v, { s with freeCtr := n }) ∧ ∀ w, k = some w → v = w ∧ n = s.freeCtr := by
  cases k with
  | some w => exact ⟨w, s.freeCtr, rfl, fun _ e => ⟨Option.some.inj e, rfl⟩⟩
  | none => exact ⟨_, _, rfl, nofun⟩

theorem State.pin_of_out {s : State} {i : LineId} (h : s.dir.get i = .out) : s.pin i = some (s.out.get i) := if_pos h

/-- A line the peer drives has a level in every direction (spec/10_state.md R22). -/
theorem State.pin_of_ext {s : State} {i : LineId} {x : Bit} (h : s.ext i = some x) :
    s.pin i = some (if s.dir.get i = .out then s.out.get i else x) := by
  unfold State.pin
  split
  · rfl
  · exact h

/-- The word of a read of LINES (spec/10_state.md R30), and what the read changes. -/
theorem readLines_eq (s : State) : ∃ l2 l3 n,
    readLines s = (linesWord s (if s.dir.iclk = .out then s.out.iclk else s.extClk)
      (if s.dir.idat = .out then s.out.idat else s.extDat) l2 l3, { s with freeCtr := n })
    ∧ (s.dir.oclk = .out → l2 = s.out.oclk) ∧ (s.dir.odat = .out → l3 = s.out.odat)
    ∧ (s.dir.oclk = .out → s.dir.odat = .out → n = s.freeCtr) := by
  obtain ⟨l2, n2, e2, h2⟩ := levelOrDraw_eq (s.pin .oclk) s
  obtain ⟨l3, n3, e3, h3⟩ := levelOrDraw_eq (s.pin .odat) { s with freeCtr := n2 }
  have clk : s.pin .iclk = some _ := State.pin_of_ext rfl
  have dat : s.pin .idat = some _ := State.pin_of_ext rfl
  have odat : State.pin { s with freeCtr := n2 } .odat = s.pin .odat := rfl
  refine ⟨l2, l3, n3, ?_, fun ho => (h2 _ (State.pin_of_out ho)).1, fun ho => (h3 _ (State.pin_of_out ho)).1,
    fun ho ho' => (h3 _ (State.pin_of_out ho')).2.trans (h2 _ (State.pin_of_out ho)).2⟩
  have input : ∀ i x, s.pin i = some x → levelOrDraw (s.pin i) s = (x, s) := fun i x h => by rw [h]; rfl
  simp only [readLines, input _ _ clk, input _ _ dat, e2, odat, e3]
  rfl

/-- The bits of LINES, by the fields from bit 0 upwards (spec/10_state.md R30). -/
theorem linesWord_getLsbD (s : State) (l0 l1 l2 l3 : Bit) (i : Nat) : (linesWord s l0 l1 l2 l3).getLsbD i =
    if i < 1 then l0 else if i < 2 then l1 else if i < 3 then l2 else if i < 4 then l3
    else if i < 6 then s.dir.iclk.code.getLsbD (i - 4) else if i < 8 then s.dir.idat.code.getLsbD (i - 6)
    else if i < 10 then s.dir.oclk.code.getLsbD (i - 8) else if i < 12 then s.dir.odat.code.getLsbD (i - 10)
    else if i < 13 then s.out.iclk else if i < 14 then s.out.idat else if i < 15 then s.out.oclk
    else if i < 16 then s.out.odat else false := by
  simp only [linesWord, BitVec.getLsbD_append]
  by_cases h : i < 16
  · interval_cases i <;> simp
  · repeat rw [if_neg (by omega)]
    exact BitVec.getLsbD_zero

/-- A field of a word, from its bits. -/
theorem extractLsb'_eq_of_getLsbD {w : Word} {k n : Nat} {v : BitVec n} (h : ∀ i < n, w.getLsbD (k + i) = v.getLsbD i) :
    w.extractLsb' k n = v :=
  BitVec.eq_of_getLsbD_eq fun i hi => by rw [BitVec.getLsbD_extractLsb', h i hi]; simp [hi]

/-- The direction fields of LINES. -/
theorem linesWord_dirs (s : State) (l0 l1 l2 l3 : Bit) :
    (linesWord s l0 l1 l2 l3).extractLsb' 4 2 = s.dir.iclk.code ∧ (linesWord s l0 l1 l2 l3).extractLsb' 6 2 = s.dir.idat.code
      ∧ (linesWord s l0 l1 l2 l3).extractLsb' 8 2 = s.dir.oclk.code
      ∧ (linesWord s l0 l1 l2 l3).extractLsb' 10 2 = s.dir.odat.code := by
  refine ⟨?_, ?_, ?_, ?_⟩ <;> refine extractLsb'_eq_of_getLsbD fun i hi => ?_ <;> rw [linesWord_getLsbD] <;>
    interval_cases i <;> rfl

theorem linesWord_zeros (s : State) (l0 l1 l2 l3 : Bit) : (linesWord s l0 l1 l2 l3).extractLsb' 16 16 = 0 := by
  refine extractLsb'_eq_of_getLsbD fun i _ => ?_
  rw [linesWord_getLsbD]
  repeat rw [if_neg (by omega)]
  exact BitVec.getLsbD_zero.symm

/-- Settles O58: each read by the register it names, and LINES by its fields. -/
theorem hostReadsTheRegisters : Obligations.HostReadsTheRegisters := by
  unfold Obligations.HostReadsTheRegisters
  refine ⟨⟨rfl, rfl, rfl⟩, fun s ms hw => ⟨fun ha => step_of_hostRead hw (.inl rfl) ha rfl,
    fun ha => step_of_hostRead hw (.inr (.inl rfl)) ha rfl, fun ha => step_of_hostRead hw (.inr (.inr (.inl rfl))) ha rfl,
    fun ha => ?_⟩⟩
  obtain ⟨l2, l3, n, e, h2, h3, hn⟩ := readLines_eq { s with agenda := ms }
  obtain ⟨d0, d1, d2, d3⟩ := linesWord_dirs s _ _ l2 l3
  refine ⟨_, n, step_of_hostRead hw (.inr (.inr (.inr rfl))) ha e, ?_, ?_, fun ho => ?_, fun ho => ?_, d0, d1, d2, d3,
    ?_, ?_, ?_, ?_, linesWord_zeros _ _ _ _ _, hn⟩
  · exact linesWord_getLsbD _ _ _ _ _ 0
  · exact linesWord_getLsbD _ _ _ _ _ 1
  · exact (linesWord_getLsbD _ _ _ _ _ 2).trans (h2 ho)
  · exact (linesWord_getLsbD _ _ _ _ _ 3).trans (h3 ho)
  · exact linesWord_getLsbD _ _ _ _ _ 12
  · exact linesWord_getLsbD _ _ _ _ _ 13
  · exact linesWord_getLsbD _ _ _ _ _ 14
  · exact linesWord_getLsbD _ _ _ _ _ 15

end Sys2Proof.Machine
end

section
/-! SUPPORT. The decoder and the encoder against each other (spec/30_encoding.md R72 to R80): a word with the fixed bits of its
row decodes to the row's command, the fixed bits and the operand fields of a word are all of its bits, and the obligations about
words that decode. -/

namespace Sys2Proof

/-! ### The rows of the opcode map -/

theorem Row.ofOpcode_opcode (r : Row) : Row.ofOpcode r.opcode = some r := by cases r <;> rfl

theorem Row.opcode_of_ofOpcode {op : BitVec 8} {r : Row} (h : Row.ofOpcode op = some r) : r.opcode = op :=
  beq_iff_eq.mp (List.find?_some h :)

theorem rowOf_term (r : Row) (w : Word) : rowOf (r.term w) = r := by cases r <;> rfl

theorem isFormatX_rowOf (i : Instr) : (rowOf i).isFormatX = Machine.fileLevel i := by cases i <;> rfl

theorem fieldOp_mask (r : Row) : fieldOp r.mask = BitVec.allOnes 8 := by cases r <;> rfl

theorem fieldOp_pattern (r : Row) : fieldOp r.pattern = r.opcode := by cases r <;> rfl

/-- OP is among the fixed bits of every row. -/
theorem fieldOp_of_fixedBits {r : Row} {w : Word} (h : w &&& r.mask = r.pattern) : fieldOp w = r.opcode :=
  calc fieldOp w = fieldOp w &&& fieldOp r.mask := by rw [fieldOp_mask, BitVec.and_allOnes]
    _ = fieldOp (w &&& r.mask) := BitVec.extractLsb'_and.symm
    _ = r.opcode := by rw [h, fieldOp_pattern]

/-! ### The decoder, by the row of OP -/

theorem decode_of_opcode {r : Row} {w : Word} (h : fieldOp w = r.opcode) : decode w =
    if r.isFormatX then .ok (r.term w) else if w &&& r.mask = r.pattern then .ok (r.term w) else .error .mustBeZeroBit := by
  rw [decode, h, Row.ofOpcode_opcode]

theorem decode_of_fixedBits {r : Row} {w : Word} (h : w &&& r.mask = r.pattern) : decode w = .ok (r.term w) := by
  rw [decode_of_opcode (fieldOp_of_fixedBits h), if_pos h, ite_self]

/-- What a word that decodes is: of the row of its OP, which is of format X or has its fixed bits in the word. -/
theorem decode_ok {w : Word} {i : Instr} (h : decode w = .ok i) :
    ∃ r : Row, i = r.term w ∧ (r.isFormatX = true ∨ w &&& r.mask = r.pattern) := by
  cases ho : Row.ofOpcode (fieldOp w) with
  | none =>
    rw [decode, ho] at h
    cases h
  | some r =>
    refine ⟨r, ?_⟩
    rw [decode_of_opcode (Row.opcode_of_ofOpcode ho).symm] at h
    split at h
    · cases h
      exact ⟨rfl, .inl ‹_›⟩
    · split at h
      · cases h
        exact ⟨rfl, .inr ‹_›⟩
      · cases h

/-! ### The encoder's word -/

theorem encode_fixedBits (i : Instr) : encode i &&& (rowOf i).mask = (rowOf i).pattern := by
  cases i with
  | lcfg ln v => exact Laws.Encoding.lcfg ln v
  | lrd ln => exact Laws.Encoding.lrd ln
  | lwr ln v => exact Laws.Encoding.lwr ln v
  | sbit b => exact Laws.Encoding.sbit b
  | sbyte imm => exact Laws.Encoding.sbyte imm
  | sblk len => exact Laws.Encoding.sblk len
  | rblk cap => exact Laws.Encoding.rblk cap
  | bufw addr data => exact Laws.Encoding.bufw addr data
  | bufr addr => exact Laws.Encoding.bufr addr
  | rbit | rbyte | enable | disable | wfs | reqfl | listf | sendf | retrf => rfl

theorem fieldImm16_append (op z : Byte) (imm : BitVec 16) : fieldImm16 (op ++ z ++ imm) = imm :=
  BitVec.extractLsb'_append_eq_right

theorem fieldData8_append (op : Byte) (addr : BitVec 16) (d : Byte) : fieldData8 (op ++ addr ++ d) = d :=
  BitVec.extractLsb'_append_eq_right

theorem fieldAddr16_append (op : Byte) (addr : BitVec 16) (d : Byte) : fieldAddr16 (op ++ addr ++ d) = addr :=
  (BitVec.extractLsb'_append_eq_of_le (le_refl 8)).trans BitVec.extractLsb'_append_eq_right

/-- The fields read from the encoder's word are the operands written to it. -/
theorem term_encode (i : Instr) : (rowOf i).term (encode i) = i := by
  cases i with
  | lcfg ln v | lwr ln v => cases ln <;> cases v <;> rfl
  | lrd ln => cases ln <;> rfl
  | sbit b => cases b <;> rfl
  | sbyte imm => exact congrArg Instr.sbyte (fieldImm16_append _ _ imm)
  | sblk len => exact congrArg Instr.sblk (fieldImm16_append _ _ len)
  | rblk cap => exact congrArg Instr.rblk (fieldImm16_append _ _ cap)
  | bufw addr data => exact congrArg₂ Instr.bufw (fieldAddr16_append _ addr data) (fieldData8_append _ addr data)
  | bufr addr => exact congrArg Instr.bufr (fieldAddr16_append _ addr 0)
  | rbit | rbyte | enable | disable | wfs | reqfl | listf | sendf | retrf => rfl

theorem decode_encode (i : Instr) : decode (encode i) = .ok i := by
  rw [decode_of_fixedBits (encode_fixedBits i), term_encode]

/-- Settles O1: the encoder's word has the fixed bits of its row, and its fields are the operands. -/
theorem decodeOfEncodeIsTheCommand : Obligations.DecodeOfEncodeIsTheCommand := by
  unfold Obligations.DecodeOfEncodeIsTheCommand
  exact decode_encode

/-- Settles O3: all but the last are the encoder's words; REQFL's word is read in format X. -/
theorem sampleWordsDecode : Obligations.SampleWordsDecode := by
  unfold Obligations.SampleWordsDecode
  exact ⟨decode_encode (.lcfg .odat true), decode_encode (.lrd .idat), decode_encode (.lwr .oclk true),
    decode_encode (.sbyte 0xA5), decode_encode (.bufw 0x0002 0x7F), rfl⟩

/-! ### The bits of a word that its row leaves free -/

theorem getLsbD_eq_of_extractLsb'_eq {v w : Word} {k n i : Nat} (h : v.extractLsb' k n = w.extractLsb' k n) (hk : k ≤ i)
    (hi : i < k + n) : v.getLsbD i = w.getLsbD i := by
  have hbit := congrArg (·.getLsbD (i - k)) h
  simpa [BitVec.getLsbD_extractLsb', Nat.add_sub_cancel' hk, show i - k < n by omega] using hbit

theorem LineId.ofCode_inj {a b : BitVec 2} (h : LineId.ofCode a = LineId.ofCode b) : a = b := by
  revert a b
  decide

theorem getLsbD_eq_of_fieldLn_eq {v w : Word} (h : fieldLn v = fieldLn w) {i : Nat} (hi : i < 2) :
    v.getLsbD i = w.getLsbD i :=
  getLsbD_eq_of_extractLsb'_eq (LineId.ofCode_inj h) (Nat.zero_le i) (by omega)

/-- Two words agree that agree in the bits of a mask and in the bits outside it. -/
theorem eq_of_masked_eq {m v w : Word} (h : v &&& m = w &&& m)
    (hfree : ∀ i < 32, m.getLsbD i = false → v.getLsbD i = w.getLsbD i) : v = w := by
  refine BitVec.eq_of_getLsbD_eq fun i hi => ?_
  cases hm : m.getLsbD i with
  | false => exact hfree i hi hm
  | true => simpa [hm] using congrArg (·.getLsbD i) h

/-- Outside format X every bit is a fixed bit or in an operand field (R72 to R76). -/
theorem eq_of_fixedBits_of_term {r : Row} (hx : r.isFormatX = false) {v w : Word} (hfix : v &&& r.mask = w &&& r.mask)
    (hterm : r.term v = r.term w) : v = w := by
  refine eq_of_masked_eq hfix fun i hi hm => ?_
  cases r with
  | lcfg | lwr =>
    have free : ∀ i < 32, Row.lcfg.mask.getLsbD i = false → i < 2 ∨ i = 8 := by decide
    injection hterm with hln hv
    rcases free i hi hm with h | rfl
    · exact getLsbD_eq_of_fieldLn_eq hln h
    · exact hv
  | lrd =>
    have free : ∀ i < 32, Row.lrd.mask.getLsbD i = false → i < 2 := by decide
    injection hterm with hln
    exact getLsbD_eq_of_fieldLn_eq hln (free i hi hm)
  | sbit =>
    have free : ∀ i < 32, Row.sbit.mask.getLsbD i = false → i = 0 := by decide
    injection hterm with hb
    cases free i hi hm
    exact hb
  | sbyte | sblk | rblk =>
    have free : ∀ i < 32, Row.sbyte.mask.getLsbD i = false → i < 16 := by decide
    injection hterm with himm
    exact getLsbD_eq_of_extractLsb'_eq himm (Nat.zero_le i) (by have := free i hi hm; omega)
  | bufw =>
    have free : ∀ i < 32, Row.bufw.mask.getLsbD i = false → i < 24 := by decide
    injection hterm with haddr hdata
    have := free i hi hm
    by_cases h : i < 8
    · exact getLsbD_eq_of_extractLsb'_eq hdata (Nat.zero_le i) (by omega)
    · exact getLsbD_eq_of_extractLsb'_eq haddr (by omega) (by omega)
  | bufr =>
    have free : ∀ i < 32, Row.bufr.mask.getLsbD i = false → 8 ≤ i ∧ i < 24 := by decide
    injection hterm with haddr
    exact getLsbD_eq_of_extractLsb'_eq haddr (free i hi hm).1 (free i hi hm).2
  | rbit | rbyte | enable | disable | wfs =>
    have free : ∀ i < 32, Row.rbit.mask.getLsbD i = true := by decide
    exact absurd ((free i hi).symm.trans hm) nofun
  | reqfl | listf | sendf | retrf => cases hx

theorem encode_term {r : Row} (hx : r.isFormatX = false) {w : Word} (h : w &&& r.mask = r.pattern) :
    encode (r.term w) = w := by
  have hfix := encode_fixedBits (r.term w)
  have hterm := term_encode (r.term w)
  rw [rowOf_term] at hfix hterm
  exact eq_of_fixedBits_of_term hx (hfix.trans h.symm) hterm

/-- Settles O2: outside format X a word that decodes has the fixed bits of its row. -/
theorem decodedWordIsTheEncoding : Obligations.DecodedWordIsTheEncoding := by
  unfold Obligations.DecodedWordIsTheEncoding
  intro w i h hf
  obtain ⟨r, rfl, hr⟩ := decode_ok h
  have hx : r.isFormatX = false := by rw [← rowOf_term r w, isFormatX_rowOf, hf]
  exact encode_term hx (hr.resolve_left (by simp [hx]))

end Sys2Proof
end

section
/-! SUPPORT. The illegal words (spec/30_encoding.md R82): what the block's step makes of a word that is no command, and the
obligation about it. -/

namespace Sys2Proof.Machine

/-! ### Words that are no command -/

/-- The values of OP that the opcode map leaves out, by the ranges of R82 a. -/
def ReservedOp (op : BitVec 8) : Prop :=
  op.toNat < 0x10 ∨ (0x13 ≤ op.toNat ∧ op.toNat ≤ 0x1F) ∨ (0x22 ≤ op.toNat ∧ op.toNat ≤ 0x2F)
    ∨ (0x32 ≤ op.toNat ∧ op.toNat ≤ 0x3F) ∨ (0x45 ≤ op.toNat ∧ op.toNat ≤ 0x4F) ∨ (0x52 ≤ op.toNat ∧ op.toNat ≤ 0x5F)
    ∨ 0x64 ≤ op.toNat

/-- OP is of a format other than X, and a fixed bit of its row has the wrong value (R82 b). -/
def MustBeZeroBitSet (w : Word) : Prop := ∃ r : Row, r.opcode = fieldOp w ∧ r.isFormatX = false ∧ w &&& r.mask ≠ r.pattern

/-- An SBYTE operand of more than WIDTH bits (R81, R82 c). -/
def WideSbyte (c : Cfg) (w : Word) : Prop := ∃ imm : BitVec 16, w = encode (.sbyte imm) ∧ 2 ^ c.width ≤ imm.toNat

theorem not_reservedOp_opcode (r : Row) : ¬ ReservedOp r.opcode := by
  unfold ReservedOp
  cases r <;> decide

theorem decode_of_reservedOp {w : Word} (h : ReservedOp (fieldOp w)) : decode w = .error .unassignedOpcode := by
  cases ho : Row.ofOpcode (fieldOp w) with
  | none => rw [decode, ho]
  | some r => exact absurd (Row.opcode_of_ofOpcode ho ▸ h) (not_reservedOp_opcode r)

theorem decode_of_mustBeZeroBitSet {w : Word} (h : MustBeZeroBitSet w) : decode w = .error .mustBeZeroBit := by
  obtain ⟨r, hop, hx, hfix⟩ := h
  rw [decode_of_opcode hop.symm, hx, if_neg nofun, if_neg hfix]

/-! ### The step -/

/-- With nothing scheduled an enabled block takes its micro-step. -/
theorem step_of_blockEnabled {s : State} (hw : s.cfg.wf = true) (ha : s.agenda = []) (he : s.blockEnabled) :
    step s = microStep s := by
  rw [step_of_agenda_nil hw ha, freeTurn, stopOf_of_unmarked he.2]
  exact if_pos he.1

theorem microStep_of_decode_error {s : State} {e : DecodeError} (h : decode s.cur = .error e) :
    microStep s = .next (raiseExit s.sess .illegalCommand s) := by rw [microStep, h]

/-- The width check of SBYTE is its first (spec/60_exceptions.md R208). -/
theorem microStep_of_wideSbyte {s : State} (h : WideSbyte s.cfg s.cur) (hs : s.seq = .start) :
    microStep s = .next (raiseExit s.sess .illegalCommand s) := by
  obtain ⟨imm, hcur, hwide⟩ := h
  have hfit : fitsWidth s.cfg imm = false := decide_eq_false (Nat.not_lt.mpr hwide)
  rw [microStep, hcur, decode_encode]
  show execSbyte imm s = _
  rw [execSbyte, hs]
  simp only [require_andThen, hfit]
  rfl

theorem raiseExit_fatalEffect {e : Err} (he : e.recoverable = false) (x : Sess) (s : State) :
    FatalEffect e s (raiseExit x e s) := by
  rw [raiseExit_fatal he]
  constructor <;> rfl

/-- Settles O4: each kind of illegal word makes the micro-step the exit of IllegalCommand. -/
theorem illegalWordsRaiseIllegalCommand : Obligations.IllegalWordsRaiseIllegalCommand := by
  unfold Obligations.IllegalWordsRaiseIllegalCommand
  intro s hw ha he hs h
  have hm : microStep s = .next (raiseExit s.sess .illegalCommand s) := by
    have hcases : ReservedOp (fieldOp s.cur) ∨ MustBeZeroBitSet s.cur ∨ WideSbyte s.cfg s.cur := by
      simpa only [ReservedOp, MustBeZeroBitSet, WideSbyte, or_assoc] using h
    rcases hcases with hop | hbit | hwide
    · exact microStep_of_decode_error (decode_of_reservedOp hop)
    · exact microStep_of_decode_error (decode_of_mustBeZeroBitSet hbit)
    · exact microStep_of_wideSbyte hwide hs
  exact ⟨_, (step_of_blockEnabled hw ha he).trans hm, raiseExit_fatalEffect rfl _ s⟩

end Sys2Proof.Machine
end

section
/-! SUPPORT. LCFG, LRD and LWR in Disabled (spec/40_line_driver.md R100 to R105): the outcome of each command by the direction
of its line, and the obligations about them. -/

namespace Sys2Proof.Machine

/-! ### The shared operations in Disabled -/

theorem requireDisabled_andThen {α : Type} {s : State} (hs : s.sess = .disabled) (k : Unit → State → Micro α) :
    (requireDisabled s).andThen k = k () s := by
  rw [requireDisabled, require_andThen, if_pos (decide_eq_true hs)]

theorem readLine_of_inp {i : LineId} {s : State} (hd : s.dir.get i = .inp) :
    readLine i s = .ret (sampleLine i s).1 (record (.inp i (sampleLine i s).1) (sampleLine i s).2) := if_pos hd

theorem readLine_of_ne_inp {i : LineId} {s : State} (hd : s.dir.get i ≠ .inp) :
    readLine i s = .raises .lineDirection s := if_neg hd

theorem writeLine_of_ne_out {i : LineId} {s : State} (v : Bit) (hd : s.dir.get i ≠ .out) :
    writeLine i v s = .raises .lineDirection s := if_neg hd

/-- Completing after one record: the two records in order, ERR = 0 and BUSY = 0 (spec/60_exceptions.md R209). -/
theorem complete_record (e : Event) (s : State) :
    complete (record e s) =
      { s with events := s.events ++ [e, .done 0], err := 0, busy := false, seq := .start } := by
  simp only [complete, record, List.append_assoc, List.singleton_append]

/-! ### The commands in Disabled -/

section
variable {s : State} (hs : s.sess = .disabled)
include hs

theorem execLcfg_of_disabled (ln : LineId) (v : Bit) :
    execLcfg ln v s = .next (complete (configure ln (dirOfV v) s)) := by
  rw [execLcfg, requireDisabled_andThen hs, finish]

theorem execLrd_of_inp {ln : LineId} (hd : s.dir.get ln = .inp) :
    execLrd ln s = .next (complete (record (.inp ln (sampleLine ln s).1)
      { (sampleLine ln s).2 with res := (sampleLine ln s).1.toWord })) := by
  rw [execLrd, requireDisabled_andThen hs, readLine_of_inp hd]
  rfl

theorem execLrd_of_ne_inp {ln : LineId} (hd : s.dir.get ln ≠ .inp) :
    execLrd ln s = .next (raiseExit s.sess .lineDirection s) := by
  rw [execLrd, requireDisabled_andThen hs, readLine_of_ne_inp hd]
  rfl

theorem execLwr_of_out {ln : LineId} (v : Bit) (hd : s.dir.get ln = .out) :
    execLwr ln v s = .next (complete (driveLatch ln v s)) := by
  rw [execLwr, requireDisabled_andThen hs, writeLine_of_out v hd, finish]

theorem execLwr_of_ne_out {ln : LineId} (v : Bit) (hd : s.dir.get ln ≠ .out) :
    execLwr ln v s = .next (raiseExit s.sess .lineDirection s) := by
  rw [execLwr, requireDisabled_andThen hs, writeLine_of_ne_out v hd]
  rfl

end

/-! ### The obligations -/

/-- Settles O27: LCFG completes on the configured line. -/
theorem lcfgConfiguresItsLine : Obligations.LcfgConfiguresItsLine := by
  unfold Obligations.LcfgConfiguresItsLine
  intro s ln v hs
  rw [exec, execLcfg_of_disabled hs, configure, complete_record, dirOfV]

/-- Settles O28: the sample is the level the peer drives, or a draw where it drives none (`levelOrDraw_eq`). -/
theorem lrdReadsAnInputLine : Obligations.LrdReadsAnInputLine := by
  unfold Obligations.LrdReadsAnInputLine
  intro s ln hs hd
  obtain ⟨v, n, hsample, hknown⟩ := levelOrDraw_eq (s.ext ln) s
  refine ⟨v, n, ?_, ?_, ?_⟩
  · rw [exec, execLrd_of_inp hs hd, complete_record, sampleLine, hsample]
  · rintro rfl
    exact hknown _ rfl
  · rintro rfl
    exact hknown _ rfl

/-- Settles O29: LWR completes on the written latch. -/
theorem lwrWritesTheLatch : Obligations.LwrWritesTheLatch := by
  unfold Obligations.LwrWritesTheLatch
  intro s ln v hs hd
  rw [exec, execLwr_of_out hs v hd, driveLatch, complete_record]

/-- Settles O30: both commands raise LineDirectionError, whose exit is fatal. -/
theorem wrongDirectionRaisesLineDirectionError : Obligations.WrongDirectionRaisesLineDirectionError := by
  unfold Obligations.WrongDirectionRaisesLineDirectionError
  intro s ln hs
  have hfatal := raiseExit_fatalEffect (e := .lineDirection) rfl s.sess s
  exact ⟨fun hd => ⟨_, execLrd_of_ne_inp hs hd, hfatal⟩, fun v hd => ⟨_, execLwr_of_ne_out hs v hd, hfatal⟩⟩

end Sys2Proof.Machine
end

section
/-! SUPPORT. SBIT, SBYTE and SBLK on the lines of an Enabled session (spec/41_bit_transport.md R111, R114): the three micro-steps
of SendBit, and the obligations about the end of a send command. -/

namespace Sys2Proof.Machine

/-! ### The micro-steps of SendBit (R111) -/

theorem requireT0_andThen {α : Type} {s : State} (ht : s.t0) (k : Unit → State → Micro α) :
    (requireT0 s).andThen k = k () s := by
  obtain ⟨hsess, hres⟩ := ht
  rw [requireT0, require_andThen, hsess, hres]
  rfl

/-- SendBit has placed its bit on ODAT. -/
def bitPlaced (b : Bit) (rest : List Bit) (s : State) : State := { driveLatch .odat b s with seq := .clkActive rest }

/-- SendBit has made the active edge. -/
def edgeMade (rest : List Bit) (s : State) : State := { driveLatch .oclk s.cfg.active s with seq := .clkIdle rest }

section
variable {s : State} (hd : s.dir = enabledDirs)
include hd

theorem writeLine_oclk_of_enabled (v : Bit) : writeLine .oclk v s = .ret () (driveLatch .oclk v s) :=
  writeLine_of_out v (by rw [hd]; rfl)

theorem writeLine_odat_of_enabled (v : Bit) : writeLine .odat v s = .ret () (driveLatch .odat v s) :=
  writeLine_of_out v (by rw [hd]; rfl)

theorem sendBits_cons (b : Bit) (rest : List Bit) :
    sendBits (b :: rest) s = .yields (bitPlaced b rest s) := by
  rw [sendBits, writeLine_odat_of_enabled hd]
  rfl

theorem sendResume_clkActive {rest : List Bit} (hs : s.seq = .clkActive rest) :
    sendResume s = .yields (edgeMade rest s) := by
  rw [sendResume, hs]
  dsimp only
  rw [writeLine_oclk_of_enabled hd]
  rfl

theorem sendResume_clkIdle_nil (hs : s.seq = .clkIdle []) :
    sendResume s = .ret () (driveLatch .oclk s.cfg.idle s) := by
  rw [sendResume, hs]
  dsimp only
  rw [writeLine_oclk_of_enabled hd]
  rfl

end

/-! ### The commands at the positions of SendWord -/

section
variable {s : State} (hs : s.seq.isSend = true)
include hs

theorem execSbit_resume (b : Bit) : execSbit b s = finish keepSess (sendResume s) := by
  unfold execSbit
  split
  next h => simp [h, Seq.isSend] at hs
  next => rfl

theorem execSbyte_resume (v : BitVec 16) : execSbyte v s = finish keepSess (sendResume s) := by
  unfold execSbyte
  split
  next h => simp [h, Seq.isSend] at hs
  next => rfl

theorem execSblk_resume (len : BitVec 16) :
    execSblk len s = finish idleSess ((sendResume s).andThen fun _ t => afterSentElem t) := by
  unfold execSblk
  split
  next h => simp [h, Seq.isSend] at hs
  next h => simp [h, Seq.isSend] at hs
  next => rfl

end

/-- No element follows the end marker, nor the last data byte of a layout without one (spec/43_session.md R160, R163). -/
theorem afterSentElem_of_last {s : State}
    (h : s.part = .endMarker ∨ (s.part = .data ∧ s.bIdx + 1 = s.bLen ∧ s.cfg.endMarker = none)) :
    ∃ n, afterSentElem s = .ret () { s with sess := .idle, bIdx := n } := by
  obtain hp | ⟨hp, hlast, hend⟩ := h
  · exact ⟨s.bIdx, by simp [afterSentElem, hp, nextPart, sendBlockDone]⟩
  · have hnone : dataPart s.cfg (s.bIdx + 1) s.bLen = none := by
      rw [dataPart, hlast, if_neg (BitVec.lt_irrefl _), endPart, hend]
      rfl
    exact ⟨s.bIdx + 1, by simp only [afterSentElem, hp, if_true, nextPart, hnone, sendBlockDone]⟩

theorem microSteps_succ {i : Instr} {s t : State} (h : exec i s = .next t) (n : Nat) :
    microSteps i (n + 1) s = microSteps i n t := by rw [microSteps, h]

theorem exec_sbit_start {s : State} (h : TransferReady s) (b : Bit) :
    exec (.sbit b) s = .next (bitPlaced b [] s) := by
  rw [exec, execSbit, h.first]
  dsimp only
  rw [requireT0_andThen h.t0, sendBits_cons h.dirs, finish]

theorem exec_sbit_clkActive {s : State} (hd : s.dir = enabledDirs) (hs : s.seq = .clkActive []) (b : Bit) :
    exec (.sbit b) s = .next (edgeMade [] s) := by
  rw [exec, execSbit_resume (by rw [hs]; rfl), sendResume_clkActive hd hs, finish]

/-- The last micro-step of a send command: OCLK at IDLE and the two records (R114, spec/60_exceptions.md R209). -/
theorem complete_driveLatch (i : LineId) (v : Bit) (s : State) :
    complete (driveLatch i v s) =
      { s with out := s.out.set i v, events := s.events ++ [.out i v, .done 0], err := 0, busy := false, seq := .start } := by
  rw [driveLatch, complete_record]

/-! ### The obligations -/

/-- Settles O39: SendWord ends with OCLK at IDLE, and SBLK has no element left. -/
theorem sendCommandsCompleteAtTheLastClockReturn : Obligations.SendCommandsCompleteAtTheLastClockReturn := by
  unfold Obligations.SendCommandsCompleteAtTheLastClockReturn
  intro s hd hs
  have hsend : s.seq.isSend = true := by rw [hs]; rfl
  have hlast := sendResume_clkIdle_nil hd hs
  refine ⟨fun b => ?_, fun v => ?_, fun len hp => ?_⟩
  · rw [exec, execSbit_resume hsend, hlast, finish, complete_driveLatch, LineFile.set_oclk]
  · rw [exec, execSbyte_resume hsend, hlast, finish, complete_driveLatch, LineFile.set_oclk]
  · obtain ⟨n, hn⟩ := afterSentElem_of_last (s := driveLatch .oclk s.cfg.idle s) hp
    refine ⟨n, ?_⟩
    rw [exec, execSblk_resume hsend, hlast, Micro.andThen, hn, finish]
    exact congrArg Host.Outcome.next (complete_driveLatch .oclk s.cfg.idle { s with sess := .idle, bIdx := n })

/-- Settles O31: the bit on ODAT, the active edge, and the return to IDLE that completes the command (O39). -/
theorem sbitSendsOneBit : Obligations.SbitSendsOneBit := by
  unfold Obligations.SbitSendsOneBit
  intro s b h
  have hplace := exec_sbit_start h b
  have hclock := exec_sbit_clkActive (s := bitPlaced b [] s) h.dirs rfl b
  have hreturn := (sendCommandsCompleteAtTheLastClockReturn (edgeMade [] (bitPlaced b [] s)) h.dirs rfl).1 b
  rw [microSteps_succ hplace, microSteps_succ hclock, microSteps_succ hreturn, microSteps]
  simp [edgeMade, bitPlaced]

end Sys2Proof.Machine
end

section
/-! SUPPORT. The polls of RecvBit in RBIT, RBYTE and RBLK (spec/41_bit_transport.md R112, R115): what a poll leaves with and
without the edge, which micro-steps of a receive command poll, and the obligations about waiting, the bound and the received bit. -/

namespace Sys2Proof.Machine

theorem Micro.andThen_assoc {α β γ : Type} (m : Micro α) (k : α → State → Micro β) (l : β → State → Micro γ) :
    (m.andThen k).andThen l = m.andThen fun a s => (k a s).andThen l := by cases m <;> rfl

/-! ### One poll (R112) -/

/-- `s` after a poll that has not seen the edge: the clock sample is recorded and counted, and its level decides what the next
poll awaits. -/
def State.polled (s : State) : State :=
  { s with
    pollCnt := s.pollCnt + 1
    phase   := if s.extClk = s.cfg.idle then .waitActive else .waitIdle
    events  := s.events ++ [.inp .iclk s.extClk] }

/-- The poll in `s` cannot see the active edge: IDLE is still awaited, or the clock is idle. -/
def State.noEdge (s : State) : Prop := s.phase = .waitIdle ∨ s.extClk = s.cfg.idle

theorem idle_ne_active (c : Cfg) : c.idle ≠ c.active := by simp [Cfg.idle, Cfg.active]

/-- Without the edge a poll comes to its timeout check. -/
theorem pollBit_of_noEdge {s : State} (hd : s.dir.iclk = .inp) (hn : s.noEdge) : pollBit s = pollAgain .poll s.polled := by
  rw [pollBit, readLine_iclk hd]
  cases hp : s.phase with
  | waitIdle => by_cases hc : s.extClk = s.cfg.idle <;> simp [Micro.andThen, record, State.polled, hp, hc]
  | waitActive =>
    have hc : s.extClk = s.cfg.idle := hn.resolve_left (by rw [hp]; nofun)
    simp [Micro.andThen, record, State.polled, hp, hc, idle_ne_active]

/-- At the active edge a poll samples the data line and is over. -/
theorem pollBit_of_edge {s : State} (hd : s.dir = enabledDirs) (hp : s.phase = .waitActive) (hc : s.extClk = s.cfg.active) :
    pollBit s = .ret s.extDat { s with pollCnt := s.pollCnt + 1, events := s.events ++ pollSamples s } := by
  rw [pollBit, readLine_iclk (by rw [hd]; rfl)]
  simp [Micro.andThen, record, hp, hc, readLine, sampleLine_idat, hd, enabledDirs, pollSamples]

/-! ### The receive commands at the positions of RecvBit and RecvWord -/

theorem recvWordResume_poll {s : State} (hs : s.seq = .poll) : recvWordResume s = (pollBit s).andThen acceptBit := by
  rw [recvWordResume, recvResume, hs]

theorem recvWordResume_recvBit {s : State} (hs : s.seq = .recvBit) : recvWordResume s = (recvBit s).andThen acceptBit := by
  rw [recvWordResume, recvResume, hs]

theorem execRbit_start {s : State} (hs : s.seq = .start) (ht : s.t0) :
    execRbit s = finish keepSess ((recvBit s).andThen fun b t => .ret () { t with res := b.toWord }) := by
  rw [execRbit, hs]
  dsimp only
  rw [requireT0_andThen ht]

theorem execRbit_poll {s : State} (hs : s.seq = .poll) :
    execRbit s = finish keepSess ((pollBit s).andThen fun b t => .ret () { t with res := b.toWord }) := by
  rw [execRbit, hs]
  dsimp only
  rw [recvResume, hs]

/-- The edge completes RBIT (R115, spec/60_exceptions.md R209). -/
theorem exec_rbit_of_edge {s : State} (hs : s.seq = .poll) (hd : s.dir = enabledDirs) (hp : s.phase = .waitActive)
    (hc : s.extClk = s.cfg.active) :
    exec .rbit s = .next { s with
      pollCnt := s.pollCnt + 1, events := s.events ++ pollSamples s ++ [.done 0], res := s.extDat.toWord, err := 0,
      busy := false, seq := .start } := by
  rw [exec, execRbit_poll hs, pollBit_of_edge hd hp hc]
  rfl

theorem execRbyte_start {s : State} (hs : s.seq = .start) (ht : s.t0) :
    execRbyte s = finish keepSess ((recvWord s).andThen fun v t => .ret () { t with res := v.setWidth 32 }) := by
  rw [execRbyte, hs]
  dsimp only
  rw [requireT0_andThen ht]

theorem execRbyte_resume {s : State} (hs : s.seq.isRecv = true) :
    execRbyte s = finish keepSess ((recvWordResume s).andThen fun v t => .ret () { t with res := v.setWidth 32 }) := by
  unfold execRbyte
  split
  next h => simp [h, Seq.isRecv] at hs
  next => rfl

theorem execRblk_elem {s : State} (hs : s.seq = .elem) (cap : BitVec 16) :
    execRblk cap s = finish idleSess ((recvWord s).andThen (acceptElem cap.toNat)) := by rw [execRblk, hs]

theorem execRblk_resume {s : State} (hs : s.seq.isRecv = true) (cap : BitVec 16) :
    execRblk cap s = finish idleSess ((recvWordResume s).andThen (acceptElem cap.toNat)) := by
  unfold execRblk
  split
  next h => simp [h, Seq.isRecv] at hs
  next h => simp [h, Seq.isRecv] at hs
  next => rfl

/-- BLEN at the start of an RBLK (spec/10_state.md R37; log entry 13). -/
def startLen (c : Cfg) : BitVec 17 := BitVec.ofNat 17 (if c.blockMode = .fixed then c.blockLen.getD 0 else 0)

/-- RBLK past its checks starts the first element of the layout (spec/43_session.md R160, R165). -/
theorem execRblk_start {s : State} {cap : BitVec 16} (hs : s.seq = .start) (ht : s.t0) (hw : s.cfg.width = 8)
    (hl : cap.toNat ≤ s.cfg.bufSize) (hk : recvLenOk s.cfg cap.toNat = true) {p : Part}
    (hp : firstPart s.cfg 0 (startLen s.cfg) = some p) :
    execRblk cap s = finish idleSess
      ((recvWord { s with bLen := startLen s.cfg, bIdx := 0, lenAcc := [], part := p }).andThen (acceptElem cap.toNat)) := by
  rw [startLen] at hp ⊢
  simp only [execRblk, hs, requireByteWidth_andThen, requireT0_andThen ht, require_andThen, hw, hl, hk, hp, decide_true,
    if_true]

/-- In FIXED mode the layout has data bytes (wf5 and wf6 of spec/00_scope.md R6). -/
theorem startLen_pos {c : Cfg} (h : c.wf = true) (hb : c.blockMode = .fixed) : 0 < startLen c := by
  cases hn : c.blockLen with
  | none => simp [Cfg.wf, Cfg.wf5, hb, hn] at h
  | some n =>
    obtain ⟨h1, hle⟩ := blockLen_of_wf h hb hn
    have hsize : c.bufSize ≤ 65536 := by
      simp [Cfg.wf, Cfg.wf6] at h
      omega
    rw [startLen, if_pos hb, hn, Option.getD_some]
    bv_omega

/-- A well-formed configuration gives every block at least one element (spec/00_scope.md R6, spec/43_session.md R160). -/
theorem exists_firstPart {c : Cfg} (h : c.wf = true) : ∃ p, firstPart c 0 (startLen c) = some p := by
  cases hm : c.startMarker with
  | some m => exact ⟨.startMarker, by simp [firstPart, hm]⟩
  | none =>
    cases hb : c.blockMode with
    | prefixed =>
      have hj : 0 < c.lenBytes.count := by cases c.lenBytes <;> decide
      exact ⟨.lenByte 0, by simp [firstPart, hm, lenPart, hb, hj]⟩
    | fixed => exact ⟨.data, firstPart_of_fixed hb hm (startLen_pos h hb)⟩

/-! ### The micro-steps that poll -/

/-- The micro-step of `i` in `s` begins with a poll in the state `u`, and a recoverable error there leaves R211's SESS. -/
def PollsFrom (i : Instr) (s u : State) : Prop :=
  ∃ f k, exec i s = finish f ((pollBit u).andThen k) ∧ f u.polled = sessAfterError i s

theorem PollsFrom.of_word {i : Instr} {s u : State} {f : State → Sess} {k : BitVec 16 → State → Micro Unit}
    (he : exec i s = finish f (((pollBit u).andThen acceptBit).andThen k)) (hf : f u.polled = sessAfterError i s) :
    PollsFrom i s u := ⟨f, _, he.trans (congrArg _ (Micro.andThen_assoc _ _ _)), hf⟩

section
variable {i : Instr} {s u : State} (h : PollsFrom i s u) (hd : u.dir.iclk = .inp) (hn : u.noEdge)
include h hd hn

theorem PollsFrom.next_of_below (hb : u.cfg.timeout ≠ some (u.pollCnt + 1)) :
    exec i s = .next { u.polled with seq := .poll } := by
  obtain ⟨f, k, he, -⟩ := h
  have hagain : pollAgain .poll u.polled = (yieldAt .poll u.polled : Micro Bit) := if_neg hb
  rw [he, pollBit_of_noEdge hd hn, hagain]
  rfl

theorem PollsFrom.next_of_bound (hb : u.cfg.timeout = some (u.pollCnt + 1)) :
    exec i s = .next (recoverableExit (sessAfterError i s) .timeout u.polled) := by
  obtain ⟨f, k, he, hf⟩ := h
  have hagain : pollAgain .poll u.polled = (.raises .timeout u.polled : Micro Bit) := if_pos hb
  rw [he, pollBit_of_noEdge hd hn, hagain, ← hf]
  rfl

end

/-- At a later poll of a RecvBit the command polls from its own state. -/
theorem pollsFrom_of_poll {i : Instr} {s : State} (hi : i = .rbit ∨ i = .rbyte ∨ ∃ cap, i = .rblk cap) (hs : s.seq = .poll) :
    PollsFrom i s s := by
  have hr : s.seq.isRecv = true := by rw [hs]; rfl
  have hword := recvWordResume_poll hs
  obtain rfl | rfl | ⟨cap, rfl⟩ := hi
  · exact ⟨_, _, execRbit_poll hs, rfl⟩
  · exact .of_word (hword ▸ execRbyte_resume hr) rfl
  · exact .of_word (hword ▸ execRblk_resume hr cap) rfl

/-- At the first poll of a RecvBit the command polls from a state that differs from its own at most in the hidden data path,
where IDLE is awaited and no poll counted. -/
theorem pollsFrom_of_firstPoll {i : Instr} {s : State} (hw : s.cfg.wf = true) (h : firstPoll i s) :
    ∃ r n x l p q, PollsFrom i s { s with
      sr := r, bitCnt := n, bIdx := x, bLen := l, part := p, lenAcc := q, phase := .waitIdle, pollCnt := 0 } := by
  cases i with
  | rbit =>
    obtain ⟨hs, ht⟩ := h
    exact ⟨_, _, _, _, _, _, _, _, execRbit_start hs ht, rfl⟩
  | rbyte =>
    obtain ⟨hs, ht⟩ | hs := h
    · exact ⟨_, _, _, _, _, _, .of_word (execRbyte_start hs ht) rfl⟩
    · exact ⟨_, _, _, _, _, _, .of_word (recvWordResume_recvBit hs ▸ execRbyte_resume (by rw [hs]; rfl)) rfl⟩
  | rblk cap =>
    obtain ⟨hs, ht, h8, hl, hk⟩ | hs | hs := h
    · obtain ⟨p, hp⟩ := exists_firstPart hw
      exact ⟨_, _, _, _, _, _, .of_word (execRblk_start hs ht h8 hl hk hp) rfl⟩
    · exact ⟨_, _, _, _, _, _, .of_word (recvWordResume_recvBit hs ▸ execRblk_resume (by rw [hs]; rfl) cap) rfl⟩
    · exact ⟨_, _, _, _, _, _, .of_word (execRblk_elem hs cap) rfl⟩
  | _ => exact h.elim

/-! ### The obligations -/

/-- Settles O34: the poll in question comes to the timeout check with TIMEOUT reached. -/
theorem pollAtTheBoundRaisesTimeoutError : Obligations.PollAtTheBoundRaisesTimeoutError := by
  unfold Obligations.PollAtTheBoundRaisesTimeoutError
  refine ⟨fun i s hi hd hs hb hn => ?_, fun i s hw h hd hb => ?_⟩
  · exact ⟨_, (pollsFrom_of_poll hi hs).next_of_bound hd hn hb, by constructor <;> simp [State.polled]⟩
  · obtain ⟨r, n, x, l, p, q, hp⟩ := pollsFrom_of_firstPoll hw h
    exact ⟨_, hp.next_of_bound hd (.inl rfl) hb, by constructor <;> simp [State.polled]⟩

/-- Settles O33: the poll in question comes to the timeout check below TIMEOUT. -/
theorem rbitPollWithoutEdgeGoesOn : Obligations.RbitPollWithoutEdgeGoesOn := by
  unfold Obligations.RbitPollWithoutEdgeGoesOn
  refine ⟨fun i s hi hd hs hb => ?_, fun i s hw h hd hb => ?_⟩
  · have hp := pollsFrom_of_poll hi hs
    refine ⟨fun hw => ?_, fun ha hc => ?_⟩
    · rw [hp.next_of_below hd (.inl hw) hb, State.polled, ← hs]
    · rw [hp.next_of_below hd (.inr hc) hb, State.polled, ← hs, if_pos hc, ← ha]
  · obtain ⟨r, n, x, l, p, q, hp⟩ := pollsFrom_of_firstPoll hw h
    exact ⟨_, hp.next_of_below hd (.inl rfl) hb, rfl, rfl, rfl, rfl, by constructor <;> rfl⟩

/-- Settles O32: the first poll sees IDLE, the second the edge. -/
theorem rbitReceivesOneBit : Obligations.RbitReceivesOneBit := by
  unfold Obligations.RbitReceivesOneBit
  intro s d ⟨ht, hd, hs⟩ hc hb
  have hfirst : PollsFrom .rbit s { s with phase := .waitIdle, pollCnt := 0 } := ⟨_, _, execRbit_start hs ht, rfl⟩
  refine ⟨_, ?_, ?_, rfl⟩
  · rw [hfirst.next_of_below (by rw [hd]; rfl) (.inl rfl) hb, State.polled]
    simp [hc]
  · have hedge := exec_rbit_of_edge
      (s := { s with
        phase := .waitActive, pollCnt := 1, seq := .poll, events := s.events ++ [.inp .iclk s.cfg.idle],
        extClk := s.cfg.active, extDat := d }) rfl hd rfl rfl
    exact hedge.trans (by simp [pollSamples])

end Sys2Proof.Machine
end

section
/-! SUPPORT. The parity law of the wire bits (spec/42_byte_framer.md R131, R137). -/

namespace Sys2Proof.Machine

/-- An exclusive or over a list tells whether the number of ones among its bits is odd. -/
theorem foldl_xor_eq_odd_count {α : Type} (f : α → Bit) (l : List α) (a : Bit) :
    l.foldl (fun acc i => acc ^^ f i) a = (a ^^ decide ((l.map f).count true % 2 = 1)) := by
  induction l generalizing a with
  | nil => simp
  | cons i l ih =>
    rw [List.foldl_cons, ih, List.map_cons, Bool.xor_assoc]
    congr 1
    cases f i
    · simp
    · have hflip : ((l.map f).count true + 1) % 2 = 1 ↔ ¬ (l.map f).count true % 2 = 1 := by omega
      simp only [List.count_cons_self, hflip, decide_not, Bool.true_xor]

/-- Either bit order sends a permutation of the word's bits (R130). -/
theorem perm_map_bitPos (c : Cfg) : ((List.range c.width).map (bitPos c)).Perm (List.range c.width) := by
  cases hb : c.bitOrder with
  | msbFirst =>
    have hrev : (List.range c.width).map (bitPos c) = (List.range c.width).reverse := by
      rw [List.range_eq_range', List.reverse_range', ← List.range_eq_range']
      exact List.map_congr_left fun i _ => by simp [bitPos, hb]
    rw [hrev]
    exact List.reverse_perm _
  | lsbFirst =>
    have hid : bitPos c = id := funext fun i => by simp [bitPos, hb]
    rw [hid, List.map_id]

/-- The exclusive or of a word tells whether the number of ones among its data bits is odd. -/
theorem xorBits_eq_odd_count (c : Cfg) (v : BitVec 16) :
    xorBits c.width v = decide (((List.range c.width).map fun i => v.getLsbD (bitPos c i)).count true % 2 = 1) := by
  have hperm := ((perm_map_bitPos c).map v.getLsbD).count_eq true
  rw [List.map_map] at hperm
  rw [xorBits, foldl_xor_eq_odd_count, Bool.false_xor, ← hperm]
  rfl

/-- Settles O35: the parity bit is a one exactly where it is needed to make the count even, or odd. -/
theorem parityMakesTheCountEvenOrOdd : Obligations.ParityMakesTheCountEvenOrOdd := by
  unfold Obligations.ParityMakesTheCountEvenOrOdd
  intro c v
  refine ⟨fun hp => ?_, fun hp => ?_⟩
  all_goals
    simp only [wireBits, parityBit, hp, xorBits_eq_odd_count, List.count_append, Option.toList_some, List.count_singleton,
      beq_iff_eq, Bool.true_bne, Bool.not_eq_true', decide_eq_false_iff_not, decide_eq_true_eq]
    split <;> omega

end Sys2Proof.Machine
end

section
/-! SUPPORT. SendWord as a whole (spec/42_byte_framer.md R132): three micro-steps for each bit, and the obligation about SBYTE. -/

namespace Sys2Proof.Machine

theorem Micro.andThen_ret (m : Micro Unit) : (m.andThen fun _ s => .ret () s) = m := by cases m <;> rfl

/-- `s` after all micro-steps of SendWord: each bit's three records, OCLK at IDLE and ODAT at the last bit. -/
def wordSent (bits : List Bit) (s : State) : State :=
  { s with
    out    := { s.out with oclk := s.cfg.idle, odat := bits.getLastD s.out.odat }
    events := s.events ++ sendEvents s.cfg bits
    seq    := .clkIdle [] }

/-- Between two bits SendWord yields with OCLK at IDLE. -/
theorem sendResume_clkIdle_cons {s : State} (hd : s.dir = enabledDirs) {b : Bit} {rest : List Bit}
    (hs : s.seq = .clkIdle (b :: rest)) :
    sendResume s = .yields { driveLatch .oclk s.cfg.idle s with seq := .sendNext (b :: rest) } := by
  rw [sendResume, hs]
  dsimp only
  rw [writeLine_oclk_of_enabled hd]
  rfl

theorem sendResume_sendNext_cons {s : State} (hd : s.dir = enabledDirs) {b : Bit} {rest : List Bit}
    (hs : s.seq = .sendNext (b :: rest)) : sendResume s = .yields (bitPlaced b rest s) := by
  rw [sendResume, hs]
  exact sendBits_cons hd b rest

/-- Between two bits: SendBit has returned OCLK to IDLE, and the SendBit of the first bit of `rest` is next. -/
def bitReturned (b : Bit) (rest : List Bit) (s : State) : State :=
  { driveLatch .oclk s.cfg.idle (edgeMade rest (bitPlaced b rest s)) with seq := .sendNext rest }

/-- To send the first bit and then the others is to send the word. -/
theorem wordSent_bitReturned (b d : Bit) (rest : List Bit) (s : State) :
    wordSent (d :: rest) (bitReturned b (d :: rest) s) = wordSent (b :: d :: rest) s := by
  simp [wordSent, bitReturned, driveLatch, record, edgeMade, bitPlaced, sendEvents, sendBitEvents,
    List.getLastD_cons, -List.getLastD_eq_getLast?]

section
variable {i : Instr} {f : State → Sess} {k : Unit → State → Micro Unit}
  (hi : ∀ t : State, t.seq.isSend = true → exec i t = finish f ((sendResume t).andThen k))
include hi

/-- A command whose micro-steps resume SendWord takes three of them for each bit, the first of which places the first bit, and
in the last goes on as SendWord's caller does. -/
theorem microSteps_of_bitPlaced {b : Bit} {rest : List Bit} {s t : State} (hd : s.dir = enabledDirs)
    (hb : exec i s = .next (bitPlaced b rest s)) (hend : finish f (k () (wordSent (b :: rest) s)) = .next t) (n : Nat) :
    microSteps i (3 * (b :: rest).length + n) s = microSteps i n t := by
  have hclock : ∀ {b rest s}, s.dir = enabledDirs →
      exec i (bitPlaced b rest s) = .next (edgeMade rest (bitPlaced b rest s)) := fun hd => by
    rw [hi _ rfl, sendResume_clkActive (by exact hd) rfl]
    rfl
  have hthree : ∀ m, 3 * (m + 1) + n = 3 * m + n + 1 + 1 + 1 := by omega
  rw [List.length_cons, hthree, microSteps_succ hb, microSteps_succ (hclock hd)]
  induction rest generalizing b s with
  | nil =>
    have hreturn : exec i (edgeMade [] (bitPlaced b [] s)) = .next t := by
      rw [hi _ rfl, sendResume_clkIdle_nil (by exact hd) rfl, ← hend]
      simp [Micro.andThen, driveLatch, record, edgeMade, bitPlaced, wordSent, sendEvents, sendBitEvents]
    rw [microSteps_succ hreturn, List.length_nil, Nat.mul_zero, Nat.zero_add]
  | cons d rest ih =>
    have hreturn : exec i (edgeMade (d :: rest) (bitPlaced b (d :: rest) s)) = .next (bitReturned b (d :: rest) s) := by
      rw [hi _ rfl, sendResume_clkIdle_cons (by exact hd) rfl]
      rfl
    have hplace : exec i (bitReturned b (d :: rest) s) = .next (bitPlaced d rest (bitReturned b (d :: rest) s)) := by
      rw [hi _ rfl, sendResume_sendNext_cons (by exact hd) rfl]
      rfl
    rw [microSteps_succ hreturn, List.length_cons, hthree, microSteps_succ hplace, microSteps_succ (hclock (by exact hd))]
    exact ih (by exact hd) hplace (by rw [wordSent_bitReturned, hend])

end

theorem wireBits_ne_nil {c : Cfg} (hw : 1 ≤ c.width) (v : BitVec 16) : wireBits c v ≠ [] := by
  have hpos : 0 < (wireBits c v).length := by
    simp only [wireBits, List.length_append, List.length_map, List.length_range]
    omega
  exact List.ne_nil_of_length_pos hpos

theorem exec_sbyte_start {s : State} {v : BitVec 16} (h : TransferReady s) (hv : v.toNat < 2 ^ s.cfg.width) {b : Bit}
    {rest : List Bit} (hbits : wireBits s.cfg v = b :: rest) : exec (.sbyte v) s = .next (bitPlaced b rest s) := by
  rw [exec, execSbyte, h.first]
  dsimp only
  rw [require_andThen, fitsWidth, if_pos (decide_eq_true hv), requireT0_andThen h.t0, hbits, sendBits_cons h.dirs, finish]

/-- Settles O36: the word has a first bit, whose SendBit is the first micro-step. -/
theorem sbyteSendsTheWord : Obligations.SbyteSendsTheWord := by
  unfold Obligations.SbyteSendsTheWord
  intro s v h hw hv
  obtain ⟨b, rest, hbits⟩ := List.exists_cons_of_ne_nil (wireBits_ne_nil hw v)
  have hresume : ∀ t : State, t.seq.isSend = true →
      exec (.sbyte v) t = finish keepSess ((sendResume t).andThen fun _ u => .ret () u) := fun t ht => by
    rw [exec, execSbyte_resume ht, Micro.andThen_ret]
  have hsent := microSteps_of_bitPlaced hresume h.dirs (exec_sbyte_start h hv hbits) rfl 0
  rw [hbits]
  refine ⟨rest.getLastD b, by rw [List.getLastD_eq_getLast?, List.getLast?_cons], hsent.trans ?_⟩
  simp only [microSteps, complete, record, wordSent, List.getLastD_cons]

end Sys2Proof.Machine
end

section
/-! SUPPORT. The end of RecvWord (spec/42_byte_framer.md R133): what it does with a bit, the poll that ends a word, what RBLK does
with the last element, and the obligation about the last poll. -/

namespace Sys2Proof.Machine

/-! ### What RecvWord does with a bit -/

/-- BITCNT counts without overflow up to the largest WIDTH (wf1 of spec/00_scope.md R6). -/
theorem toNat_bitCnt_succ {s : State} (hw : s.cfg.wf = true) (h : s.bitCnt.toNat < s.cfg.width) :
    (s.bitCnt + 1).toNat = s.bitCnt.toNat + 1 := by
  have hle := (width_of_wf hw).2
  bv_omega

/-- A data bit after which the word is still open. -/
theorem acceptBit_of_open {s : State} (hw : s.cfg.wf = true) (h : s.bitCnt.toNat < s.cfg.width)
    (hopen : s.bitCnt.toNat + 1 < s.cfg.width ∨ s.cfg.parity ≠ .none) (b : Bit) :
    acceptBit b s = .yields { s with sr := shiftBit s.cfg s.sr b, bitCnt := s.bitCnt + 1, seq := .recvBit } := by
  rw [← toNat_bitCnt_succ hw h] at hopen
  rw [acceptBit, if_pos h]
  exact if_pos hopen

/-- The last data bit of a word without a parity bit. -/
theorem acceptBit_of_last {s : State} (hw : s.cfg.wf = true) (hp : s.cfg.parity = .none)
    (h : s.bitCnt.toNat + 1 = s.cfg.width) (b : Bit) :
    acceptBit b s =
      .ret (shiftBit s.cfg s.sr b) { s with sr := shiftBit s.cfg s.sr b, bitCnt := s.bitCnt + 1 } := by
  have hlt : s.bitCnt.toNat < s.cfg.width := by omega
  have hclosed : ¬ ((s.bitCnt + 1).toNat < s.cfg.width ∨ s.cfg.parity ≠ .none) := by
    rw [toNat_bitCnt_succ hw hlt, h, hp]
    simp
  rw [acceptBit, if_pos hlt]
  exact if_neg hclosed

/-- A parity bit that agrees. -/
theorem acceptBit_of_parity {s : State} {b : Bit} (h : s.bitCnt.toNat = s.cfg.width) (hp : parityBit s.cfg s.sr = some b) :
    acceptBit b s = .ret s.sr s := by
  rw [acceptBit, if_neg (by omega), if_pos hp]

/-- `s` after the poll that ends a word with value `v`. -/
def wordTaken (v : BitVec 16) (n : BitVec 5) (s : State) : State :=
  { s with sr := v, bitCnt := n, pollCnt := s.pollCnt + 1, events := s.events ++ pollSamples s }

theorem recvWordResume_of_completesWord {s : State} {v : BitVec 16} (hw : s.cfg.wf = true) (hd : s.dir = enabledDirs)
    (h : completesWord s v) : ∃ n, recvWordResume s = .ret v (wordTaken v n s) := by
  obtain ⟨hs, hp, hc, hend⟩ := h
  rw [recvWordResume_poll hs, pollBit_of_edge hd hp hc, Micro.andThen]
  obtain ⟨hnone, hlast, rfl⟩ | ⟨hcnt, hpar, rfl⟩ := hend
  · refine ⟨_, acceptBit_of_last ?_ ?_ ?_ _⟩
    exacts [hw, hnone, hlast]
  · exact ⟨s.bitCnt, acceptBit_of_parity hcnt hpar⟩

/-! ### The last element of an RBLK (spec/43_session.md R165) -/

/-- Nothing follows the last data byte in a layout without an end marker (R160). -/
theorem dataPart_of_last {c : Cfg} {x n : BitVec 17} (h : x = n) (hend : c.endMarker = none) : dataPart c x n = none := by
  rw [dataPart, h, if_neg (BitVec.lt_irrefl _), endPart, hend]
  rfl

/-- The poll in question ends the last element of a block: the last data byte, or an end marker that agrees. -/
def State.atLastElem (s : State) (v : BitVec 16) : Prop :=
  (s.part = .data ∧ s.bIdx + 1 = s.bLen ∧ s.bIdx.toNat < s.cfg.bufSize ∧ s.cfg.endMarker = none)
    ∨ (s.part = .endMarker ∧ s.cfg.endMarker = some (v.setWidth 8))

theorem acceptElem_of_last {s : State} {v : BitVec 16} (h : s.atLastElem v) (cap : Nat) :
    ∃ x, acceptElem cap v s = .ret () { s with
      bIdx := x, sess := .idle, res := s.bLen.setWidth 32,
      buf := if s.part = .data then s.buf.write s.bIdx.toNat (v.setWidth 8) else s.buf } := by
  obtain ⟨hp, hlast, hsize, hend⟩ | ⟨hp, hend⟩ := h
  · have hstore : ∀ b, memWrite s.bIdx.toNat b s = .ret () { s with buf := s.buf.write s.bIdx.toNat b } :=
      fun _ => if_pos hsize
    exact ⟨s.bIdx + 1, by
      simp only [acceptElem, hp, hstore, Micro.andThen, nextPart, dataPart_of_last hlast hend, recvNextElem, recvBlockDone,
        if_true]⟩
  · have hother : Part.endMarker ≠ .data := nofun
    exact ⟨s.bIdx, by
      simp only [acceptElem, hp, require_andThen, decide_eq_true hend, recvNextElem, recvBlockDone, if_neg hother, if_true]⟩

/-- The word is returned to RBYTE, which completes. -/
theorem exec_rbyte_of_completesWord {s : State} {v : BitVec 16} (hw : s.cfg.wf = true) (hd : s.dir = enabledDirs)
    (h : completesWord s v) :
    ∃ n, exec .rbyte s = .next (complete { wordTaken v n s with res := v.setWidth 32 }) := by
  obtain ⟨n, hword⟩ := recvWordResume_of_completesWord hw hd h
  refine ⟨n, ?_⟩
  rw [exec, execRbyte_resume (by rw [h.1]; rfl), hword]
  rfl

/-- The word is returned to RBLK as its last element, which completes it. -/
theorem exec_rblk_of_completesWord {s : State} {v : BitVec 16} (hw : s.cfg.wf = true) (hd : s.dir = enabledDirs)
    (h : completesWord s v) (hlast : s.atLastElem v) (cap : BitVec 16) :
    ∃ n x, exec (.rblk cap) s = .next (complete { wordTaken v n s with
      bIdx := x, sess := .idle, res := s.bLen.setWidth 32,
      buf := if s.part = .data then s.buf.write s.bIdx.toNat (v.setWidth 8) else s.buf }) := by
  obtain ⟨n, hword⟩ := recvWordResume_of_completesWord hw hd h
  obtain ⟨x, helem⟩ := acceptElem_of_last (s := wordTaken v n s) hlast cap.toNat
  refine ⟨n, x, ?_⟩
  rw [exec, execRblk_resume (by rw [h.1]; rfl), hword, Micro.andThen, helem]
  rfl

/-- Settles O52: every listed field is read off the completed state. -/
theorem receiveCommandsCompleteAtTheLastPoll : Obligations.ReceiveCommandsCompleteAtTheLastPoll := by
  unfold Obligations.ReceiveCommandsCompleteAtTheLastPoll
  intro s cap v hw hd h
  refine ⟨?_, fun hlast => ?_⟩
  · obtain ⟨n, hbyte⟩ := exec_rbyte_of_completesWord hw hd h
    exact ⟨_, hbyte, rfl, rfl, rfl, rfl, rfl, rfl, rfl, rfl, rfl, rfl, rfl, rfl, rfl⟩
  · obtain ⟨n, x, hblock⟩ := exec_rblk_of_completesWord hw hd h hlast cap
    exact ⟨_, hblock, rfl, rfl, rfl, rfl, rfl, rfl, rfl, rfl, rfl, rfl, rfl, rfl, rfl⟩

end Sys2Proof.Machine
end

section
/-! SUPPORT. The shift register while a word arrives (spec/42_byte_framer.md R133, R136): after its first `k` data bits it holds
`partialWord c v k`, and after all of them the word. -/

namespace Sys2Proof.Machine

/-- SR after the first `k` data bits of `v`: its `k` high bits at the bottom, or its `k` low bits at the top. -/
def partialWord (c : Cfg) (v : BitVec 16) (k : Nat) : BitVec 16 :=
  match c.bitOrder with
  | .msbFirst => v >>> (c.width - k)
  | .lsbFirst => (v <<< (c.width - k)) &&& widthMask c

theorem getLsbD_widthMask (c : Cfg) (j : Nat) : (widthMask c).getLsbD j = (decide (j < 16) && decide (j < c.width)) := by
  rw [widthMask, BitVec.getLsbD_ofNat, Nat.testBit_two_pow_sub_one]

/-- A word of WIDTH bits has no ones from bit WIDTH on. -/
theorem getLsbD_of_width_le {n : Nat} {v : BitVec 16} (hv : v.toNat < 2 ^ n) {j : Nat} (hj : n ≤ j) : v.getLsbD j = false :=
  Nat.testBit_lt_two_pow (hv.trans_le (Nat.pow_le_pow_right (by decide) hj))

section
variable {c : Cfg} {v : BitVec 16} (hv : v.toNat < 2 ^ c.width)
include hv

theorem partialWord_zero : partialWord c v 0 = 0 := by
  refine BitVec.eq_of_getLsbD_eq fun j hj => ?_
  cases hb : c.bitOrder with
  | msbFirst => simp [partialWord, hb, getLsbD_of_width_le hv]
  | lsbFirst =>
    simp [partialWord, hb, getLsbD_widthMask]
    omega

theorem partialWord_width : partialWord c v c.width = v := by
  refine BitVec.eq_of_getLsbD_eq fun j hj => ?_
  cases hb : c.bitOrder with
  | msbFirst => simp [partialWord, hb]
  | lsbFirst =>
    by_cases hj' : j < c.width
    · simp [partialWord, hb, getLsbD_widthMask, hj, hj']
    · simp [partialWord, hb, getLsbD_widthMask, hj', getLsbD_of_width_le hv (Nat.le_of_not_lt hj')]

/-- The next data bit of the word brings SR one bit further. -/
theorem shiftBit_partialWord {k : Nat} (hk : k < c.width) (hw : c.width ≤ 16) :
    shiftBit c (partialWord c v k) (v.getLsbD (bitPos c k)) = partialWord c v (k + 1) := by
  refine BitVec.eq_of_getLsbD_eq fun j hj => ?_
  cases hb : c.bitOrder with
  | msbFirst =>
    simp only [shiftBit, partialWord, bitPos, hb, BitVec.getLsbD_and, BitVec.getLsbD_or, BitVec.getLsbD_shiftLeft,
      BitVec.getLsbD_ushiftRight, BitVec.getLsbD_setWidth, BitVec.getLsbD_ofBool, getLsbD_widthMask, hj]
    by_cases hj' : j < c.width
    · cases j with
      | zero => simp [hj', Nat.sub_sub, Nat.add_comm]
      | succ j =>
        have hnext : c.width - k + j = c.width - (k + 1) + (j + 1) := by omega
        simp [hj', hnext]
    · simp [hj', getLsbD_of_width_le hv (show c.width ≤ c.width - (k + 1) + j by omega)]
  | lsbFirst =>
    simp only [shiftBit, partialWord, bitPos, hb, BitVec.getLsbD_and, BitVec.getLsbD_or, BitVec.getLsbD_shiftLeft,
      BitVec.getLsbD_ushiftRight, BitVec.getLsbD_setWidth, BitVec.getLsbD_ofBool, getLsbD_widthMask, hj]
    obtain hlow | htop | hhigh : 1 + j < c.width ∨ j = c.width - 1 ∨ c.width ≤ j := by omega
    · have hnext : 1 + j - (c.width - k) = j - (c.width - (k + 1)) := by omega
      have hin : 1 + j < c.width - k ↔ j < c.width - (k + 1) := by omega
      simp [hlow, hnext, hin, show 1 + j < 16 by omega, show j < c.width by omega,
        show j < c.width - 1 by omega]
    · have hnew : j - (c.width - (k + 1)) = k := by omega
      simp [hnew, show ¬ 1 + j < c.width by omega, show j < c.width by omega, show ¬ j < c.width - (k + 1) by omega,
        show ¬ j < c.width - 1 by omega, show j - (c.width - 1) = 0 by omega]
    · simp [show ¬ 1 + j < c.width by omega, show ¬ j < c.width by omega, show j - (c.width - 1) ≠ 0 by omega]

end

/-! ### The wire bits by their place -/

theorem wireBits_getElem?_data (c : Cfg) (v : BitVec 16) {k : Nat} (hk : k < c.width) :
    (wireBits c v)[k]? = some (v.getLsbD (bitPos c k)) := by
  rw [wireBits, List.getElem?_append_left (by simpa using hk)]
  simp [hk]

theorem wireBits_getElem?_parity (c : Cfg) (v : BitVec 16) : (wireBits c v)[c.width]? = parityBit c v := by
  rw [wireBits, List.getElem?_append_right (by simp)]
  cases parityBit c v <;> simp

/-- A bit that is not the last on the wire is a data bit, after which the word is still open. -/
theorem open_of_lt_length_wireBits {c : Cfg} {v : BitVec 16} {k : Nat} (h : k + 1 < (wireBits c v).length) :
    k < c.width ∧ (k + 1 < c.width ∨ c.parity ≠ .none) := by
  cases hp : c.parity <;> simp [wireBits, parityBit, hp] at h ⊢ <;> omega

/-- The last bit on the wire is the last data bit, or the parity bit. -/
theorem last_of_eq_length_wireBits {c : Cfg} {v : BitVec 16} {k : Nat} (h : k + 1 = (wireBits c v).length) :
    (c.parity = .none ∧ k + 1 = c.width) ∨ k = c.width := by
  cases hp : c.parity <;> simp [wireBits, parityBit, hp] at h ⊢ <;> omega

section
variable {c : Cfg} {v : BitVec 16} {k : Nat} {b : Bit} (hv : v.toNat < 2 ^ c.width) (hw : c.width ≤ 16)
  (hbit : (wireBits c v)[k]? = some b)
include hv hw hbit

/-- A bit before the last on the wire is a data bit that leaves the word open. -/
theorem openBit_of_lt (h : k + 1 < (wireBits c v).length) :
    k < c.width ∧ (k + 1 < c.width ∨ c.parity ≠ .none) ∧ shiftBit c (partialWord c v k) b = partialWord c v (k + 1) := by
  obtain ⟨hk, hopen⟩ := open_of_lt_length_wireBits h
  rw [wireBits_getElem?_data c v hk, Option.some_inj] at hbit
  exact ⟨hk, hopen, hbit ▸ shiftBit_partialWord hv hk hw⟩

/-- The last bit on the wire completes the word: it is the last data bit, or the parity bit, which agrees. -/
theorem lastBit_of_eq (h : k + 1 = (wireBits c v).length) :
    (c.parity = .none ∧ k + 1 = c.width ∧ shiftBit c (partialWord c v k) b = v)
      ∨ (k = c.width ∧ parityBit c (partialWord c v k) = some b ∧ partialWord c v k = v) := by
  obtain ⟨hpar, hk⟩ | rfl := last_of_eq_length_wireBits h
  · rw [wireBits_getElem?_data c v (by omega), Option.some_inj] at hbit
    refine .inl ⟨hpar, hk, ?_⟩
    rw [← hbit, shiftBit_partialWord hv (by omega) hw, hk, partialWord_width hv]
  · rw [wireBits_getElem?_parity] at hbit
    rw [partialWord_width hv]
    exact .inr ⟨rfl, hbit, rfl⟩

end

end Sys2Proof.Machine
end

section
/-! SUPPORT. Runs along a schedule (spec/60_exceptions.md R220): states a run comes to by performing the moves that stand before
the rest of the schedule. -/

namespace Sys2Proof.Machine

/-- The run from `s` comes to `t` by the moves of the schedule of `s` that stand before the schedule of `t`. -/
def Plays (s t : State) : Prop := ∃ ms, s.agenda = ms ++ t.agenda ∧ steps ms.length s = .next t

theorem steps_succ {s t : State} (h : step s = .next t) (n : Nat) : steps (n + 1) s = steps n t := by rw [steps, h]

theorem steps_add {s t : State} {m : Nat} (h : steps m s = .next t) (n : Nat) : steps (m + n) s = steps n t := by
  induction m generalizing s with
  | zero =>
    cases h
    rw [Nat.zero_add]
  | succ m ih =>
    cases hs : step s with
    | next u =>
      rw [steps_succ hs] at h
      rw [Nat.succ_add, steps_succ hs, ih h]
    | fault r => simp [steps, hs] at h
    | refused r => simp [steps, hs] at h

theorem Plays.refl (s : State) : Plays s s := ⟨[], rfl, rfl⟩

theorem Plays.trans {s t u : State} (h : Plays s t) (k : Plays t u) : Plays s u := by
  obtain ⟨ms, ha, hs⟩ := h
  obtain ⟨ns, hb, ht⟩ := k
  exact ⟨ms ++ ns, by rw [ha, hb, List.append_assoc], by rw [List.length_append, steps_add hs, ht]⟩

theorem Plays.of_step {s t : State} {m : Move} (ha : s.agenda = m :: t.agenda) (h : step s = .next t) : Plays s t :=
  ⟨[m], ha, by rw [List.length_singleton, steps_succ h, steps]⟩

/-- A run to an empty schedule is the run of the whole schedule. -/
theorem Plays.steps {s t : State} (h : Plays s t) (ht : t.agenda = []) : steps s.agenda.length s = .next t := by
  obtain ⟨ms, ha, hs⟩ := h
  rw [ha, ht, List.append_nil, hs]

/-- The block's turn is a micro-step of its command. -/
theorem step_of_block {i : Instr} {s : State} {ms : List Move} (hw : s.cfg.wf = true) (he : s.blockEnabled)
    (hi : decode s.cur = .ok i) (ha : s.agenda = .block :: ms) : step s = exec i { s with agenda := ms } := by
  have hstop : stopOf { s with agenda := ms } = none := stopOf_of_unmarked he.2
  rw [step_of_agenda_cons hw ha, perform, blockTurn, hstop]
  simp only [microStep, hi, he.1, if_true]

theorem plays_block {i : Instr} {s t : State} (hw : s.cfg.wf = true) (he : s.blockEnabled) (hi : decode s.cur = .ok i)
    (ha : s.agenda = .block :: t.agenda) (h : exec i { s with agenda := t.agenda } = .next t) : Plays s t :=
  .of_step ha ((step_of_block hw he hi ha).trans h)

/-- The peer sets ICLK. -/
theorem plays_iclk {s : State} {v : Bit} {ms : List Move} (hw : s.cfg.wf = true) (ha : s.agenda = .peer .iclk v :: ms) :
    ∃ ev, Plays s { s with agenda := ms, extClk := v, events := ev } := by
  by_cases h : s.extClk = v
  · subst h
    exact ⟨s.events, .of_step ha ((step_of_agenda_cons hw ha).trans (congrArg _ (if_pos rfl)))⟩
  · exact ⟨s.events ++ [.ext .iclk v], .of_step ha ((step_of_agenda_cons hw ha).trans (congrArg _ (if_neg h)))⟩

/-- The peer sets IDAT. -/
theorem plays_idat {s : State} {v : Bit} {ms : List Move} (hw : s.cfg.wf = true) (ha : s.agenda = .peer .idat v :: ms) :
    ∃ ev, Plays s { s with agenda := ms, extDat := v, events := ev } := by
  by_cases h : s.extDat = v
  · subst h
    exact ⟨s.events, .of_step ha ((step_of_agenda_cons hw ha).trans (congrArg _ (if_pos rfl)))⟩
  · exact ⟨s.events ++ [.ext .idat v], .of_step ha ((step_of_agenda_cons hw ha).trans (congrArg _ (if_neg h)))⟩

end Sys2Proof.Machine
end

section
/-! SUPPORT. RecvWord while the peer presents its bits (spec/42_byte_framer.md R133, R136, spec/70_reset_and_hazards.md R245,
R246): from the call of RecvBit to the poll at the active edge, one bit, the bits of a word, and the obligation about RBYTE. -/

namespace Sys2Proof.Machine

/-- A command that receives words runs in `s`, in an Enabled session's directions. -/
def Receives (i : Instr) (s : State) : Prop :=
  (i = .rbyte ∨ ∃ cap, i = .rblk cap) ∧ s.cfg.wf = true ∧ s.blockEnabled ∧ decode s.cur = .ok i ∧ s.dir = enabledDirs

/-- `s` at a later poll of RecvBit, where the active edge is awaited: the schedule, the peer's levels, the count of polls and the
history are the given ones. -/
def State.awaiting (s : State) (ms : List Move) (clk dat : Bit) (p : Nat) (ev : List Event) : State :=
  { s with
    agenda  := ms
    seq     := .poll
    phase   := .waitActive
    extClk  := clk
    extDat  := dat
    pollCnt := p
    events  := ev }

/-- `s` at the call of RecvBit for the bit after `b`: `b` is shifted in, and the peer has returned the clock to IDLE. -/
def State.bitTaken (s : State) (b : Bit) (ms : List Move) (p : Nat) (ev : List Event) : State :=
  { s.awaiting ms s.cfg.idle b p ev with seq := .recvBit, sr := shiftBit s.cfg s.sr b, bitCnt := s.bitCnt + 1 }

section
variable {i : Instr} {s : State} (h : Receives i s)
include h

theorem Receives.wf : s.cfg.wf = true := by
  obtain ⟨-, hw, -⟩ := h
  exact hw

/-- At the call of RecvBit the first poll is RecvBit's. -/
theorem Receives.pollsFrom_recvBit (hs : s.seq = .recvBit) : PollsFrom i s { s with phase := .waitIdle, pollCnt := 0 } := by
  have hr : s.seq.isRecv = true := by rw [hs]; rfl
  have hword := recvWordResume_recvBit hs
  obtain ⟨rfl | ⟨cap, rfl⟩, -⟩ := h
  · exact .of_word (hword ▸ execRbyte_resume hr) rfl
  · exact .of_word (hword ▸ execRblk_resume hr cap) rfl

/-- A bit that leaves the word open is shifted in, and RecvBit is called again. -/
theorem Receives.exec_of_openBit (hn : s.bitCnt.toNat < s.cfg.width)
    (hopen : s.bitCnt.toNat + 1 < s.cfg.width ∨ s.cfg.parity ≠ .none) (ms : List Move) (b : Bit) (p : Nat) (ev : List Event) :
    ∃ ev', exec i (s.awaiting ms s.cfg.active b p ev) =
      .next { s.bitTaken b ms (p + 1) ev' with extClk := s.cfg.active } := by
  obtain ⟨hi, hw, -, -, hd⟩ := h
  have hword : ∃ ev', recvWordResume (s.awaiting ms s.cfg.active b p ev) =
      .yields { s.bitTaken b ms (p + 1) ev' with extClk := s.cfg.active } := by
    rw [recvWordResume_poll rfl, pollBit_of_edge (by exact hd) rfl rfl, Micro.andThen]
    refine ⟨_, acceptBit_of_open ?_ ?_ ?_ b⟩
    exacts [hw, hn, hopen]
  obtain ⟨ev', hword⟩ := hword
  refine ⟨ev', ?_⟩
  obtain rfl | ⟨cap, rfl⟩ := hi
  · rw [exec, execRbyte_resume rfl, hword]
    rfl
  · rw [exec, execRblk_resume rfl, hword]
    rfl

/-- The first poll of RecvBit sees the idle clock. -/
theorem Receives.plays_firstPoll {ms : List Move} (hs : s.seq = .recvBit) (hc : s.extClk = s.cfg.idle)
    (ha : s.agenda = .block :: ms) (hb : s.cfg.timeout ≠ some 1) :
    ∃ ev, Plays s (s.awaiting ms s.cfg.idle s.extDat 1 ev) := by
  have hpolls := Receives.pollsFrom_recvBit (s := { s with agenda := ms }) h hs
  obtain ⟨-, hw, he, hi, hd⟩ := h
  refine ⟨s.events ++ [.inp .iclk s.extClk], plays_block hw he hi ha ?_⟩
  refine (hpolls.next_of_below (by rw [hd]; rfl) (.inl rfl) hb).trans ?_
  simp only [State.polled, State.awaiting, hc, if_true]

/-- A later poll of RecvBit sees the idle clock. -/
theorem Receives.plays_idlePoll (ms : List Move) (d : Bit) {p : Nat} (ev : List Event) (hb : s.cfg.timeout ≠ some (p + 1)) :
    ∃ ev', Plays (s.awaiting (.block :: ms) s.cfg.idle d p ev) (s.awaiting ms s.cfg.idle d (p + 1) ev') := by
  obtain ⟨hcmd, hw, he, hi, hd⟩ := h
  have hpolls : PollsFrom i (s.awaiting ms s.cfg.idle d p ev) (s.awaiting ms s.cfg.idle d p ev) :=
    pollsFrom_of_poll (.inr hcmd) rfl
  refine ⟨ev ++ [.inp .iclk s.cfg.idle], plays_block hw he hi rfl ?_⟩
  refine (hpolls.next_of_below (by exact congrArg _ hd) (.inr rfl) hb).trans ?_
  simp only [State.polled, State.awaiting, if_true]

/-- Polls of the idle clock, below the bound. -/
theorem Receives.plays_waits (n : Nat) (ms : List Move) (d : Bit) {p : Nat} (ev : List Event)
    (hb : ∀ t, s.cfg.timeout = some t → p + n < t) :
    ∃ p' ev', Plays (s.awaiting (List.replicate n .block ++ ms) s.cfg.idle d p ev) (s.awaiting ms s.cfg.idle d p' ev') := by
  induction n generalizing p ev with
  | zero => exact ⟨p, ev, .refl _⟩
  | succ n ih =>
    have hpoll : s.cfg.timeout ≠ some (p + 1) := fun ht => absurd (hb _ ht) (by omega)
    obtain ⟨ev₁, h₁⟩ := h.plays_idlePoll (List.replicate n .block ++ ms) d ev hpoll
    have hrest : ∀ t, s.cfg.timeout = some t → p + 1 + n < t := fun t ht => by
      have := hb t ht
      omega
    obtain ⟨p₂, ev₂, h₂⟩ := ih ev₁ hrest
    exact ⟨p₂, ev₂, h₁.trans h₂⟩

/-- While the peer presents a bit, RecvBit comes to the poll at the active edge (PC1 and PC2 of R245 and R246). -/
theorem Receives.plays_toEdge {b : Bit} {n : Nat} {ms : List Move} (hs : s.seq = .recvBit) (hc : s.extClk = s.cfg.idle)
    (ha : s.agenda = bitMoves s.cfg b n ++ ms) (hb : ∀ t, s.cfg.timeout = some t → n + 1 < t) :
    ∃ p ev, Plays s (s.awaiting (.block :: .peer .iclk s.cfg.idle :: ms) s.cfg.active b p ev) := by
  have hw := h.wf
  have hfirst : s.cfg.timeout ≠ some 1 := fun ht => absurd (hb _ ht) (by omega)
  rw [bitMoves, List.append_assoc] at ha
  obtain ⟨ev₁, h₁⟩ := h.plays_firstPoll hs hc ha hfirst
  have hwaits : ∀ t, s.cfg.timeout = some t → 1 + n < t := fun t ht => Nat.add_comm 1 n ▸ hb t ht
  obtain ⟨p, ev₂, h₂⟩ := h.plays_waits n _ s.extDat ev₁ hwaits
  obtain ⟨ev₃, h₃⟩ := plays_idat (s := s.awaiting _ s.cfg.idle s.extDat p ev₂) hw rfl
  obtain ⟨ev₄, h₄⟩ := plays_iclk (s := s.awaiting _ s.cfg.idle b p ev₃) hw rfl
  exact ⟨p, ev₄, ((h₁.trans h₂).trans h₃).trans h₄⟩

/-- A presented bit that leaves the word open is taken. -/
theorem Receives.plays_openBit {b : Bit} {n : Nat} {ms : List Move} (hs : s.seq = .recvBit) (hc : s.extClk = s.cfg.idle)
    (ha : s.agenda = bitMoves s.cfg b n ++ ms) (hb : ∀ t, s.cfg.timeout = some t → n + 1 < t)
    (hn : s.bitCnt.toNat < s.cfg.width) (hopen : s.bitCnt.toNat + 1 < s.cfg.width ∨ s.cfg.parity ≠ .none) :
    ∃ p ev, Plays s (s.bitTaken b ms p ev) := by
  obtain ⟨p, ev₁, h₁⟩ := h.plays_toEdge hs hc ha hb
  obtain ⟨ev₂, h₂⟩ := h.exec_of_openBit hn hopen (.peer .iclk s.cfg.idle :: ms) b p ev₁
  obtain ⟨-, hw, he, hi, -⟩ := h
  have hturn : Plays (s.awaiting (.block :: .peer .iclk s.cfg.idle :: ms) s.cfg.active b p ev₁)
      { s.bitTaken b (.peer .iclk s.cfg.idle :: ms) (p + 1) ev₂ with extClk := s.cfg.active } :=
    plays_block hw he hi rfl h₂
  obtain ⟨ev₃, h₃⟩ := plays_iclk (s := { s.bitTaken b _ (p + 1) ev₂ with extClk := s.cfg.active }) hw rfl
  exact ⟨p + 1, ev₃, (h₁.trans hturn).trans h₃⟩

end

/-- The command is at the poll that ends a word with value `v`: since `s` at most the schedule, the peer's levels, the hidden
data path and the history have changed, and the peer's return to IDLE is scheduled before `ms`. -/
def WordEnds (s : State) (v : BitVec 16) (ms : List Move) (t : State) : Prop :=
  completesWord t v ∧ ∃ r n d p ev,
    t = ({ s with sr := r, bitCnt := n } : State).awaiting (.block :: .peer .iclk s.cfg.idle :: ms) s.cfg.active d p ev

/-- While the peer presents the wire bits of a word that are still missing, RecvWord comes to the poll that ends the word. -/
theorem Receives.plays_wordEnds {i : Instr} {s : State} (h : Receives i s) {v : BitVec 16} {bits : List (Bit × Nat)}
    {ms : List Move} {k : Nat} (hv : v.toNat < 2 ^ s.cfg.width) (hs : s.seq = .recvBit) (hc : s.extClk = s.cfg.idle)
    (hsr : s.sr = partialWord s.cfg v k) (hn : s.bitCnt.toNat = k) (hne : bits ≠ [])
    (hbits : bits.map Prod.fst = (wireBits s.cfg v).drop k) (hb : patient s.cfg bits)
    (ha : s.agenda = bitsMoves s.cfg bits ++ ms) : ∃ t, Plays s t ∧ WordEnds s v ms t := by
  induction bits generalizing s k with
  | nil => exact absurd rfl hne
  | cons x rest ih =>
    obtain ⟨b, n⟩ := x
    have hbit : (wireBits s.cfg v)[k]? = some b := by
      rw [← List.head?_drop, ← hbits]
      rfl
    have hlen : rest.length + 1 = (wireBits s.cfg v).length - k := by
      simpa using congrArg List.length hbits
    have hmoves : s.agenda = bitMoves s.cfg b n ++ (bitsMoves s.cfg rest ++ ms) := by
      rw [ha, bitsMoves, List.flatMap_cons, List.append_assoc]
      rfl
    have hbound : ∀ t, s.cfg.timeout = some t → n + 1 < t := hb _ List.mem_cons_self
    have hwidth := (width_of_wf h.wf).2
    subst hn
    cases rest with
    | nil =>
      obtain ⟨p, ev, hplays⟩ := h.plays_toEdge hs hc hmoves hbound
      have hlast := lastBit_of_eq hv hwidth hbit (by rw [List.length_nil] at hlen; omega)
      rw [← hsr] at hlast
      exact ⟨_, hplays, ⟨rfl, rfl, rfl, hlast⟩, s.sr, s.bitCnt, b, p, ev, rfl⟩
    | cons y rest =>
      obtain ⟨hk, hopen, hshift⟩ := openBit_of_lt hv hwidth hbit (by rw [List.length_cons] at hlen; omega)
      rw [← hsr] at hshift
      obtain ⟨p, ev, hplays⟩ := h.plays_openBit hs hc hmoves hbound hk hopen
      have htail : (y :: rest).map Prod.fst = (wireBits s.cfg v).drop (s.bitCnt.toNat + 1) := by
        rw [← List.tail_drop, ← hbits]
        rfl
      obtain ⟨t, hrest, hword, r, n, d, p', ev', ht⟩ :=
        ih (s := s.bitTaken b (bitsMoves s.cfg (y :: rest) ++ ms) p ev) h hv rfl rfl hshift (toNat_bitCnt_succ h.wf hk) nofun
          htail (fun q hq => hb q (List.mem_cons_of_mem _ hq)) rfl
      exact ⟨t, hplays.trans hrest, hword, r, n, d, p', ev', ht⟩

/-- From T0 RBYTE begins as at the call of RecvBit for the first bit of a word. -/
theorem step_rbyte_start {s : State} {ms : List Move} (h : Receives .rbyte s) (hs : s.seq = .start) (ht : s.t0)
    (ha : s.agenda = .block :: ms) (hb : s.cfg.timeout ≠ some 1) :
    step s = step { s with seq := .recvBit, sr := 0, bitCnt := 0 } := by
  have hstart : PollsFrom .rbyte { s with agenda := ms }
      { s with agenda := ms, sr := 0, bitCnt := 0, phase := .waitIdle, pollCnt := 0 } := .of_word (execRbyte_start hs ht) rfl
  have hcall := Receives.pollsFrom_recvBit (s := { s with agenda := ms, seq := .recvBit, sr := 0, bitCnt := 0 }) h rfl
  obtain ⟨-, hw, he, hi, hd⟩ := h
  have hdir : s.dir.iclk = .inp := by
    rw [hd]
    rfl
  rw [step_of_block hw he hi ha, step_of_block (s := { s with seq := .recvBit, sr := 0, bitCnt := 0 }) hw he hi ha,
    hstart.next_of_below hdir (.inl rfl) hb]
  exact (hcall.next_of_below hdir (.inl rfl) hb).symm

theorem steps_of_step_eq {s t : State} (h : step s = step t) {n : Nat} (hn : 0 < n) : steps n s = steps n t := by
  cases n with
  | zero => exact absurd hn (lt_irrefl 0)
  | succ n => rw [steps, steps, h]

/-- The poll that ends the word completes RBYTE, and the peer sets its clock. -/
theorem Receives.plays_rbyteEnd {s : State} (h : Receives .rbyte s) {v : BitVec 16} (hword : completesWord s v) {clk : Bit}
    {ms : List Move} (ha : s.agenda = .block :: .peer .iclk clk :: ms) :
    ∃ t, Plays s t ∧ t.agenda = ms ∧ t.busy = false ∧ t.err = 0 ∧ t.res = v.setWidth 32 ∧ t.sess = s.sess
      ∧ t.resync = s.resync ∧ t.unmarked ∧ t.buf = s.buf ∧ t.out = s.out ∧ t.dir = s.dir := by
  obtain ⟨-, hw, he, hi, hd⟩ := h
  obtain ⟨n, hlast⟩ := exec_rbyte_of_completesWord (s := { s with agenda := .peer .iclk clk :: ms }) hw hd hword
  obtain ⟨ev, hclock⟩ := plays_iclk (s := complete { wordTaken v n { s with agenda := .peer .iclk clk :: ms } with
    res := v.setWidth 32 }) hw rfl
  exact ⟨_, (plays_block hw he hi ha hlast).trans hclock, rfl, rfl, rfl, rfl, rfl, rfl, he.2, rfl, rfl, rfl⟩

/-- Settles O37: RecvWord comes to the poll that ends the word (R136), which completes RBYTE, and the peer returns the clock to
IDLE. -/
theorem rbyteReceivesWhatThePeerPresents : Obligations.RbyteReceivesWhatThePeerPresents := by
  unfold Obligations.RbyteReceivesWhatThePeerPresents
  intro s v bits hw he ⟨ht, hd, hs⟩ hcur hc hv hbits hb ha
  have hi : decode s.cur = .ok .rbyte := by rw [hcur, decode_encode]
  have h : Receives .rbyte s := ⟨.inl rfl, hw, he, hi, hd⟩
  have hne : bits ≠ [] := by
    rintro rfl
    exact wireBits_ne_nil (width_of_wf hw).1 v hbits.symm
  obtain ⟨⟨b, n⟩, rest, rfl⟩ := List.exists_cons_of_ne_nil hne
  have hfirst : s.cfg.timeout ≠ some 1 := fun h1 => absurd (hb _ List.mem_cons_self _ h1) (by omega)
  have hstart := step_rbyte_start h hs ht ha hfirst
  obtain ⟨_, hplays, hword, r, m, d, p, ev, rfl⟩ :=
    Receives.plays_wordEnds (s := { s with seq := .recvBit, sr := 0, bitCnt := 0 }) (k := 0) (ms := []) h hv rfl hc
      (partialWord_zero hv).symm rfl hne hbits hb (by rw [List.append_nil]; exact ha)
  obtain ⟨t, hlast, hnil, hbusy, herr, hres, hsess, hresync, hmarks, hrest⟩ := Receives.plays_rbyteEnd (by exact h) hword rfl
  have hall := (hplays.trans hlast).steps hnil
  have hpos : 0 < s.agenda.length := by
    rw [ha]
    exact Nat.succ_pos _
  exact ⟨t, (steps_of_step_eq hstart hpos).trans hall, hbusy, herr, hres, hsess.trans ht.1, hresync.trans ht.2, hmarks, hnil,
    hrest⟩

end Sys2Proof.Machine
end

section
/-! SUPPORT. ENABLE and DISABLE (spec/43_session.md R152, R153): the state each completes in, and the obligations about them. -/

namespace Sys2Proof.Machine

/-- ENABLE in Disabled completes in the state `enabled` names. -/
theorem exec_enable_of_disabled {s : State} (hs : s.sess = .disabled) : exec .enable s = .next (complete (enabled s)) := by
  show execEnable s = _
  rw [execEnable, requireDisabled_andThen hs]
  simp [finish, enabled, enabledDirs, complete, configure, driveLatch, record]

/-- Settles O40: the records of the latches and directions stand before `Done(0)`. -/
theorem enableOpensTheSession : Obligations.EnableOpensTheSession := by
  unfold Obligations.EnableOpensTheSession
  intro s hs
  rw [exec_enable_of_disabled hs]
  simp [complete, enabled, record]

/-- The latches after one round of DISABLE's loop. -/
def releaseLatch (c : Cfg) (d : LineFile Dir) (i : LineId) (o : LineFile Bit) : LineFile Bit :=
  if d.get i = .out then o.set i c.disableLevel else o

/-- The records of one round of DISABLE's loop. -/
def releaseRecord (c : Cfg) (d : LineFile Dir) (i : LineId) : List Event :=
  if d.get i = .out then [.out i c.disableLevel] else []

theorem releaseLine_eq (i : LineId) (s : State) : releaseLine i s =
    { s with out := releaseLatch s.cfg s.dir i s.out, events := s.events ++ releaseRecord s.cfg s.dir i } := by
  unfold releaseLine releaseLatch releaseRecord
  split
  · rfl
  · rw [List.append_nil]

/-- One round gives DISABLE_LEVEL to its line if that is OUT, and leaves all other latches. -/
theorem get_releaseLatch (c : Cfg) (d : LineFile Dir) (i : LineId) (o : LineFile Bit) (ln : LineId) :
    (releaseLatch c d i o).get ln = if ln = i ∧ d.get i = .out then c.disableLevel else o.get ln := by
  unfold releaseLatch
  by_cases hd : d.get i = .out
  · by_cases hl : ln = i
    · simp [hd, hl]
    · simp [hd, hl, LineFile.get_set_other o c.disableLevel hl]
  · simp [hd]

/-- The latches after DISABLE's loop over the lines. -/
def releasedLatches (c : Cfg) (d : LineFile Dir) (o : LineFile Bit) : LineFile Bit :=
  releaseLatch c d .odat (releaseLatch c d .oclk (releaseLatch c d .idat (releaseLatch c d .iclk o)))

/-- DISABLE_LEVEL is on exactly the lines that are OUT. -/
theorem get_releasedLatches (c : Cfg) (d : LineFile Dir) (o : LineFile Bit) (ln : LineId) :
    (releasedLatches c d o).get ln = if d.get ln = .out then c.disableLevel else o.get ln := by
  simp only [releasedLatches, get_releaseLatch]
  cases ln <;> simp <;> rfl

theorem exec_disable_of_enabled {s : State} (hs : s.sess ≠ .disabled) :
    exec .disable s = .next (complete { s with
      out := releasedLatches s.cfg s.dir s.out, sess := .disabled, resync := false,
      events := s.events ++ [.iclk, .idat, .oclk, .odat].flatMap (releaseRecord s.cfg s.dir) }) := by
  show execDisable s = _
  simp only [execDisable, if_neg hs, finish, releaseLine_eq, List.append_assoc, List.flatMap_cons, List.flatMap_nil,
    List.append_nil, releasedLatches]

/-- Settles O41: DISABLE's loop leaves everything but the latches and the history. -/
theorem disableClosesTheSession : Obligations.DisableClosesTheSession := by
  unfold Obligations.DisableClosesTheSession
  refine ⟨fun s hs => ?_, fun s hs => ?_⟩
  · show execDisable s = _
    rw [execDisable, if_pos hs]
    rfl
  · have hout := get_releasedLatches s.cfg s.dir s.out
    refine ⟨_, exec_disable_of_enabled hs, rfl, rfl, rfl, rfl, rfl, hout, rfl, rfl, rfl, rfl, rfl, rfl, fun hd => ?_⟩
    simp [releaseRecord, hd, enabledDirs]

end Sys2Proof.Machine
end

section
/-! SUPPORT. The session transition table (spec/43_session.md R150): the changes of SESS by each command, and the obligation about
them. -/

namespace Sys2Proof.Machine

/-- A row of the table, for the change from `s` to `t` by the command `i`. -/
def SessionRow (i : Instr) (s t : State) : Prop :=
  match i with
  | .enable => s.sess = .disabled ∧ t.sess = .idle ∧ t.resync = false
  | .disable => (s.sess = .idle ∨ s.sess = .transferring) ∧ t.sess = .disabled ∧ t.resync = false
  | .wfs =>
    ((s.sess = .idle ∨ s.sess = .transferring) ∧ t.sess = .syncing ∧ t.resync = s.resync)
      ∨ (s.sess = .syncing ∧ t.sess = .transferring ∧ t.resync = false)
      ∨ (s.sess = .syncing ∧ t.sess = s.prior ∧ t.resync = true)
  | .sblk _ => s.sess = .transferring ∧ t.sess = .idle ∧ (t.resync = (t.err != 0))
  | .rblk _ => s.sess = .transferring ∧ t.sess = .idle ∧ (t.resync = (t.err != 0))
  | _ => False

/-- Between two micro-steps every command but WFS runs in T0. -/
theorem RunFits.t0 {i : Instr} {s : State} (h : RunFits i s) (hi : i ≠ .wfs) : s.t0 := by
  cases i with
  | wfs => exact absurd rfl hi
  | sbit | sbyte | rbit | rbyte | sblk | rblk => exact h.1
  | _ => exact h.elim

/-- A command that is not WFS finds no handshake running. -/
theorem MachineInv.not_syncing {s : State} (h : MachineInv s) {i : Instr} (hi : decode s.cur = .ok i) (hw : i ≠ .wfs) :
    s.sess ≠ .syncing := by
  intro hs
  have hq := h.syncing hs
  have ht := (h.fits hi (by rw [hq]; nofun)).t0 hw
  exact absurd (hs.symm.trans ht.1) nofun

theorem Sess.enabled_of_ne {x : Sess} (hd : x ≠ .disabled) (hs : x ≠ .syncing) : x = .idle ∨ x = .transferring := by
  cases x <;> simp at hd hs ⊢

/-- A fatal error keeps the session (spec/60_exceptions.md R212). -/
theorem raiseExit_sess_of_fatal {e : Err} (he : e.recoverable = false) (x : Sess) (s : State) :
    (raiseExit x e s).sess = s.sess ∧ (raiseExit x e s).resync = s.resync := by
  rw [raiseExit_fatal he]
  exact ⟨rfl, rfl⟩

/-- A micro-step of a block command in T0 that changes SESS ends the command: RESYNC tells whether by an error (R163, R164, R165). -/
theorem Ends.blockRow {P Q : State → Prop} {s t : State} (h : Ends idleSess P Q t) (ht : s.t0) (hne : t.sess ≠ s.sess)
    (hP : ∀ u, P u → u.sess = s.sess) (hQ : ∀ u, Q u → u.sess = .idle ∧ u.resync = s.resync) :
    s.sess = .transferring ∧ t.sess = .idle ∧ t.resync = (t.err != 0) := by
  cases h with
  | yields h => exact absurd (hP t h) hne
  | completes u h e =>
    obtain ⟨hsess, hresync⟩ := hQ u h
    rw [e]
    exact ⟨ht.1, hsess, hresync.trans ht.2⟩
  | raises r u h e =>
    cases hr : r.recoverable with
    | true =>
      rw [e, raiseExit_recoverable hr]
      exact ⟨ht.1, rfl, by cases r <;> rfl⟩
    | false => exact absurd (e ▸ (raiseExit_sess_of_fatal hr _ u).1.trans (hP u h)) hne
  | marks r u h e => exact absurd (e ▸ hP u h) hne
  | refuses r u h e => exact absurd (e ▸ hP u h) hne

/-- At their start the block commands leave SESS alone outside T0: they are refused, or raise UsageError (R151, R162). -/
theorem Micro.blockStart_sess {s t : State} {k : Unit → State → Micro Unit} (ht : ¬ s.t0)
    (h : finish idleSess ((requireByteWidth s).andThen fun _ u => (requireT0 u).andThen k) = .next t) : t.sess = s.sess := by
  have hno : (decide (s.sess = .transferring) && !s.resync) = false := Bool.eq_false_iff.mpr fun hk => ht (t0_of_decide hk)
  rw [requireByteWidth_andThen, requireT0, require_andThen, hno] at h
  split at h <;> cases h <;> rfl

/-- SBLK and RBLK change SESS only in T0. -/
theorem MachineInv.t0_of_block {s t : State} (h : MachineInv s) {i : Instr} (hi : decode s.cur = .ok i)
    (hb : blockCommand i = true) (he : exec i s = .next t) (hne : t.sess ≠ s.sess) : s.t0 := by
  by_contra ht
  by_cases hs : s.seq = .start
  · cases i <;> simp only [blockCommand, Bool.false_eq_true] at hb
    · simp only [exec, execSblk, hs] at he
      exact hne (Micro.blockStart_sess ht he)
    · simp only [exec, execRblk, hs] at he
      exact hne (Micro.blockStart_sess ht he)
  · exact ht ((h.fits hi hs).t0 (by rintro rfl; cases hb))

theorem PollOn.sess {b t : State} (h : PollOn b t) : t.sess = b.sess := by
  obtain ⟨u, n, hu, -, rfl⟩ := h
  exact hu.sess

theorem PollOn.resync {b t : State} (h : PollOn b t) : t.resync = b.resync := by
  obtain ⟨u, n, hu, -, rfl⟩ := h
  exact hu.resync

theorem PollOn.prior {b t : State} (h : PollOn b t) : t.prior = b.prior := by
  obtain ⟨u, n, hu, -, rfl⟩ := h
  exact hu.prior

/-- A poll while Syncing changes SESS only where it ends WFS: at the last pattern, or by TimeoutError. -/
theorem Ends.wfsRow_of_syncing {s t : State} (h : Ends priorSess (PollOn s) (PollDone s) t) (hs : s.sess = .syncing)
    (hne : t.sess ≠ s.sess) : SessionRow .wfs s t := by
  cases h with
  | yields hp => exact absurd hp.sess hne
  | completes u hp e =>
    obtain ⟨v, -, -, rfl⟩ := hp
    exact e ▸ .inr (.inl ⟨hs, rfl, rfl⟩)
  | raises r u hp e =>
    cases hr : r.recoverable with
    | true =>
      rw [raiseExit_recoverable hr] at e
      exact e ▸ .inr (.inr ⟨hs, hp.prior, rfl⟩)
    | false => exact absurd (e ▸ (raiseExit_sess_of_fatal hr _ u).1.trans hp.sess) hne
  | marks r u hp e => exact absurd (e ▸ hp.sess) hne
  | refuses r u hp e => exact absurd (e ▸ hp.sess) hne

/-- The state the first poll of a WFS starts from. -/
def handshakeBegun (s : State) : State := { s with prior := s.sess, sess := .syncing, hsIdx := 0, pollCnt := 0 }

theorem two_le_hsSeq_of_wf {c : Cfg} (h : c.wf = true) : 2 ≤ c.hsSeq.length := by
  simp [Cfg.wf, Cfg.wf3] at h
  omega

/-- The first poll goes to Syncing or, by TimeoutError, changes nothing: it cannot match the last of two patterns or more. -/
theorem Ends.wfsRow_of_begun {s t : State} (h : Ends priorSess (PollOn (handshakeBegun s)) (PollDone (handshakeBegun s)) t)
    (hw : s.cfg.wf = true) (hs : s.sess = .idle ∨ s.sess = .transferring) (hne : t.sess ≠ s.sess) : SessionRow .wfs s t := by
  cases h with
  | yields hp => exact .inl ⟨hs, hp.sess, hp.resync⟩
  | completes u hp e =>
    obtain ⟨v, -, hlast, -⟩ := hp
    have hlast : 0 + 1 = s.cfg.hsSeq.length := hlast
    have hlen := two_le_hsSeq_of_wf hw
    omega
  | raises r u hp e =>
    cases hr : r.recoverable with
    | true =>
      rw [raiseExit_recoverable hr] at e
      exact absurd (e ▸ hp.prior) hne
    | false =>
      obtain ⟨hsess, hresync⟩ := raiseExit_sess_of_fatal hr (priorSess u) u
      exact e ▸ .inl ⟨hs, hsess.trans hp.sess, hresync.trans hp.resync⟩
  | marks r u hp e => exact e ▸ .inl ⟨hs, hp.sess, hp.resync⟩
  | refuses r u hp e => exact e ▸ .inl ⟨hs, hp.sess, hp.resync⟩

theorem MachineInv.wfsRow {s t : State} (h : MachineInv s) (hi : decode s.cur = .ok .wfs) (he : execWfs s = .next t)
    (hne : t.sess ≠ s.sess) : SessionRow .wfs s t := by
  obtain ⟨-, -, -, rfl⟩ | ⟨b, ⟨hs, rfl⟩ | ⟨-, hfrom, rfl⟩, hend⟩ := execWfs_next he
  · exact absurd (raiseExit_sess_of_fatal rfl _ s).1 hne
  · obtain ⟨hsync, -⟩ := h.fits hi (by rw [hs]; nofun)
    exact hend.wfsRow_of_syncing hsync hne
  · exact Ends.wfsRow_of_begun hend h.cfg hfrom hne

/-- Settles O24: the session and block commands by their rows, and the others keep SESS (O23). -/
theorem sessionChangesAreTheTable : Obligations.SessionChangesAreTheTable := by
  unfold Obligations.SessionChangesAreTheTable
  intro i s t hm hi h hne
  suffices SessionRow i s t from this
  cases i with
  | enable =>
    obtain ⟨hs, rfl⟩ | ⟨-, rfl⟩ := execEnable_next h
    · exact ⟨hs, rfl, rfl⟩
    · exact absurd (raiseExit_sess_of_fatal rfl _ s).1 hne
  | disable =>
    obtain ⟨-, rfl⟩ | ⟨hs, o, l, -, -, rfl⟩ := execDisable_next h
    · exact absurd rfl hne
    · exact ⟨Sess.enabled_of_ne hs (hm.not_syncing hi nofun), rfl, rfl⟩
  | wfs => exact hm.wfsRow hi h hne
  | sblk len =>
    exact (execSblk_next h).blockRow (hm.t0_of_block hi rfl h hne) hne (fun _ k => k.1.sess)
      fun _ ⟨_, k, e⟩ => e ▸ ⟨rfl, k.1.resync⟩
  | rblk cap =>
    exact (execRblk_next h).blockRow (hm.t0_of_block hi rfl h hne) hne (fun _ k => k.1.sess)
      fun _ ⟨_, k, e⟩ => e ▸ ⟨rfl, k.1.resync⟩
  | _ => exact absurd (sessionKeptByLineBitWordAndBufferCommands _ s t h trivial).1 hne

end Sys2Proof.Machine
end

section
/-! SUPPORT. The polls of WFS (spec/43_session.md R154 to R156): what a poll leaves by its input vector and the bound, and the
obligations about the last pattern and the bound. -/

namespace Sys2Proof.Machine

/-- HSIDX after a poll (R154): a poll that matches pattern HSIDX advances it by one. -/
def State.handshakeNext (s : State) : Nat :=
  if handshakeMatches s.cfg s.hsIdx (inputVector s.extClk s.extDat) then s.hsIdx + 1 else s.hsIdx

/-- `s` after a poll that does not end WFS. -/
def handshakePolled (s : State) : State := { handshakeSampled s with hsIdx := s.handshakeNext }

/-- The poll in `s` matches the last pattern of HS_SEQ. -/
def State.handshakeEnds (s : State) : Prop :=
  handshakeMatches s.cfg s.hsIdx (inputVector s.extClk s.extDat) = true ∧ s.hsIdx + 1 = s.cfg.hsSeq.length

/-- A poll that does not match the last pattern comes to its timeout check. -/
theorem handshakePoll_of_not_ends {s : State} (hd : s.dir = enabledDirs) (hn : ¬ s.handshakeEnds) :
    handshakePoll s = pollAgain .hsPoll (handshakePolled s) := by
  rw [handshakePoll_eq hd, handshakePolled, State.handshakeNext]
  split
  next hm => exact if_neg fun hl => hn ⟨hm, hl⟩
  next => rfl

/-- The micro-step of WFS in `s` is a poll in the state `b`. -/
def WfsPolls (s b : State) : Prop := exec .wfs s = finish priorSess (handshakePoll b)

theorem wfsPolls_of_hsPoll {s : State} (hs : s.seq = .hsPoll) : WfsPolls s s := by
  rw [WfsPolls, exec, execWfs, hs]

theorem wfsPolls_of_start {s : State} (hs : s.seq = .start) (hl : s.sess = .idle ∨ s.sess = .transferring) :
    WfsPolls s (handshakeBegun s) := by
  rw [WfsPolls, exec, execWfs, hs]
  dsimp only
  rw [require_andThen, if_pos (by simpa using hl), handshakeBegun]

section
variable {s b : State} (h : WfsPolls s b) (hd : b.dir = enabledDirs)
include h hd

theorem WfsPolls.next_of_ends (he : b.handshakeEnds) :
    exec .wfs s = .next (complete { handshakeSampled b with hsIdx := b.hsIdx + 1, sess := .transferring, resync := false }) := by
  obtain ⟨hm, hl⟩ := he
  rw [h, handshakePoll_eq hd, if_pos hm, if_pos hl]
  rfl

theorem WfsPolls.next_of_below (hn : ¬ b.handshakeEnds) (hb : b.cfg.timeout ≠ some (b.pollCnt + 1)) :
    exec .wfs s = .next { handshakePolled b with seq := .hsPoll } := by
  have hagain : pollAgain .hsPoll (handshakePolled b) = (yieldAt .hsPoll (handshakePolled b) : Micro Unit) := if_neg hb
  rw [h, handshakePoll_of_not_ends hd hn, hagain]
  rfl

theorem WfsPolls.next_of_bound (hn : ¬ b.handshakeEnds) (hb : b.cfg.timeout = some (b.pollCnt + 1)) :
    ∃ t, exec .wfs s = .next t ∧ RecoverableEffect .timeout b.prior (pollSamples b) b t := by
  have hagain : pollAgain .hsPoll (handshakePolled b) = (.raises .timeout (handshakePolled b) : Micro Unit) := if_pos hb
  refine ⟨recoverableExit b.prior .timeout (handshakePolled b), ?_, ?_⟩
  · rw [h, handshakePoll_of_not_ends hd hn, hagain]
    rfl
  · constructor <;> simp [handshakePolled, handshakeSampled, pollSamples]

end

/-- Settles O42: the match is tested before the bound. -/
theorem wfsCompletesAtTheLastPattern : Obligations.WfsCompletesAtTheLastPattern := by
  unfold Obligations.WfsCompletesAtTheLastPattern
  intro s hd hs hl hm
  rw [(wfsPolls_of_hsPoll hs).next_of_ends hd ⟨hm, hl⟩]
  simp [complete, record, handshakeSampled]

/-- Settles O43: the poll comes to its timeout check with TIMEOUT reached. -/
theorem wfsTimeoutRestoresThePriorState : Obligations.WfsTimeoutRestoresThePriorState := by
  unfold Obligations.WfsTimeoutRestoresThePriorState
  intro s hd hs hb hn
  have hends : ¬ s.handshakeEnds := by
    rintro ⟨hm, hl⟩
    simp [hm, hl] at hn
  exact (wfsPolls_of_hsPoll hs).next_of_bound hd hends hb

end Sys2Proof.Machine
end

section
/-! SUPPORT. WFS while the peer keeps its lines (spec/43_session.md R157): a pattern that never matches stops the count of HSIDX,
and the obligation about constant inputs. -/

namespace Sys2Proof.Machine

theorem HsPattern.not_both_of_excludes {p q : HsPattern} (h : p.excludes q = true) (iv : BitVec 2) :
    p.matchesInput iv = false ∨ q.matchesInput iv = false := by
  have hmem : iv ∈ [0#2, 1#2, 2#2, 3#2] := by
    revert iv
    decide
  have hboth := List.all_eq_true.mp h iv hmem
  revert hboth
  cases p.matchesInput iv <;> cases q.matchesInput iv <;> simp

/-- Of a list with an exclusive pair no input vector matches every pattern. -/
theorem exists_not_matches_of_exclusivePair {l : List HsPattern} (h : hasExclusivePair l = true) (iv : BitVec 2) :
    ∃ p ∈ l, p.matchesInput iv = false := by
  induction l with
  | nil => cases h
  | cons p l ih =>
    cases l with
    | nil => cases h
    | cons q l =>
      obtain hpq | hrest : p.excludes q = true ∨ hasExclusivePair (q :: l) = true := by
        simpa [hasExclusivePair] using h
      · obtain hp | hq := HsPattern.not_both_of_excludes hpq iv
        · exact ⟨p, by simp, hp⟩
        · exact ⟨q, by simp, hq⟩
      · obtain ⟨r, hr, hm⟩ := ih hrest
        exact ⟨r, List.mem_cons_of_mem p hr, hm⟩

/-- Under a well-formed configuration every input vector fails some pattern of HS_SEQ (wf4 of spec/00_scope.md R6). -/
theorem exists_unmatched_of_wf {c : Cfg} (h : c.wf = true) (iv : BitVec 2) :
    ∃ k < c.hsSeq.length, handshakeMatches c k iv = false := by
  have hpair : c.wf4 = true := by
    simp [Cfg.wf] at h
    tauto
  obtain ⟨p, hp, hm⟩ := exists_not_matches_of_exclusivePair hpair iv
  obtain ⟨k, hk, rfl⟩ := List.getElem_of_mem hp
  exact ⟨k, hk, by simp [handshakeMatches, hk, hm]⟩

/-- With nothing but the block's turns scheduled, an enabled block takes its micro-step. -/
theorem step_of_blockMoves {i : Instr} {s : State} (hw : s.cfg.wf = true) (he : s.blockEnabled) (hi : decode s.cur = .ok i)
    (ha : ∀ m ∈ s.agenda, m = .block) : step s = exec i { s with agenda := s.agenda.tail } := by
  cases hms : s.agenda with
  | nil =>
    rw [step_of_blockEnabled hw hms he, microStep, hi, List.tail_nil, ← hms]
  | cons m ms =>
    obtain rfl := ha m (by rw [hms]; exact List.mem_cons_self)
    exact step_of_block hw he hi hms

/-- A WFS is issued in `s` from Idle or Transferring, and its first poll is next. -/
structure WfsIssued (s : State) : Prop where
  wf      : s.cfg.wf = true
  enabled : s.blockEnabled
  decoded : decode s.cur = .ok .wfs
  dirs    : s.dir = enabledDirs
  first   : s.seq = .start
  legal   : s.sess = .idle ∨ s.sess = .transferring

/-- The WFS issued in `s` at its poll number `n + 1`, with HSIDX at `j`. -/
def handshakeAt (s : State) (n j : Nat) (q : Seq) (ms : List Move) (ev : List Event) : State :=
  { handshakeBegun s with hsIdx := j, pollCnt := n, seq := q, agenda := ms, events := ev }

/-- The next step from `t` is poll number `n + 1` of the WFS issued in `s`, with HSIDX not beyond `k` and nothing but the block's
turns scheduled after it. -/
def HandshakeStuck (s : State) (k n : Nat) (t : State) : Prop :=
  ∃ u j q ms ev, j ≤ k ∧ (∀ m ∈ ms, m = .block) ∧ step t = exec .wfs u ∧ WfsPolls u (handshakeAt s n j q ms ev)

theorem handshakePolled_handshakeAt (s : State) (n j : Nat) (q : Seq) (ms : List Move) (ev : List Event) : ∃ ev',
    { handshakePolled (handshakeAt s n j q ms ev) with seq := .hsPoll } =
      handshakeAt s (n + 1) (handshakeAt s n j q ms ev).handshakeNext .hsPoll ms ev' := ⟨_, rfl⟩

theorem WfsIssued.stuck_handshakeAt {s : State} (h : WfsIssued s) {k n j : Nat} (hj : j ≤ k) {ms : List Move}
    (hms : ∀ m ∈ ms, m = .block) (ev : List Event) : HandshakeStuck s k n (handshakeAt s n j .hsPoll ms ev) :=
  ⟨handshakeAt s n j .hsPoll ms.tail ev, j, .hsPoll, ms.tail, ev, hj, fun m hm => hms m (List.mem_of_mem_tail hm),
    step_of_blockMoves (s := handshakeAt s n j .hsPoll ms ev) h.wf h.enabled h.decoded hms, wfsPolls_of_hsPoll rfl⟩

theorem WfsIssued.stuck_zero {s : State} (h : WfsIssued s) (ha : ∀ m ∈ s.agenda, m = .block) (k : Nat) :
    HandshakeStuck s k 0 s :=
  ⟨_, 0, s.seq, s.agenda.tail, s.events, Nat.zero_le k, fun m hm => ha m (List.mem_of_mem_tail hm),
    step_of_blockMoves h.wf h.enabled h.decoded ha, wfsPolls_of_start h.first h.legal⟩

/-- While HSIDX is not beyond a pattern the inputs do not match, a poll does not end WFS and leaves HSIDX so. -/
theorem handshakeNext_le_of_unmatched {s : State} {k : Nat} (hk : k < s.cfg.hsSeq.length)
    (hm : handshakeMatches s.cfg k (inputVector s.extClk s.extDat) = false) (hj : s.hsIdx ≤ k) :
    ¬ s.handshakeEnds ∧ s.handshakeNext ≤ k := by
  rw [State.handshakeEnds, State.handshakeNext]
  obtain hlt | heq := Nat.lt_or_eq_of_le hj
  · refine ⟨fun ⟨_, hl⟩ => ?_, ?_⟩
    · omega
    · split <;> omega
  · simp [heq, hm]

section
variable {s : State} (h : WfsIssued s) {k : Nat} (hk : k < s.cfg.hsSeq.length)
  (hm : handshakeMatches s.cfg k (inputVector s.extClk s.extDat) = false)
include h hk hm

/-- Below the bound the handshake stays stuck, in Syncing. -/
theorem HandshakeStuck.step_of_below {n : Nat} {t : State} (ht : HandshakeStuck s k n t) (hb : s.cfg.timeout ≠ some (n + 1)) :
    ∃ u, step t = .next u ∧ HandshakeStuck s k (n + 1) u ∧ u.busy = true ∧ u.sess = .syncing ∧ u.unmarked := by
  obtain ⟨y, j, q, ms, ev, hj, hms, hstep, hpoll⟩ := ht
  obtain ⟨hn, hle⟩ := handshakeNext_le_of_unmatched (s := handshakeAt s n j q ms ev) hk hm hj
  have hnext := hpoll.next_of_below h.dirs hn hb
  obtain ⟨ev', hev⟩ := handshakePolled_handshakeAt s n j q ms ev
  rw [hev] at hnext
  obtain ⟨hbusy, hmarks⟩ := h.enabled
  exact ⟨_, hstep.trans hnext, h.stuck_handshakeAt hle hms ev', hbusy, rfl, hmarks⟩

/-- At the bound the stuck handshake ends with TimeoutError, and SESS is as at its issue. -/
theorem HandshakeStuck.step_of_bound {n : Nat} {t : State} (ht : HandshakeStuck s k n t) (hb : s.cfg.timeout = some (n + 1)) :
    ∃ u, step t = .next u ∧ u.busy = false ∧ u.err = Err.timeout.code ∧ u.resync = true ∧ u.sess = s.sess := by
  obtain ⟨y, j, q, ms, ev, hj, -, hstep, hpoll⟩ := ht
  obtain ⟨hn, -⟩ := handshakeNext_le_of_unmatched (s := handshakeAt s n j q ms ev) hk hm hj
  obtain ⟨u, hu, hend⟩ := hpoll.next_of_bound h.dirs hn hb
  exact ⟨u, hstep.trans hu, hend.busy, hend.err, hend.resync, hend.sess⟩

/-- Any number of steps below the bound leaves the handshake stuck. -/
theorem WfsIssued.steps_stuck (ha : ∀ m ∈ s.agenda, m = .block) {n : Nat} (hb : ∀ b, s.cfg.timeout = some b → n < b) :
    ∃ t, steps n s = .next t ∧ HandshakeStuck s k n t
      ∧ (1 ≤ n → t.busy = true ∧ t.sess = .syncing ∧ t.unmarked) := by
  induction n with
  | zero => exact ⟨s, rfl, h.stuck_zero ha k, fun hn => absurd hn (by decide)⟩
  | succ n ih =>
    obtain ⟨t, ht, hstuck, -⟩ := ih fun b hb' => Nat.lt_of_succ_lt (hb b hb')
    have hbelow : s.cfg.timeout ≠ some (n + 1) := fun hb' => absurd (hb _ hb') (lt_irrefl _)
    obtain ⟨u, hu, hstuck', hpolling⟩ := hstuck.step_of_below h hk hm hbelow
    exact ⟨u, by rw [steps_add ht, steps_succ hu, steps], hstuck', fun _ => hpolling⟩

end

/-- Under the block's turns alone a WFS without a bound hangs while the inputs stay (R254). -/
theorem WfsIssued.hangs {s : State} (h : WfsIssued s) {k : Nat} (hk : k < s.cfg.hsSeq.length)
    (hm : handshakeMatches s.cfg k (inputVector s.extClk s.extDat) = false) (hb : s.cfg.timeout = none) :
    Hangs (fun _ => .block) s := by
  refine ⟨fun n => ⟨n, le_rfl, rfl⟩, 1, fun n hn => ?_⟩
  have hblocks : ∀ m ∈ (List.range n).map fun _ => Move.block, m = .block := by simp
  have h' : WfsIssued { s with agenda := (List.range n).map fun _ => .block } :=
    ⟨h.wf, h.enabled, h.decoded, h.dirs, h.first, h.legal⟩
  obtain ⟨t, ht, -, hpolling⟩ := h'.steps_stuck hk hm hblocks fun b hb' => absurd (hb.symm.trans hb') nofun
  obtain ⟨hbusy, -, hmarks⟩ := hpolling hn
  exact ⟨t, ht, hbusy, hmarks⟩

/-- Settles O44: some pattern of HS_SEQ does not match the constant inputs, and HSIDX never passes it. -/
theorem wfsNeverReturnsOnConstantInputs : Obligations.WfsNeverReturnsOnConstantInputs := by
  unfold Obligations.WfsNeverReturnsOnConstantInputs
  intro s hw he ha hcur hs hd hl
  have h : WfsIssued s := ⟨hw, he, by rw [hcur, decode_encode], hd, hs, hl⟩
  obtain ⟨k, hk, hm⟩ := exists_unmatched_of_wf hw (inputVector s.extClk s.extDat)
  have hblocks : ∀ m ∈ s.agenda, m = .block := by simp [ha]
  have polling : ∀ n, 1 ≤ n → (∀ b, s.cfg.timeout = some b → n < b) →
      ∃ t, steps n s = .next t ∧ t.busy = true ∧ t.sess = .syncing := fun n hn hb => by
    obtain ⟨t, ht, -, hpolling⟩ := h.steps_stuck hk hm hblocks hb
    obtain ⟨hbusy, hsync, -⟩ := hpolling hn
    exact ⟨t, ht, hbusy, hsync⟩
  refine ⟨fun hb => ⟨fun n hn => polling n hn fun b hb' => absurd (hb.symm.trans hb') nofun, h.hangs hk hm hb⟩,
    fun b hb => ⟨fun n hn hlt => polling n hn fun b' hb' => ?_, ?_⟩⟩
  · rwa [← Option.some_inj.mp (hb.symm.trans hb')]
  · obtain ⟨n, rfl⟩ : ∃ n, b = n + 1 := ⟨b - 1, by have := timeout_of_wf hw hb; omega⟩
    obtain ⟨t, ht, hstuck, -⟩ := h.steps_stuck hk hm hblocks (n := n) fun b' hb' => by
      rw [← Option.some_inj.mp (hb.symm.trans hb')]
      exact Nat.lt_succ_self n
    obtain ⟨u, hu, hend⟩ := hstuck.step_of_bound h hk hm hb
    exact ⟨u, by rw [steps_add ht, steps_succ hu, steps], hend⟩

end Sys2Proof.Machine
end

section
/-! SUPPORT. The rendezvous (spec/43_session.md R156, spec/70_reset_and_hazards.md R246): WFS while the peer shows the patterns of
HS_SEQ in order, and the obligation about it. -/

namespace Sys2Proof.Machine

/-- WFS runs in `s`, in an Enabled session's directions, and its next poll is poll number `n + 1`, for pattern `n`. -/
structure Handshakes (s : State) (n : Nat) : Prop where
  wf      : s.cfg.wf = true
  enabled : s.blockEnabled
  decoded : decode s.cur = .ok .wfs
  dirs    : s.dir = enabledDirs
  poll    : (s.seq = .hsPoll ∧ s.hsIdx = n ∧ s.pollCnt = n) ∨ (s.seq = .start ∧ n = 0 ∧ (s.sess = .idle ∨ s.sess = .transferring))

/-- A WFS that runs in `s` has completed in `t`: the session is Transferring, and the lines, RES and BUF are as before. -/
structure HandshakeDone (s t : State) : Prop where
  sess     : t.sess = .transferring
  resync   : t.resync = false
  busy     : t.busy = false
  err      : t.err = 0
  unmarked : t.unmarked
  out      : t.out = s.out
  dir      : t.dir = s.dir
  res      : t.res = s.res
  buf      : t.buf = s.buf

/-- The peer shows an input vector, and the block's turn is next. -/
theorem plays_showInput {s : State} {iv : BitVec 2} {ms : List Move} (hw : s.cfg.wf = true)
    (ha : s.agenda = showInput iv ++ ms) : ∃ ev, Plays s { s with
      agenda := .block :: ms, extClk := iv.getLsbD 0, extDat := iv.getLsbD 1, events := ev } := by
  obtain ⟨ev₁, h₁⟩ := plays_iclk hw ha
  obtain ⟨ev₂, h₂⟩ := plays_idat (s := { s with agenda := _, extClk := iv.getLsbD 0, events := ev₁ }) hw rfl
  exact ⟨ev₂, h₁.trans h₂⟩

/-- The block's turn takes its move from the schedule. -/
theorem plays_turn {i : Instr} {s t : State} {ms : List Move} (hw : s.cfg.wf = true) (he : s.blockEnabled)
    (hi : decode s.cur = .ok i) (ha : s.agenda = .block :: ms) (h : exec i { s with agenda := ms } = .next t) : Plays s t := by
  obtain ⟨-, -, -, -, hms, -⟩ := commandsLeaveTheEnvironmentAlone i _ t h
  cases hms
  exact plays_block hw he hi ha h

theorem inputVector_getLsbD (iv : BitVec 2) : inputVector (iv.getLsbD 0) (iv.getLsbD 1) = iv := by
  revert iv
  decide

/-- The poll that is next, wherever the schedule, the peer and the history stand. -/
theorem Handshakes.wfsPolls {s : State} {n : Nat} (h : Handshakes s n) (x y : Bit) (ms : List Move) (ev : List Event) : ∃ p z,
    WfsPolls { s with agenda := ms, extClk := x, extDat := y, events := ev } { s with
      agenda := ms, extClk := x, extDat := y, events := ev, prior := p, sess := z, hsIdx := n, pollCnt := n } := by
  obtain ⟨hs, rfl, hp⟩ | ⟨hs, rfl, hl⟩ := h.poll
  · exact ⟨s.prior, s.sess, by rw [← hp]; exact wfsPolls_of_hsPoll hs⟩
  · exact ⟨s.sess, .syncing, wfsPolls_of_start hs hl⟩

section
variable {s : State} {n : Nat} (h : Handshakes s n) {iv : BitVec 2} {ms : List Move} (ha : s.agenda = showInput iv ++ ms)
  (hm : handshakeMatches s.cfg n iv = true)
include h ha hm

/-- The peer shows a pattern that is not the last, and the poll goes on to the next one. -/
theorem Handshakes.plays_pattern (hn : n + 1 ≠ s.cfg.hsSeq.length) (hb : s.cfg.timeout ≠ some (n + 1)) :
    ∃ t, Plays s t ∧ Handshakes t (n + 1) ∧ t.agenda = ms ∧ t.cfg = s.cfg
      ∧ t.out = s.out ∧ t.dir = s.dir ∧ t.res = s.res ∧ t.buf = s.buf := by
  obtain ⟨ev, hshow⟩ := plays_showInput h.wf ha
  obtain ⟨p, z, hpoll⟩ := h.wfsPolls (iv.getLsbD 0) (iv.getLsbD 1) ms ev
  have hgo := hpoll.next_of_below h.dirs (fun ⟨_, hl⟩ => hn hl) hb
  have hplays := hshow.trans (plays_turn h.wf h.enabled h.decoded rfl hgo)
  refine ⟨_, hplays, ?_, rfl, rfl, rfl, rfl, rfl, rfl⟩
  refine ⟨h.wf, h.enabled, h.decoded, h.dirs, .inl ⟨rfl, ?_, rfl⟩⟩
  refine if_pos ?_
  rw [inputVector_getLsbD]
  exact hm

/-- The peer shows the last pattern, and the poll completes WFS. -/
theorem Handshakes.plays_lastPattern (hn : n + 1 = s.cfg.hsSeq.length) :
    ∃ t, Plays s t ∧ t.agenda = ms ∧ HandshakeDone s t := by
  obtain ⟨ev, hshow⟩ := plays_showInput h.wf ha
  obtain ⟨p, z, hpoll⟩ := h.wfsPolls (iv.getLsbD 0) (iv.getLsbD 1) ms ev
  have hend := hpoll.next_of_ends h.dirs ⟨by rw [inputVector_getLsbD]; exact hm, hn⟩
  have hplays := hshow.trans (plays_turn h.wf h.enabled h.decoded rfl hend)
  obtain ⟨-, hmarks⟩ := h.enabled
  exact ⟨_, hplays, rfl, rfl, rfl, rfl, rfl, hmarks, rfl, rfl, rfl, rfl⟩

end

/-- While the peer shows the patterns that are left, one for each poll, WFS comes to its end. -/
theorem Handshakes.plays_patterns {s : State} {n : Nat} (h : Handshakes s n) {ivs : List (BitVec 2)} (hne : ivs ≠ [])
    (hlen : n + ivs.length = s.cfg.hsSeq.length) (hm : ∀ k iv, ivs[k]? = some iv → handshakeMatches s.cfg (n + k) iv = true)
    (hb : ∀ b, s.cfg.timeout = some b → n + ivs.length ≤ b) (ha : s.agenda = ivs.flatMap showInput) :
    ∃ t, Plays s t ∧ t.agenda = [] ∧ HandshakeDone s t := by
  induction ivs generalizing s n with
  | nil => exact absurd rfl hne
  | cons iv ivs ih =>
    rw [List.flatMap_cons] at ha
    rw [List.length_cons] at hlen
    have hfirst : handshakeMatches s.cfg n iv = true := hm 0 iv rfl
    cases ivs with
    | nil => exact h.plays_lastPattern ha hfirst hlen
    | cons iv' ivs =>
      rw [List.length_cons] at hlen
      have hbelow : s.cfg.timeout ≠ some (n + 1) := fun hb' => by
        have hle := hb _ hb'
        simp only [List.length_cons] at hle
        omega
      obtain ⟨t, hplays, ht, hms, hc, hout, hdir, hres, hbuf⟩ := h.plays_pattern ha hfirst (by omega) hbelow
      obtain ⟨u, hrest, hnil, hend⟩ := ih ht nofun (by rw [hc, List.length_cons]; omega)
        (fun k iv hk => by rw [hc, Nat.add_right_comm]; exact hm (k + 1) iv hk)
        (fun b hb' => by
          rw [hc] at hb'
          have hle := hb b hb'
          simp only [List.length_cons] at hle ⊢
          omega) hms
      exact ⟨u, hplays.trans hrest, hnil, hend.sess, hend.resync, hend.busy, hend.err, hend.unmarked, hend.out.trans hout,
        hend.dir.trans hdir, hend.res.trans hres, hend.buf.trans hbuf⟩

/-- Settles O45: the peer shows a pattern for each poll of the WFS, the first of which is its first micro-step. -/
theorem wfsCompletesWhenThePeerShowsThePatterns : Obligations.WfsCompletesWhenThePeerShowsThePatterns := by
  unfold Obligations.WfsCompletesWhenThePeerShowsThePatterns
  intro s ivs hw he hcur hs hd hl hlen hm hb ha
  have h : Handshakes s 0 := ⟨hw, he, by rw [hcur, decode_encode], hd, .inr ⟨hs, rfl, hl⟩⟩
  have hne : ivs ≠ [] := by
    rintro rfl
    exact absurd (hsSeq_of_wf hw) (by rw [← hlen]; exact lt_irrefl 0)
  obtain ⟨t, hplays, hnil, hend⟩ := h.plays_patterns hne (by rw [Nat.zero_add, hlen])
    (fun k iv hk => by rw [Nat.zero_add]; exact hm k iv hk) (fun b hb' => by rw [Nat.zero_add]; exact hb b hb') ha
  exact ⟨t, hplays.steps hnil, hend.sess, hend.resync, hend.busy, hend.err, hend.unmarked, hend.out, hend.dir, hend.res,
    hend.buf⟩

end Sys2Proof.Machine
end

section
/-! SUPPORT. The length of a block (spec/43_session.md R158): the obligation about its bytes. -/

namespace Sys2Proof.Machine

theorem toNat_setWidth_ushiftRight_ofNat (n k : Nat) (hn : n < 2 ^ 17) :
    ((BitVec.ofNat 17 n >>> k).setWidth 8 : Byte).toNat = n / 2 ^ k % 256 := by
  rw [BitVec.toNat_setWidth, BitVec.toNat_ushiftRight, BitVec.toNat_ofNat, Nat.mod_eq_of_lt hn, Nat.shiftRight_eq_div_pow]

/-- Settles O47: the bytes of the length, from the low or from the high one on. -/
theorem lengthBytesRoundTrip : Obligations.LengthBytesRoundTrip := by
  unfold Obligations.LengthBytesRoundTrip
  intro c n hn
  cases hl : c.lenBytes with
  | one =>
    have hn : n < 256 := by rwa [hl] at hn
    cases ho : c.lenOrder <;> simp [LenBytes.count, assembleLen, lenByte, ho, hl, Nat.mod_eq_of_lt hn]
  | two =>
    have hn : n < 65536 := by rwa [hl] at hn
    have hn17 : n < 2 ^ 17 := by omega
    cases ho : c.lenOrder <;>
      simp [LenBytes.count, assembleLen, lenByte, ho, hl, List.range_succ, toNat_setWidth_ushiftRight_ofNat n _ hn17] <;>
      omega

end Sys2Proof.Machine
end

section
/-! SUPPORT. The block commands at their first micro-step and at the end of a received element (spec/43_session.md R162 to R165):
the obligations about refusals and framing errors. -/

namespace Sys2Proof.Machine

/-- Settles O46: the width check is the first of both commands. -/
theorem blockCommandsNeedByteWords : Obligations.BlockCommandsNeedByteWords := by
  unfold Obligations.BlockCommandsNeedByteWords
  intro s n hs hw hr
  have hmark : setRefused .blockWidth s = { s with refused := some .blockWidth } := by
    rw [setRefused, hr]
    rfl
  rw [← hmark]
  refine ⟨?_, ?_⟩
  · rw [exec, execSblk, hs]
    dsimp only
    rw [requireByteWidth_andThen, if_neg hw, finish]
  · rw [exec, execRblk, hs]
    dsimp only
    rw [requireByteWidth_andThen, if_neg hw, finish]

section
variable {s : State} {n : BitVec 16} (hs : s.seq = .start) (ht : s.t0) (hw : s.cfg.width = 8) (hl : n.toNat ≤ s.cfg.bufSize)
include hs ht hw hl

theorem exec_sblk_of_badLen (hk : sendLenOk s.cfg n.toNat = false) :
    exec (.sblk n) s = .next (raiseExit .idle .framingLength s) := by
  simp only [exec, execSblk, hs, requireByteWidth_andThen, requireT0_andThen ht, require_andThen, hw, hl, hk, decide_true,
    if_true]
  rfl

theorem exec_rblk_of_badLen (hk : recvLenOk s.cfg n.toNat = false) :
    exec (.rblk n) s = .next (raiseExit .idle .framingLength s) := by
  simp only [exec, execRblk, hs, requireByteWidth_andThen, requireT0_andThen ht, require_andThen, hw, hl, hk, decide_true,
    if_true]
  rfl

end

/-- Settles O49: the length check comes before the first element of both commands. -/
theorem unsupportedLengthRaisesFramingError : Obligations.UnsupportedLengthRaisesFramingError := by
  unfold Obligations.UnsupportedLengthRaisesFramingError
  intro s n _ hs ht hw hl
  have heffect : RecoverableEffect .framingLength .idle [] s (raiseExit .idle .framingLength s) := by
    rw [raiseExit_recoverable rfl]
    constructor <;> simp
  refine ⟨fun hk => ⟨_, exec_sblk_of_badLen hs ht hw hl hk, heffect⟩, fun m hb hm hlt => ?_⟩
  have hk : recvLenOk s.cfg n.toNat = false := by simp [recvLenOk, hb, hm, hlt]
  exact ⟨_, exec_rblk_of_badLen hs ht hw hl hk, heffect⟩

/-- The error a received element ends RBLK with: a marker that differs, or a length above the capacity. -/
def State.elemError (s : State) (cap v : BitVec 16) : Err → Prop
  | .framingMarker =>
    (s.part = .startMarker ∧ s.cfg.startMarker ≠ some (v.setWidth 8))
      ∨ (s.part = .endMarker ∧ s.cfg.endMarker ≠ some (v.setWidth 8))
  | .framingLength =>
    ∃ j, s.part = .lenByte j ∧ j + 1 = s.cfg.lenBytes.count ∧ cap.toNat < assembleLen s.cfg (s.lenAcc ++ [v.setWidth 8])
  | _ => False

/-- A wrong element raises its error, and of the host's and the peer's view changes nothing. -/
theorem acceptElem_of_error {s : State} {cap v : BitVec 16} {e : Err} (h : s.elemError cap v e) :
    ∃ q, acceptElem cap.toNat v s = .raises e { s with lenAcc := q } := by
  cases e with
  | framingMarker =>
    obtain ⟨hp, hm⟩ | ⟨hp, hm⟩ := h
    all_goals
      have hraise : acceptElem cap.toNat v s = .raises .framingMarker s := by
        simp only [acceptElem, hp, require_andThen, decide_eq_false hm, Bool.false_eq_true, if_false]
      exact ⟨s.lenAcc, hraise⟩
  | framingLength =>
    obtain ⟨j, hp, hj, hlen⟩ := h
    exact ⟨s.lenAcc ++ [v.setWidth 8], by
      simp only [acceptElem, hp, acceptLenByte, hj, lt_irrefl, require_andThen, decide_eq_false (Nat.not_le.mpr hlen),
        Bool.false_eq_true, if_false]⟩
  | _ => exact h.elim

/-- The poll that ends an element gives it to RBLK. -/
theorem exec_rblk_of_word {cap : BitVec 16} {s : State} {v : BitVec 16} (hw : s.cfg.wf = true) (hd : s.dir = enabledDirs)
    (h : completesWord s v) : ∃ n, exec (.rblk cap) s = finish idleSess (acceptElem cap.toNat v (wordTaken v n s)) := by
  obtain ⟨n, hword⟩ := recvWordResume_of_completesWord hw hd h
  exact ⟨n, by rw [exec, execRblk_resume (by rw [h.1]; rfl), hword, Micro.andThen]⟩

/-- The poll that completes a wrong element ends RBLK with its error. -/
theorem exec_rblk_of_elemError {s : State} {cap v : BitVec 16} {e : Err} (hw : s.cfg.wf = true) (hd : s.dir = enabledDirs)
    (h : completesWord s v) (he : s.elemError cap v e) :
    ∃ t, exec (.rblk cap) s = .next t ∧ RecoverableEffect e .idle (pollSamples s) s t := by
  obtain ⟨n, hword⟩ := exec_rblk_of_word (cap := cap) hw hd h
  obtain ⟨q, helem⟩ := acceptElem_of_error (s := wordTaken v n s) he
  have hr : e.recoverable = true := by cases e <;> trivial
  refine ⟨raiseExit .idle e { wordTaken v n s with lenAcc := q }, ?_, ?_⟩
  · rw [hword, helem]
    rfl
  · rw [raiseExit_recoverable hr]
    constructor <;> simp [wordTaken]

/-- Settles O53: each clause is a wrong element. -/
theorem rblkRejectsWrongElements : Obligations.RblkRejectsWrongElements := by
  unfold Obligations.RblkRejectsWrongElements
  intro s cap v hw hd h
  refine ⟨fun hm => exec_rblk_of_elemError hw hd h hm, fun j hp hj hlen => exec_rblk_of_elemError hw hd h ?_⟩
  exact ⟨j, hp, hj, hlen⟩

end Sys2Proof.Machine
end

section
/-! SUPPORT. The layout of a block (spec/43_session.md R160): the elements from a part on, as the bytes they put on the wire. -/

namespace Sys2Proof.Machine

/-- The length bytes of a block of `ds`, none in FIXED mode. -/
def lenPrefix (c : Cfg) (ds : List Byte) : List Byte :=
  if c.blockMode = .prefixed then (List.range c.lenBytes.count).map (lenByte c (BitVec.ofNat 17 ds.length)) else []

theorem blockBytes_eq (c : Cfg) (ds : List Byte) :
    blockBytes c ds = c.startMarker.toList ++ lenPrefix c ds ++ ds ++ c.endMarker.toList := by
  cases hm : c.blockMode <;> simp [blockBytes, lenPrefix, hm]

/-- The bytes of a block of `ds` from a part of its layout on, where the next data byte is the one at `x`. -/
def bytesFrom (c : Cfg) (ds : List Byte) (x : Nat) : Option Part → List Byte
  | none => []
  | some .startMarker => blockBytes c ds
  | some (.lenByte j) => (lenPrefix c ds).drop j ++ ds ++ c.endMarker.toList
  | some .data => ds.drop x ++ c.endMarker.toList
  | some .endMarker => c.endMarker.toList

/-- The wire bits of elements (R159). -/
def elemBits (c : Cfg) (bs : List Byte) : List Bit := bs.flatMap fun b => wireBits c (b.setWidth 16)

theorem elemBits_nil (c : Cfg) : elemBits c [] = [] := rfl

theorem elemBits_cons (c : Cfg) (b : Byte) (bs : List Byte) :
    elemBits c (b :: bs) = wireBits c (b.setWidth 16) ++ elemBits c bs := List.flatMap_cons

/-- BLEN of a block of `ds`. -/
def dataLen (ds : List Byte) : BitVec 17 := BitVec.ofNat 17 ds.length

theorem toNat_dataLen {ds : List Byte} (hl : ds.length < 2 ^ 17) : (dataLen ds).toNat = ds.length := by
  rw [dataLen, BitVec.toNat_ofNat, Nat.mod_eq_of_lt hl]

theorem lenPrefix_length {c : Cfg} (hb : c.blockMode = .prefixed) (ds : List Byte) :
    (lenPrefix c ds).length = c.lenBytes.count := by simp [lenPrefix, hb]

theorem bytesFrom_endPart (c : Cfg) (ds : List Byte) (x : Nat) : bytesFrom c ds x (endPart c) = c.endMarker.toList := by
  cases hm : c.endMarker <;> simp [endPart, bytesFrom, hm]

section
variable {c : Cfg} {ds : List Byte} (hl : ds.length < 2 ^ 17)
include hl

theorem bytesFrom_dataPart (i : BitVec 17) :
    bytesFrom c ds i.toNat (dataPart c i (dataLen ds)) = ds.drop i.toNat ++ c.endMarker.toList := by
  rw [dataPart]
  split
  next => rfl
  next h =>
    rw [BitVec.lt_def, toNat_dataLen hl, Nat.not_lt] at h
    rw [bytesFrom_endPart, List.drop_eq_nil_of_le h, List.nil_append]

theorem bytesFrom_lenPart (j : Nat) :
    bytesFrom c ds 0 (lenPart c j 0 (dataLen ds)) = (lenPrefix c ds).drop j ++ ds ++ c.endMarker.toList := by
  rw [lenPart]
  split
  next => rfl
  next h =>
    have hnil : (lenPrefix c ds).drop j = [] := by
      by_cases hb : c.blockMode = .prefixed
      · exact List.drop_eq_nil_of_le (by rw [lenPrefix_length hb]; exact Nat.not_lt.mp fun hj => h ⟨hb, hj⟩)
      · rw [lenPrefix, if_neg hb, List.drop_nil]
    rw [hnil, List.nil_append]
    exact bytesFrom_dataPart hl 0

theorem bytesFrom_firstPart : bytesFrom c ds 0 (firstPart c 0 (dataLen ds)) = blockBytes c ds := by
  rw [firstPart]
  split
  next => rfl
  next h =>
    rw [bytesFrom_lenPart hl, blockBytes_eq, Option.not_isSome_iff_eq_none.mp h]
    rfl

/-! ### The byte of each element -/

theorem bytesFrom_startMarker {m : Byte} (hm : c.startMarker = some m) (x : Nat) :
    bytesFrom c ds x (some .startMarker) = m :: bytesFrom c ds 0 (lenPart c 0 0 (dataLen ds)) := by
  rw [bytesFrom_lenPart hl, bytesFrom, blockBytes_eq, hm]
  rfl

theorem bytesFrom_lenByte (hb : c.blockMode = .prefixed) {j : Nat} (hj : j < c.lenBytes.count) (x : Nat) :
    bytesFrom c ds x (some (.lenByte j)) = lenByte c (dataLen ds) j :: bytesFrom c ds 0 (lenPart c (j + 1) 0 (dataLen ds)) := by
  have hget : (lenPrefix c ds).drop j = lenByte c (dataLen ds) j :: (lenPrefix c ds).drop (j + 1) := by
    rw [List.drop_eq_getElem_cons (by rwa [lenPrefix_length hb])]
    simp [lenPrefix, hb, dataLen]
  rw [bytesFrom_lenPart hl, bytesFrom, hget]
  rfl

theorem bytesFrom_data {i : BitVec 17} (hi : i < dataLen ds) : ∃ b, ds[i.toNat]? = some b ∧
    bytesFrom c ds i.toNat (some .data) = b :: bytesFrom c ds (i + 1).toNat (dataPart c (i + 1) (dataLen ds)) := by
  have hlt : i.toNat < ds.length := by rwa [BitVec.lt_def, toNat_dataLen hl] at hi
  have hsucc : (i + 1).toNat = i.toNat + 1 := by bv_omega
  refine ⟨ds[i.toNat], List.getElem?_eq_getElem hlt, ?_⟩
  rw [bytesFrom_dataPart hl, bytesFrom, List.drop_eq_getElem_cons hlt, hsucc]
  rfl

end

theorem bytesFrom_endMarker {c : Cfg} {m : Byte} (hm : c.endMarker = some m) (ds : List Byte) (x y : Nat) :
    bytesFrom c ds x (some .endMarker) = m :: bytesFrom c ds y none := by
  show c.endMarker.toList = _
  rw [hm]
  rfl

/-! ### The first element -/

theorem zero_lt_count (l : LenBytes) : 0 < l.count := by cases l <;> decide

section
variable {c : Cfg} {ds : List Byte} (hk : sendLenOk c ds.length = true)
include hk

/-- In FIXED mode BLEN is the length from the start on. -/
theorem startLen_of_fixed (hb : c.blockMode = .fixed) : startLen c = dataLen ds := by
  have hlen : c.blockLen = some ds.length := by simpa [sendLenOk, hb] using hk
  rw [startLen, if_pos hb, hlen, dataLen, Option.getD_some]

/-- The element after a start marker does not depend on a length that is still to come. -/
theorem lenPart_startLen : lenPart c 0 0 (startLen c) = lenPart c 0 0 (dataLen ds) := by
  cases hb : c.blockMode with
  | fixed => rw [startLen_of_fixed hk hb]
  | prefixed =>
    have hfirst : c.blockMode = .prefixed ∧ 0 < c.lenBytes.count := ⟨hb, zero_lt_count _⟩
    rw [lenPart, lenPart, if_pos hfirst, if_pos hfirst]

theorem firstPart_startLen : firstPart c 0 (startLen c) = firstPart c 0 (dataLen ds) := by
  rw [firstPart, firstPart, lenPart_startLen hk]

end

end Sys2Proof.Machine
end

section
/-! SUPPORT. SBLK as a whole (spec/43_session.md R163): three micro-steps for each wire bit of each element, and the obligation about
the block. -/

namespace Sys2Proof.Machine

/-- BIDX after the running element. -/
def State.nextIdx (s : State) : BitVec 17 := if s.part = .data then s.bIdx + 1 else s.bIdx

/-- The element after the running one. -/
def State.nextElem (s : State) : Option Part := nextPart s.cfg s.part s.nextIdx s.bLen

theorem afterSentElem_of_some {s : State} {p : Part} (hp : s.nextElem = some p) :
    afterSentElem s = .yields { s with bIdx := s.nextIdx, part := p, seq := .elem } := by
  unfold State.nextElem State.nextIdx at hp
  unfold afterSentElem State.nextIdx
  by_cases hd : s.part = .data <;> simp_all [yieldAt]

theorem afterSentElem_of_none {s : State} (hp : s.nextElem = none) :
    afterSentElem s = .ret () { s with bIdx := s.nextIdx, sess := .idle } := by
  unfold State.nextElem State.nextIdx at hp
  unfold afterSentElem State.nextIdx
  by_cases hd : s.part = .data <;> simp_all [sendBlockDone]

/-- SBLK sends a block of `ds` and stands at an element of it. -/
structure SblkSends (ds : List Byte) (s : State) : Prop where
  dirs   : s.dir = enabledDirs
  opened : s.blockOpen
  bLen   : s.bLen = dataLen ds
  small  : ds.length < 2 ^ 17
  fits   : ds.length ≤ s.cfg.bufSize
  holds  : bufHolds s.buf ds

/-- The running element sends the first of the bytes that are left. -/
theorem SblkSends.elemByte_eq {ds : List Byte} {s : State} (h : SblkSends ds s) : ∃ v, elemByte s.part s = .ret v s ∧
    bytesFrom s.cfg ds s.bIdx.toNat (some s.part) = v :: bytesFrom s.cfg ds s.nextIdx.toNat s.nextElem := by
  obtain ⟨-, -, hp⟩ := h.opened
  rw [State.nextElem, h.bLen]
  cases he : s.part with
  | startMarker =>
    rw [he] at hp
    obtain ⟨hm, h0⟩ := hp
    obtain ⟨m, hm⟩ := Option.isSome_iff_exists.mp hm
    refine ⟨m, by simp [elemByte, hm], ?_⟩
    simp only [State.nextIdx, he, h0]
    exact bytesFrom_startMarker h.small hm _
  | lenByte j =>
    rw [he] at hp
    obtain ⟨hb, hj, h0⟩ := hp
    refine ⟨_, rfl, ?_⟩
    simp only [State.nextIdx, he, h0, h.bLen]
    exact bytesFrom_lenByte h.small hb hj _
  | data =>
    have hlt : s.bIdx < dataLen ds := h.bLen ▸ h.opened.data_lt he
    obtain ⟨b, hget, hbytes⟩ := bytesFrom_data (c := s.cfg) h.small hlt
    have hidx : s.bIdx.toNat < ds.length := by rwa [BitVec.lt_def, toNat_dataLen h.small] at hlt
    refine ⟨b, ?_, ?_⟩
    · rw [elemByte, memRead, if_pos (hidx.trans_le h.fits), h.holds _ hidx, hget]
    · rw [hbytes, State.nextIdx, if_pos he]
      rfl
  | endMarker =>
    rw [he] at hp
    obtain ⟨m, hm⟩ := Option.isSome_iff_exists.mp hp
    exact ⟨m, by simp [elemByte, hm], bytesFrom_endMarker hm ds _ _⟩

/-- The element after the running one exists in the layout. -/
theorem SblkSends.next {ds : List Byte} {s : State} (h : SblkSends ds s) {p : Part} (hp : s.nextElem = some p) :
    SblkSends ds { s with bIdx := s.nextIdx, part := p } := by
  refine ⟨h.dirs, ?_, h.bLen, h.small, h.fits, h.holds⟩
  rw [State.nextElem] at hp
  by_cases hd : s.part = .data
  · obtain ⟨hw, -, -⟩ := h.opened
    have hidx : s.nextIdx = s.bIdx + 1 := if_pos hd
    rw [hd, hidx] at hp
    rw [hidx]
    exact blockOpen_of_dataPart (s := { s with bIdx := s.bIdx + 1 }) hw (bIdx_succ_le (h.opened.data_lt hd)) hp
  · have hidx : s.nextIdx = s.bIdx := if_neg hd
    rw [hidx] at hp ⊢
    exact h.opened.next hd hp

/-- An element's first micro-step places the first bit of its byte. -/
theorem finish_sendElem {s : State} (hd : s.dir = enabledDirs) {v : Byte} (hv : elemByte s.part s = .ret v s) {b : Bit}
    {rest : List Bit} (hbits : wireBits s.cfg (v.setWidth 16) = b :: rest) (k : Unit → State → Micro Unit) :
    finish idleSess ((sendElem s).andThen k) = .next (bitPlaced b rest s) := by
  rw [sendElem, hv, Micro.andThen, hbits, sendBits_cons hd]
  rfl

theorem SblkSends.wireBits_ne_nil {ds : List Byte} {s : State} (h : SblkSends ds s) (v : BitVec 16) :
    wireBits s.cfg v ≠ [] := by
  obtain ⟨hw, -, -⟩ := h.opened
  exact Machine.wireBits_ne_nil (by omega) v

theorem SblkSends.elemBits_ne_nil {ds : List Byte} {s : State} (h : SblkSends ds s) :
    elemBits s.cfg (bytesFrom s.cfg ds s.bIdx.toNat (some s.part)) ≠ [] := by
  obtain ⟨v, -, hbytes⟩ := h.elemByte_eq
  rw [hbytes, elemBits_cons]
  exact List.append_ne_nil_of_left_ne_nil (h.wireBits_ne_nil _) _

/-- The micro-steps of one element, up to what follows its last bit. -/
theorem SblkSends.microSteps_elem {ds : List Byte} {s t : State} (h : SblkSends ds s) (hs : s.seq = .elem) (len : BitVec 16)
    {v : Byte} (hv : elemByte s.part s = .ret v s)
    (hend : finish idleSess (afterSentElem (wordSent (wireBits s.cfg (v.setWidth 16)) s)) = .next t) (n : Nat) :
    microSteps (.sblk len) (3 * (wireBits s.cfg (v.setWidth 16)).length + n) s = microSteps (.sblk len) n t := by
  obtain ⟨b, rest, hbits⟩ := List.exists_cons_of_ne_nil (h.wireBits_ne_nil (v.setWidth 16))
  have hresume : ∀ t : State, t.seq.isSend = true →
      exec (.sblk len) t = finish idleSess ((sendResume t).andThen fun _ u => afterSentElem u) := fun t ht =>
    execSblk_resume ht len
  have hplace : exec (.sblk len) s = .next (bitPlaced b rest s) :=
    (execSblk_elem hs len).trans (finish_sendElem h.dirs hv hbits _)
  rw [hbits] at hend ⊢
  exact microSteps_of_bitPlaced hresume h.dirs hplace hend n

/-- `s` after all micro-steps of an SBLK that had the bytes `bs` left to send. -/
def blockSent (bs : List Byte) (o : Bit) (x : BitVec 17) (p : Part) (s : State) : State :=
  complete { s with
    out    := { s.out with oclk := s.cfg.idle, odat := o }
    events := s.events ++ sendEvents s.cfg (elemBits s.cfg bs)
    bIdx   := x
    part   := p
    sess   := .idle }

/-- From an element on SBLK takes three micro-steps for each wire bit that is left, and completes. -/
theorem SblkSends.microSteps_block {ds : List Byte} {s : State} (h : SblkSends ds s) (hs : s.seq = .elem) (len : BitVec 16)
    {bs : List Byte} (hbs : bytesFrom s.cfg ds s.bIdx.toNat (some s.part) = bs) :
    ∃ o x p, microSteps (.sblk len) (3 * (elemBits s.cfg bs).length) s = .next (blockSent bs o x p s) := by
  induction bs generalizing s with
  | nil =>
    obtain ⟨v, -, hv⟩ := h.elemByte_eq
    exact absurd (hv.symm.trans hbs) nofun
  | cons v bs ih =>
    obtain ⟨v', hbyte, hv⟩ := h.elemByte_eq
    obtain ⟨rfl, hrest⟩ := List.cons.inj (hv.symm.trans hbs)
    rw [elemBits_cons, List.length_append, Nat.mul_add]
    cases hp : s.nextElem with
    | none =>
      rw [hp] at hrest
      obtain rfl : [] = bs := hrest
      have hafter := afterSentElem_of_none (s := wordSent (wireBits s.cfg (v'.setWidth 16)) s) hp
      refine ⟨(wireBits s.cfg (v'.setWidth 16)).getLastD s.out.odat, s.nextIdx, s.part,
        (h.microSteps_elem hs len hbyte (by rw [hafter]; rfl) _).trans ?_⟩
      simp only [blockSent, elemBits_cons, elemBits_nil, List.append_nil]
      rfl
    | some p =>
      rw [hp] at hrest
      have hafter := afterSentElem_of_some (s := wordSent (wireBits s.cfg (v'.setWidth 16)) s) hp
      rw [h.microSteps_elem hs len hbyte (by rw [hafter]; rfl)]
      obtain ⟨hd, ho, hl, hsmall, hfits, hbuf⟩ := h.next hp
      obtain ⟨o, x, p', hsent⟩ := ih
        (s := { wordSent (wireBits s.cfg (v'.setWidth 16)) s with bIdx := s.nextIdx, part := p, seq := .elem })
        ⟨hd, ho, hl, hsmall, hfits, hbuf⟩ rfl hrest
      refine ⟨o, x, p', hsent.trans ?_⟩
      simp only [blockSent, wordSent, elemBits_cons, sendEvents, List.flatMap_append, List.append_assoc]
      rfl

/-- An element's first micro-step overwrites the position it starts from. -/
theorem SblkSends.finish_sendElem_position {ds : List Byte} {s : State} (h : SblkSends ds s) (q : Seq)
    (k : Unit → State → Micro Unit) :
    finish idleSess ((sendElem s).andThen k) = finish idleSess ((sendElem { s with seq := q }).andThen k) := by
  have h' : SblkSends ds { s with seq := q } := ⟨h.dirs, h.opened, h.bLen, h.small, h.fits, h.holds⟩
  obtain ⟨v, hv, hbytes⟩ := h.elemByte_eq
  obtain ⟨v', hv', hbytes'⟩ := h'.elemByte_eq
  obtain ⟨rfl, -⟩ := List.cons.inj (hbytes.symm.trans hbytes')
  obtain ⟨b, rest, hbits⟩ := List.exists_cons_of_ne_nil (h.wireBits_ne_nil (v.setWidth 16))
  rw [finish_sendElem h.dirs hv hbits]
  exact (finish_sendElem (s := { s with seq := q }) h.dirs hv' hbits k).symm

theorem microSteps_of_exec_eq {i : Instr} {s t : State} (h : exec i s = exec i t) {n : Nat} (hn : n ≠ 0) :
    microSteps i n s = microSteps i n t := by
  obtain ⟨n, rfl⟩ := Nat.exists_eq_succ_of_ne_zero hn
  rw [microSteps, microSteps, h]

/-- `s` at the first element of a block of `ds`. -/
def blockBegun (ds : List Byte) (p : Part) (s : State) : State :=
  { s with bLen := dataLen ds, bIdx := 0, part := p, seq := .elem }

/-- Settles O48: the first micro-step is that of the first element of the block. -/
theorem sblkSendsTheBlock : Obligations.SblkSendsTheBlock := by
  unfold Obligations.SblkSendsTheBlock
  intro s len ds hwf ⟨ht, hd, hs⟩ hw ⟨hsize, _, hk⟩ hlen hbuf
  have hsmall : ds.length < 2 ^ 17 := by omega
  have hn : len.setWidth 17 = dataLen ds := by
    refine BitVec.eq_of_toNat_eq ?_
    rw [toNat_dataLen hsmall, hlen, BitVec.toNat_setWidth, Nat.mod_eq_of_lt (by omega)]
  obtain ⟨p, hp⟩ := exists_firstPart hwf
  rw [firstPart_startLen (hlen ▸ hk)] at hp
  have hopen : (blockBegun ds p s).blockOpen :=
    blockOpen_of_firstPart (s := { s with bLen := dataLen ds, bIdx := 0, seq := .elem }) hw rfl hp
  have h : SblkSends ds (blockBegun ds p s) := ⟨hd, hopen, rfl, hsmall, hlen ▸ hsize, hbuf⟩
  have hstart : exec (.sblk len) s = exec (.sblk len) (blockBegun ds p s) := by
    have hfirst := execSblk_start hs ht hw hsize hk (hn ▸ hp)
    rw [hn] at hfirst
    exact (hfirst.trans (h.finish_sendElem_position s.seq _).symm).trans (execSblk_elem rfl len).symm
  have hbytes : bytesFrom s.cfg ds 0 (some p) = blockBytes s.cfg ds := hp ▸ bytesFrom_firstPart hsmall
  have hne : elemBits s.cfg (blockBytes s.cfg ds) ≠ [] := hbytes ▸ h.elemBits_ne_nil
  have hpos : 3 * (blockBits s.cfg ds).length ≠ 0 :=
    Nat.mul_ne_zero (by decide) (List.length_pos_iff.mpr hne).ne'
  obtain ⟨o, x, p', hsent⟩ := h.microSteps_block rfl len hbytes
  exact ⟨_, (microSteps_of_exec_eq hstart hpos).trans hsent, rfl, rfl, ht.2, rfl, rfl, rfl, rfl, rfl, rfl, rfl, rfl, rfl,
    rfl, rfl, rfl⟩

end Sys2Proof.Machine
end

section
/-! SUPPORT. What RBLK does with the elements of a block it expects (spec/43_session.md R160, R165). -/

namespace Sys2Proof.Machine

/-- What RBLK has of the layout of a block of `ds` when `next` is the next element it takes: BLEN and the length bytes so far. -/
def LayoutAt (ds : List Byte) (s : State) : Option Part → Prop
  | some .startMarker => s.cfg.startMarker.isSome ∧ s.bIdx = 0 ∧ s.bLen = startLen s.cfg ∧ s.lenAcc = []
  | some (.lenByte j) =>
    s.cfg.blockMode = .prefixed ∧ j < s.cfg.lenBytes.count ∧ s.bIdx = 0 ∧ s.lenAcc = (lenPrefix s.cfg ds).take j
  | some .data => s.bLen = dataLen ds ∧ s.bIdx < s.bLen
  | some .endMarker => s.cfg.endMarker.isSome ∧ s.bLen = dataLen ds ∧ s.bIdx = s.bLen
  | none => s.bLen = dataLen ds ∧ s.bIdx = s.bLen

/-- The block RBLK receives: within its capacity, of a supported length, and with the data bytes before BIDX stored over `m`. -/
structure BlockArrives (cap : BitVec 16) (ds : List Byte) (m : Memory) (s : State) : Prop where
  len    : ds.length ≤ cap.toNat
  fits   : cap.toNat ≤ s.cfg.bufSize
  lenOk  : sendLenOk s.cfg ds.length = true
  stored : ∀ a, s.buf.read a = if a < s.bIdx.toNat then ds[a]? else m.read a

theorem BlockArrives.small {cap : BitVec 16} {ds : List Byte} {m : Memory} {s : State} (h : BlockArrives cap ds m s) :
    ds.length < 2 ^ 17 := by
  have := h.len
  omega

/-! ### The next element -/

theorem le_of_eq_zero {x n : BitVec 17} (h : x = 0) : x ≤ n := h ▸ Nat.zero_le n.toNat

section
variable {ds : List Byte} {s : State}

theorem layoutAt_dataPart (hl : s.bLen = dataLen ds) (hi : s.bIdx ≤ s.bLen) :
    LayoutAt ds s (dataPart s.cfg s.bIdx s.bLen) := by
  rw [dataPart]
  split
  next hlt => exact ⟨hl, hlt⟩
  next hlt =>
    have heq : s.bIdx = s.bLen := BitVec.le_antisymm hi (BitVec.not_lt.mp hlt)
    rw [endPart]
    split
    next hm => exact ⟨hm, hl, heq⟩
    next => exact ⟨hl, heq⟩

variable (hk : sendLenOk s.cfg ds.length = true) (h0 : s.bIdx = 0) (hl : s.bLen = startLen s.cfg) (hq : s.lenAcc = [])
include hk h0 hl hq

theorem layoutAt_lenPart : LayoutAt ds s (lenPart s.cfg 0 0 (startLen s.cfg)) := by
  rw [lenPart]
  split
  next h => exact ⟨h.1, h.2, h0, by rw [hq, List.take_zero]⟩
  next h =>
    have hfixed : s.cfg.blockMode = .fixed := by
      cases hb : s.cfg.blockMode with
      | fixed => rfl
      | prefixed => exact absurd ⟨hb, zero_lt_count _⟩ h
    rw [← h0, ← hl]
    exact layoutAt_dataPart (hl.trans (startLen_of_fixed hk hfixed)) (le_of_eq_zero h0)

theorem layoutAt_firstPart : LayoutAt ds s (firstPart s.cfg 0 (startLen s.cfg)) := by
  rw [firstPart]
  split
  next hm => exact ⟨hm, h0, hl, hq⟩
  next => exact layoutAt_lenPart hk h0 hl hq

end

/-! ### The elements, by their part -/

/-- Every element of the layout has its byte. -/
theorem LayoutAt.exists_byte {ds : List Byte} {s : State} (h : LayoutAt ds s (some s.part)) (hl : ds.length < 2 ^ 17) :
    ∃ v bs, bytesFrom s.cfg ds s.bIdx.toNat (some s.part) = v :: bs := by
  cases hp : s.part with
  | startMarker =>
    rw [hp] at h
    obtain ⟨m, hm⟩ := Option.isSome_iff_exists.mp h.1
    exact ⟨_, _, bytesFrom_startMarker hl hm _⟩
  | lenByte j =>
    rw [hp] at h
    obtain ⟨hb, hj, -⟩ := h
    exact ⟨_, _, bytesFrom_lenByte hl hb hj _⟩
  | data =>
    rw [hp] at h
    obtain ⟨b, -, hb⟩ := bytesFrom_data (c := s.cfg) hl (h.1 ▸ h.2)
    exact ⟨_, _, hb⟩
  | endMarker =>
    rw [hp] at h
    obtain ⟨m, hm⟩ := Option.isSome_iff_exists.mp h.1
    exact ⟨_, _, bytesFrom_endMarker hm ds _ 0⟩

theorem setWidth_setWidth_byte (v : Byte) : (v.setWidth 16 : BitVec 16).setWidth 8 = v := by
  rw [BitVec.setWidth_setWidth_of_le _ (by decide), BitVec.setWidth_eq]

section
variable {s : State} {v : Byte} (cap : Nat)

theorem acceptElem_startMarker (hp : s.part = .startMarker) (hm : s.cfg.startMarker = some v) :
    acceptElem cap (v.setWidth 16) s = recvNextElem (lenPart s.cfg 0 s.bIdx s.bLen) s := by
  simp only [acceptElem, hp, setWidth_setWidth_byte, require_andThen, decide_eq_true hm, if_true, nextPart]

theorem acceptElem_lenByte {j : Nat} (hp : s.part = .lenByte j) :
    acceptElem cap (v.setWidth 16) s = acceptLenByte cap j v s := by
  simp only [acceptElem, hp, setWidth_setWidth_byte]

theorem acceptElem_data (hp : s.part = .data) (hs : s.bIdx.toNat < s.cfg.bufSize) :
    acceptElem cap (v.setWidth 16) s = recvNextElem (dataPart s.cfg (s.bIdx + 1) s.bLen)
      { s with bIdx := s.bIdx + 1, buf := s.buf.write s.bIdx.toNat v } := by
  have hstore : memWrite s.bIdx.toNat v s = .ret () { s with buf := s.buf.write s.bIdx.toNat v } := if_pos hs
  simp only [acceptElem, hp, setWidth_setWidth_byte, hstore, Micro.andThen, nextPart]

theorem acceptElem_endMarker (hp : s.part = .endMarker) (hm : s.cfg.endMarker = some v) :
    acceptElem cap (v.setWidth 16) s = recvNextElem none s := by
  simp only [acceptElem, hp, setWidth_setWidth_byte, require_andThen, decide_eq_true hm, if_true]

theorem acceptLenByte_of_lt {j : Nat} (hj : j + 1 < s.cfg.lenBytes.count) :
    acceptLenByte cap j v s = recvNextElem (some (.lenByte (j + 1))) { s with lenAcc := s.lenAcc ++ [v] } := if_pos hj

/-- The last length byte fixes BLEN when the length is within the capacity. -/
theorem acceptLenByte_of_last {j n : Nat} (hj : ¬ j + 1 < s.cfg.lenBytes.count)
    (hn : assembleLen s.cfg (s.lenAcc ++ [v]) = n) (hcap : n ≤ cap) :
    acceptLenByte cap j v s = recvNextElem (dataPart s.cfg s.bIdx (BitVec.ofNat 17 n))
      { s with lenAcc := s.lenAcc ++ [v], bLen := BitVec.ofNat 17 n } := by
  simp only [acceptLenByte, hj, if_false, require_andThen, hn, decide_eq_true hcap, if_true]

end

/-- RBLK in `s` takes `v` as the running element of the block, after which the bytes `bs` are left. -/
def TakesElem (cap : BitVec 16) (ds : List Byte) (m : Memory) (s : State) (v : Byte) (bs : List Byte) : Prop :=
  ∃ x n q b next, acceptElem cap.toNat (v.setWidth 16) s =
      recvNextElem next { s with bIdx := x, bLen := n, lenAcc := q, buf := b }
    ∧ BlockArrives cap ds m { s with bIdx := x, bLen := n, lenAcc := q, buf := b }
    ∧ LayoutAt ds { s with bIdx := x, bLen := n, lenAcc := q, buf := b } next
    ∧ bytesFrom s.cfg ds x.toNat next = bs

/-- The length bytes assemble to the length. -/
theorem assembleLen_lenPrefix {c : Cfg} {ds : List Byte} (hb : c.blockMode = .prefixed)
    (hk : sendLenOk c ds.length = true) : assembleLen c (lenPrefix c ds) = ds.length := by
  have hlen : ds.length < 2 ^ (8 * c.lenBytes.count) := by simpa [sendLenOk, hb] using hk
  rw [lenPrefix, if_pos hb]
  exact lengthBytesRoundTrip c ds.length hlen

section
variable {cap : BitVec 16} {ds : List Byte} {m : Memory} {s : State} (h : BlockArrives cap ds m s)
  (hl : LayoutAt ds s (some s.part))
include h hl

theorem BlockArrives.takes_startMarker (hp : s.part = .startMarker) {v : Byte} {bs : List Byte}
    (hb : bytesFrom s.cfg ds s.bIdx.toNat (some .startMarker) = v :: bs) : TakesElem cap ds m s v bs := by
  rw [hp] at hl
  obtain ⟨hm, h0, hlen, hq⟩ := hl
  obtain ⟨mk, hm⟩ := Option.isSome_iff_exists.mp hm
  obtain ⟨rfl, rfl⟩ := List.cons.inj ((bytesFrom_startMarker h.small hm _).symm.trans hb)
  have haccept := acceptElem_startMarker cap.toNat hp hm
  rw [h0, hlen] at haccept
  refine ⟨s.bIdx, s.bLen, s.lenAcc, s.buf, _, haccept, h, layoutAt_lenPart h.lenOk h0 hlen hq, ?_⟩
  rw [lenPart_startLen h.lenOk, h0]
  rfl

theorem BlockArrives.takes_lenByte {j : Nat} (hp : s.part = .lenByte j) {v : Byte} {bs : List Byte}
    (hb : bytesFrom s.cfg ds s.bIdx.toNat (some (.lenByte j)) = v :: bs) : TakesElem cap ds m s v bs := by
  rw [hp] at hl
  obtain ⟨hmode, hj, h0, hq⟩ := hl
  obtain ⟨rfl, rfl⟩ := List.cons.inj ((bytesFrom_lenByte h.small hmode hj _).symm.trans hb)
  have hacc : s.lenAcc ++ [lenByte s.cfg (dataLen ds) j] = (lenPrefix s.cfg ds).take (j + 1) := by
    rw [List.take_add_one, ← hq]
    simp [lenPrefix, hmode, hj, dataLen]
  by_cases hlast : j + 1 < s.cfg.lenBytes.count
  · refine ⟨s.bIdx, s.bLen, _, s.buf, _, (acceptElem_lenByte _ hp).trans (acceptLenByte_of_lt _ hlast),
      ⟨h.len, h.fits, h.lenOk, h.stored⟩, ⟨hmode, hlast, h0, hacc⟩, ?_⟩
    rw [lenPart, if_pos ⟨hmode, hlast⟩]
    rfl
  · have hall : (lenPrefix s.cfg ds).take (j + 1) = lenPrefix s.cfg ds :=
      List.take_of_length_le (by rw [lenPrefix_length hmode]; omega)
    have hlen : assembleLen s.cfg (s.lenAcc ++ [lenByte s.cfg (dataLen ds) j]) = ds.length := by
      rw [hacc, hall, assembleLen_lenPrefix hmode h.lenOk]
    refine ⟨s.bIdx, dataLen ds, _, s.buf, _, (acceptElem_lenByte _ hp).trans (acceptLenByte_of_last _ hlast hlen h.len),
      ⟨h.len, h.fits, h.lenOk, h.stored⟩, ?_, ?_⟩
    · exact layoutAt_dataPart (s := { s with bLen := dataLen ds, lenAcc := _ }) rfl (le_of_eq_zero h0)
    · rw [lenPart, if_neg fun hn => hlast hn.2, h0]
      rfl

theorem BlockArrives.takes_data (hp : s.part = .data) {v : Byte} {bs : List Byte}
    (hb : bytesFrom s.cfg ds s.bIdx.toNat (some .data) = v :: bs) : TakesElem cap ds m s v bs := by
  rw [hp] at hl
  obtain ⟨hlen, hlt⟩ := hl
  obtain ⟨b, hget, hbytes⟩ := bytesFrom_data (c := s.cfg) h.small (hlen ▸ hlt)
  obtain ⟨rfl, rfl⟩ := List.cons.inj (hbytes.symm.trans hb)
  have hidx : s.bIdx.toNat < ds.length := by rwa [hlen, BitVec.lt_def, toNat_dataLen h.small] at hlt
  have hsize : s.bIdx.toNat < s.cfg.bufSize := hidx.trans_le (h.len.trans h.fits)
  have hsucc : (s.bIdx + 1).toNat = s.bIdx.toNat + 1 := by
    have := h.small
    bv_omega
  refine ⟨s.bIdx + 1, s.bLen, s.lenAcc, s.buf.write s.bIdx.toNat b, _, acceptElem_data _ hp hsize,
    ⟨h.len, h.fits, h.lenOk, fun a => ?_⟩,
    layoutAt_dataPart (s := { s with bIdx := s.bIdx + 1, buf := _ }) hlen (bIdx_succ_le hlt), by rw [hlen]⟩
  show (s.buf.write s.bIdx.toNat b).read a = if a < (s.bIdx + 1).toNat then ds[a]? else m.read a
  rw [Memory.read_write, h.stored, hsucc]
  obtain hlt | rfl | hgt := Nat.lt_trichotomy a s.bIdx.toNat
  · rw [if_neg hlt.ne, if_pos hlt, if_pos (by omega)]
  · rw [if_pos rfl, if_pos (by omega), hget]
  · rw [if_neg hgt.ne', if_neg (by omega), if_neg (by omega)]

theorem BlockArrives.takes_endMarker (hp : s.part = .endMarker) {v : Byte} {bs : List Byte}
    (hb : bytesFrom s.cfg ds s.bIdx.toNat (some .endMarker) = v :: bs) : TakesElem cap ds m s v bs := by
  rw [hp] at hl
  obtain ⟨hm, hlen, hidx⟩ := hl
  obtain ⟨mk, hm⟩ := Option.isSome_iff_exists.mp hm
  obtain ⟨rfl, rfl⟩ := List.cons.inj ((bytesFrom_endMarker hm ds _ 0).symm.trans hb)
  exact ⟨s.bIdx, s.bLen, s.lenAcc, s.buf, none, acceptElem_endMarker _ hp hm, h, ⟨hlen, hidx⟩, rfl⟩

/-- RBLK takes the element the layout has next. -/
theorem BlockArrives.takesElem {v : Byte} {bs : List Byte}
    (hb : bytesFrom s.cfg ds s.bIdx.toNat (some s.part) = v :: bs) : TakesElem cap ds m s v bs := by
  cases hp : s.part with
  | startMarker => exact h.takes_startMarker hl hp (hp ▸ hb)
  | lenByte j => exact h.takes_lenByte hl hp (hp ▸ hb)
  | data => exact h.takes_data hl hp (hp ▸ hb)
  | endMarker => exact h.takes_endMarker hl hp (hp ▸ hb)

end

end Sys2Proof.Machine
end

section
/-! SUPPORT. RBLK while the peer presents a block (spec/43_session.md R165, R167): one element, the elements of a block, and the
obligation about it. -/

namespace Sys2Proof.Machine

/-- The run from `s` begins with the step it would make from `u`. -/
theorem Plays.of_step_eq {s u t : State} (h : step s = step u) (ha : s.agenda = u.agenda) (hp : Plays u t) (hne : u ≠ t) :
    Plays s t := by
  obtain ⟨ms, hms, hsteps⟩ := hp
  cases ms with
  | nil => exact absurd (Host.Outcome.next.inj hsteps) hne
  | cons m ms => exact ⟨m :: ms, ha.trans hms, (steps_of_step_eq h (Nat.succ_pos _)).trans hsteps⟩

/-- Two positions at which a command makes the same first poll of a RecvBit have the same step. -/
theorem Receives.step_eq {i : Instr} {s t u : State} {ms : List Move} {q : Seq} (hs : Receives i s) (ht : Receives i t)
    (has : s.agenda = .block :: ms) (hat : t.agenda = .block :: ms) (hps : PollsFrom i { s with agenda := ms } u)
    (hpt : PollsFrom i { t with agenda := ms } { u with seq := q }) (hd : u.dir = s.dir) (hn : u.phase = .waitIdle)
    (hb : u.cfg.timeout ≠ some (u.pollCnt + 1)) : step s = step t := by
  obtain ⟨-, hws, hes, his, hdirs⟩ := hs
  obtain ⟨-, hwt, het, hit, -⟩ := ht
  have hinp : u.dir.iclk = .inp := by
    rw [hd, hdirs]
    rfl
  rw [step_of_block hws hes his has, step_of_block hwt het hit hat, hps.next_of_below hinp (.inl hn) hb]
  exact (hpt.next_of_below hinp (.inl hn) hb).symm

/-- The block's turn, and then the peer sets ICLK. -/
theorem plays_turn_iclk {i : Instr} {s t : State} {v : Bit} {ms : List Move} (hw : s.cfg.wf = true) (he : s.blockEnabled)
    (hi : decode s.cur = .ok i) (ha : s.agenda = .block :: .peer .iclk v :: ms)
    (h : exec i { s with agenda := .peer .iclk v :: ms } = .next t) :
    ∃ ev, Plays s { t with agenda := ms, extClk := v, events := ev } := by
  obtain ⟨hc, -, -, -, hms, -⟩ := commandsLeaveTheEnvironmentAlone i _ t h
  obtain ⟨ev, hclock⟩ := plays_iclk (s := t) (hc ▸ hw) hms
  exact ⟨ev, (plays_turn hw he hi ha h).trans hclock⟩

/-- RBLK runs in T0 and receives a block of `ds`. -/
structure RblkTakes (cap : BitVec 16) (ds : List Byte) (m : Memory) (s : State) : Prop extends BlockArrives cap ds m s where
  receives : Receives (.rblk cap) s
  t0       : s.t0
  width    : s.cfg.width = 8

/-- RBLK has completed with the block of `ds`, over a buffer that was `m`. -/
structure RblkEnded (ds : List Byte) (m : Memory) (s : State) : Prop where
  busy     : s.busy = false
  err      : s.err = 0
  res      : s.res = BitVec.ofNat 32 ds.length
  sess     : s.sess = .idle
  resync   : s.resync = false
  unmarked : s.unmarked
  holds    : bufHolds s.buf ds
  others   : ∀ a, ds.length ≤ a → s.buf.read a = m.read a

/-- RBLK is at the element before the bytes `bs` of the block, and the peer's clock is idle. -/
structure RblkAtElem (cap : BitVec 16) (ds : List Byte) (m : Memory) (bs : List Byte) (s : State) : Prop extends
    RblkTakes cap ds m s where
  elem   : s.seq = .elem
  clock  : s.extClk = s.cfg.idle
  layout : LayoutAt ds s (some s.part)
  bytes  : bytesFrom s.cfg ds s.bIdx.toNat (some s.part) = bs

/-- From `s` the run comes to `t` with the schedule `ms` left: with no bytes left the block is received, else RBLK is at the element
before them. -/
structure PlaysElem (cap : BitVec 16) (ds : List Byte) (m : Memory) (bs : List Byte) (ms : List Move) (s t : State) : Prop where
  plays  : Plays s t
  agenda : t.agenda = ms
  cfg    : t.cfg = s.cfg
  out    : t.out = s.out
  dir    : t.dir = s.dir
  result : (bs = [] ∧ RblkEnded ds m t) ∨ RblkAtElem cap ds m bs t

theorem setWidth_dataLen {ds : List Byte} (hl : ds.length < 2 ^ 17) : (dataLen ds).setWidth 32 = BitVec.ofNat 32 ds.length := by
  refine BitVec.eq_of_toNat_eq ?_
  rw [BitVec.toNat_setWidth, toNat_dataLen hl, BitVec.toNat_ofNat]

/-- The first poll of an element. -/
theorem pollsFrom_of_elem {s : State} (hs : s.seq = .elem) (cap : BitVec 16) :
    PollsFrom (.rblk cap) s { s with sr := 0, bitCnt := 0, phase := .waitIdle, pollCnt := 0 } :=
  .of_word (execRblk_elem hs cap) rfl

section
variable {cap : BitVec 16} {ds : List Byte} {m : Memory} {s : State} (h : RblkTakes cap ds m s)
include h

/-- At an element RBLK calls RecvBit for the first bit of a word. -/
theorem RblkTakes.step_elem (hs : s.seq = .elem) {ms : List Move} (ha : s.agenda = .block :: ms)
    (hb : s.cfg.timeout ≠ some 1) : step s = step { s with seq := .recvBit, sr := 0, bitCnt := 0 } := by
  have helem := pollsFrom_of_elem (s := { s with agenda := ms }) hs cap
  have hcall := Receives.pollsFrom_recvBit (i := .rblk cap) (s := { s with agenda := ms, seq := .recvBit, sr := 0, bitCnt := 0 })
    h.receives rfl
  exact Receives.step_eq (t := { s with seq := .recvBit, sr := 0, bitCnt := 0 }) h.receives h.receives ha ha helem hcall
    rfl rfl hb

/-- The stored bytes of a block that has arrived. -/
theorem RblkTakes.stored_all (hn : s.bLen = dataLen ds) (hx : s.bIdx = s.bLen) :
    bufHolds s.buf ds ∧ ∀ a, ds.length ≤ a → s.buf.read a = m.read a := by
  have hidx : s.bIdx.toNat = ds.length := by rw [hx, hn, toNat_dataLen h.small]
  refine ⟨fun a ha => ?_, fun a ha => ?_⟩
  · rw [h.stored, hidx, if_pos ha]
  · rw [h.stored, hidx, if_neg (Nat.not_lt.mpr ha)]

/-- After the last element RBLK completes. -/
theorem RblkTakes.ended (hl : LayoutAt ds s none) :
    RblkEnded ds m (complete { s with sess := .idle, res := s.bLen.setWidth 32 }) := by
  obtain ⟨hn, hx⟩ := hl
  obtain ⟨hholds, hothers⟩ := h.stored_all hn hx
  obtain ⟨-, -, ⟨-, hmarks⟩, -⟩ := h.receives
  obtain ⟨-, hresync⟩ := h.t0
  refine ⟨rfl, rfl, ?_, rfl, hresync, hmarks, hholds, hothers⟩
  show s.bLen.setWidth 32 = _
  rw [hn, setWidth_dataLen h.small]

/-- RBLK at the poll that ends the word of an element it expects: it takes the element, and the peer returns its clock to IDLE. -/
theorem RblkTakes.plays_lastPoll (hl : LayoutAt ds s (some s.part)) {v : Byte} {bs : List Byte}
    (hb : bytesFrom s.cfg ds s.bIdx.toNat (some s.part) = v :: bs) (hword : completesWord s (v.setWidth 16)) {ms : List Move}
    (ha : s.agenda = .block :: .peer .iclk s.cfg.idle :: ms) : ∃ t, PlaysElem cap ds m bs ms s t := by
  obtain ⟨hrblk, hw, he, hi, hd⟩ := h.receives
  obtain ⟨k, hexec⟩ := exec_rblk_of_word (cap := cap) (s := { s with agenda := .peer .iclk s.cfg.idle :: ms }) hw hd hword
  obtain ⟨x, l, q, b, next, haccept, harr, hlayout, hbytes⟩ := BlockArrives.takesElem
    (s := wordTaken (v.setWidth 16) k { s with agenda := .peer .iclk s.cfg.idle :: ms })
    ⟨h.len, h.fits, h.lenOk, h.stored⟩ hl hb
  rw [haccept] at hexec
  have htakes : RblkTakes cap ds m { wordTaken (v.setWidth 16) k { s with agenda := .peer .iclk s.cfg.idle :: ms } with
      bIdx := x, bLen := l, lenAcc := q, buf := b } := ⟨harr, ⟨hrblk, hw, he, hi, hd⟩, h.t0, h.width⟩
  cases next with
  | some p =>
    obtain ⟨ev, hplays⟩ := plays_turn_iclk hw he hi ha hexec
    refine ⟨_, hplays, rfl, rfl, rfl, rfl, .inr ⟨?_, rfl, rfl, hlayout, hbytes⟩⟩
    exact ⟨⟨harr.len, harr.fits, harr.lenOk, harr.stored⟩, ⟨hrblk, hw, he, hi, hd⟩, h.t0, h.width⟩
  | none =>
    obtain ⟨ev, hplays⟩ := plays_turn_iclk hw he hi ha hexec
    obtain ⟨hbusy, herr, hres, hsess, hresync, hmarks, hholds, hothers⟩ := htakes.ended hlayout
    exact ⟨_, hplays, rfl, rfl, rfl, rfl, .inl ⟨hbytes.symm, hbusy, herr, hres, hsess, hresync, hmarks, hholds, hothers⟩⟩

end

section
variable {cap : BitVec 16} {ds : List Byte} {m : Memory} {s : State}

/-- While the peer presents the wire bits of the element the layout has next, RBLK takes it. -/
theorem RblkAtElem.plays_elem {v : Byte} {bs : List Byte} (h : RblkAtElem cap ds m (v :: bs) s) {bits : List (Bit × Nat)}
    (hbits : bits.map Prod.fst = wireBits s.cfg (v.setWidth 16)) (hp : patient s.cfg bits) {ms : List Move}
    (ha : s.agenda = bitsMoves s.cfg bits ++ ms) : ∃ t, PlaysElem cap ds m bs ms s t := by
  have hv : (v.setWidth 16 : BitVec 16).toNat < 2 ^ s.cfg.width := by
    rw [h.width]
    bv_omega
  have hne : bits ≠ [] := by
    rintro rfl
    exact wireBits_ne_nil (width_of_wf h.receives.wf).1 _ hbits.symm
  obtain ⟨⟨b, n⟩, rest, rfl⟩ := List.exists_cons_of_ne_nil hne
  have hfirst : s.cfg.timeout ≠ some 1 := fun h1 => absurd (hp _ List.mem_cons_self _ h1) (by omega)
  have hcall := h.step_elem h.elem ha hfirst
  obtain ⟨t, hplays, hword, r, n', d, p, ev, rfl⟩ := Receives.plays_wordEnds
    (s := { s with seq := .recvBit, sr := 0, bitCnt := 0 }) h.receives hv rfl h.clock (partialWord_zero hv).symm rfl hne hbits hp
    ha
  have hplays := Plays.of_step_eq hcall rfl hplays fun he => nomatch congrArg State.seq he
  obtain ⟨u, hlast, hms, hcfg, hout, hdir, hresult⟩ := RblkTakes.plays_lastPoll
    (s := ({ s with sr := r, bitCnt := n' } : State).awaiting _ s.cfg.active d p ev)
    ⟨⟨h.len, h.fits, h.lenOk, h.stored⟩, h.receives, h.t0, h.width⟩ h.layout h.bytes hword rfl
  exact ⟨u, hplays.trans hlast, hms, hcfg, hout, hdir, hresult⟩

theorem RblkAtElem.elemBits_ne_nil {bs : List Byte} (h : RblkAtElem cap ds m bs s) : elemBits s.cfg bs ≠ [] := by
  obtain ⟨v, bs', hv⟩ := h.layout.exists_byte h.small
  rw [← h.bytes, hv, elemBits_cons]
  exact List.append_ne_nil_of_left_ne_nil (wireBits_ne_nil (width_of_wf h.receives.wf).1 _) _

/-- While the peer presents the wire bits of the elements that are left, RBLK comes to its end. -/
theorem RblkAtElem.plays_block {bs : List Byte} (h : RblkAtElem cap ds m bs s) {bits : List (Bit × Nat)}
    (hbits : bits.map Prod.fst = elemBits s.cfg bs) (hp : patient s.cfg bits) (ha : s.agenda = bitsMoves s.cfg bits) :
    ∃ t, Plays s t ∧ t.agenda = [] ∧ RblkEnded ds m t ∧ t.out = s.out ∧ t.dir = s.dir := by
  induction bs generalizing s bits with
  | nil =>
    obtain ⟨v, bs, hv⟩ := h.layout.exists_byte h.small
    exact absurd (hv.symm.trans h.bytes) nofun
  | cons v bs ih =>
    rw [elemBits_cons, List.map_eq_append_iff] at hbits
    obtain ⟨bits₁, bits₂, rfl, hbits₁, hbits₂⟩ := hbits
    rw [bitsMoves, List.flatMap_append] at ha
    obtain ⟨t, hplays, hms, hcfg, hout, hdir, ⟨rfl, hend⟩ | hmore⟩ :=
      h.plays_elem hbits₁ (fun q hq => hp q (List.mem_append_left _ hq)) ha
    · obtain rfl : bits₂ = [] := List.map_eq_nil_iff.mp hbits₂
      exact ⟨t, hplays, hms, hend, hout, hdir⟩
    · rw [← hcfg] at hbits₂ hms
      obtain ⟨u, hrest, hnil, hend, hout', hdir'⟩ :=
        ih hmore hbits₂ (fun q hq => hcfg ▸ hp q (List.mem_append_right _ hq)) hms
      exact ⟨u, hplays.trans hrest, hnil, hend, hout'.trans hout, hdir'.trans hdir⟩

end

/-- `s` at the first element of the block RBLK receives. -/
def rblkBegun (p : Part) (s : State) : State :=
  { s with bLen := startLen s.cfg, bIdx := 0, lenAcc := [], part := p, seq := .elem }

/-- From T0 RBLK begins as at its first element. -/
theorem step_rblk_start {cap : BitVec 16} {s : State} (h : Receives (.rblk cap) s) (hs : s.seq = .start) (ht : s.t0)
    (hw : s.cfg.width = 8) (hl : cap.toNat ≤ s.cfg.bufSize) (hk : recvLenOk s.cfg cap.toNat = true) {p : Part}
    (hp : firstPart s.cfg 0 (startLen s.cfg) = some p) {ms : List Move} (ha : s.agenda = .block :: ms)
    (hb : s.cfg.timeout ≠ some 1) : step s = step (rblkBegun p s) := by
  have hstart : PollsFrom (.rblk cap) { s with agenda := ms } { rblkBegun p s with
      agenda := ms, sr := 0, bitCnt := 0, phase := .waitIdle, pollCnt := 0, seq := s.seq } :=
    .of_word (execRblk_start (s := { s with agenda := ms }) hs ht hw hl hk hp) rfl
  have helem := pollsFrom_of_elem (s := { rblkBegun p s with agenda := ms }) rfl cap
  exact Receives.step_eq (t := rblkBegun p s) h h ha ha hstart helem rfl rfl hb

/-- A capacity that holds a supported length passes RBLK's check. -/
theorem recvLenOk_of_le {c : Cfg} {n k : Nat} (hk : sendLenOk c n = true) (hn : n ≤ k) : recvLenOk c k = true := by
  cases hb : c.blockMode with
  | fixed =>
    have hlen : c.blockLen = some n := by simpa [sendLenOk, hb] using hk
    simp [recvLenOk, hb, hlen, hn]
  | prefixed => simp [recvLenOk, hb]

/-- Settles O51: RBLK takes the elements of the block one after the other, the first of them from its first micro-step on. -/
theorem rblkReceivesTheBlockThePeerPresents : Obligations.RblkReceivesTheBlockThePeerPresents := by
  unfold Obligations.RblkReceivesTheBlockThePeerPresents
  intro s cap ds bits hwf he ⟨ht, hd, hs⟩ hw hcur hc hsize hlen hk hbits hpat ha
  have h : Receives (.rblk cap) s := ⟨.inr ⟨cap, rfl⟩, hwf, he, by rw [hcur, decode_encode], hd⟩
  have hsmall : ds.length < 2 ^ 17 := by omega
  obtain ⟨p, hp⟩ := exists_firstPart hwf
  have hlayout : LayoutAt ds (rblkBegun p s) (some p) := hp ▸ layoutAt_firstPart (s := rblkBegun p s) hk rfl rfl rfl
  have hbytes : bytesFrom s.cfg ds 0 (some p) = blockBytes s.cfg ds := by
    rw [← hp, firstPart_startLen hk, bytesFrom_firstPart hsmall]
  have hbegun : RblkAtElem cap ds s.buf (blockBytes s.cfg ds) (rblkBegun p s) :=
    ⟨⟨⟨hlen, hsize, hk, fun a => by simp [rblkBegun]⟩, h, ht, hw⟩, rfl, hc, hlayout, hbytes⟩
  obtain ⟨t, hplays, hnil, hend, hout, hdir⟩ := hbegun.plays_block hbits hpat ha
  have hne : bits ≠ [] := by
    rintro rfl
    exact hbegun.elemBits_ne_nil hbits.symm
  obtain ⟨⟨b, n⟩, rest, rfl⟩ := List.exists_cons_of_ne_nil hne
  have hfirst : s.cfg.timeout ≠ some 1 := fun h1 => absurd (hpat _ List.mem_cons_self _ h1) (by omega)
  have hstart := step_rblk_start h hs ht hw hsize (recvLenOk_of_le hk hlen) hp ha hfirst
  have hmoved : rblkBegun p s ≠ t := by
    rintro rfl
    exact absurd (he.1.symm.trans hend.busy) nofun
  have hall := (Plays.of_step_eq hstart rfl hplays hmoved).steps hnil
  exact ⟨t, hall, hend.busy, hend.err, hend.res, hend.sess, hend.resync, hend.unmarked, hend.holds, hend.others, hout, hdir⟩

end Sys2Proof.Machine
end

section
/-! SUPPORT. BUFW and BUFR at an address inside the buffer (spec/44_buffer_access.md R180, R181) and the obligations about them. -/

namespace Sys2Proof.Machine

section
variable {s : State} {a : BitVec 16} (ha : a.toNat < s.cfg.bufSize)
include ha

theorem execBufw_of_lt (d : Byte) :
    execBufw a d s = .next (complete { s with buf := s.buf.write a.toNat d }) := by
  rw [execBufw, require_andThen, if_pos (decide_eq_true ha), memWrite, if_pos ha, finish]

/-- Past its range check BUFR puts the byte it reads in RES. -/
theorem execBufr_of_lt :
    execBufr a s =
      finish keepSess ((memRead a.toNat s).andThen fun v s => .ret () { s with res := v.setWidth 32 }) := by
  rw [execBufr, require_andThen, if_pos (decide_eq_true ha)]

theorem execBufr_of_read {v : Byte} (hv : s.buf.read a.toNat = some v) :
    execBufr a s = .next (complete { s with res := v.setWidth 32 }) := by
  rw [execBufr_of_lt ha, memRead, if_pos ha, hv, Micro.andThen, finish]

theorem execBufr_of_unwritten (hn : s.buf.read a.toNat = none) :
    execBufr a s = .next (setMfault .uninitRead s) := by
  rw [execBufr_of_lt ha, memRead, if_pos ha, hn, Micro.andThen, finish]

end

/-- Settles O54: BUFW completes on the written buffer, which reads as before at every other address. -/
theorem bufwWritesItsByte : Obligations.BufwWritesItsByte := by
  unfold Obligations.BufwWritesItsByte
  intro s a d ha
  refine ⟨?_, Memory.read_write_self _ _ _, fun b hb => Memory.read_write_other _ d hb⟩
  rw [exec, execBufw_of_lt ha, complete, record]

/-- Settles O55: BUFR completes with the byte it reads, and an unwritten byte sets the first mark. -/
theorem bufrReadsItsByte : Obligations.BufrReadsItsByte := by
  unfold Obligations.BufrReadsItsByte
  intro s a ha
  refine ⟨fun v hv => ?_, fun hn hm => ?_⟩
  · rw [exec, execBufr_of_read ha hv, complete, record]
  · rw [exec, execBufr_of_unwritten ha hn, setMfault_of_unmarked hm]

end Sys2Proof.Machine
end

section
/-! SUPPORT. The file-level commands (spec/45_file_level.md R190 to R193), whose micro-step only sets a mark, and the obligation
about them. -/

namespace Sys2Proof.Machine

theorem setRefused_of_unmarked {s : State} (h : s.refused = none) (r : RefuseReason) :
    setRefused r s = { s with refused := some r } := by
  rw [setRefused, h, Option.none_or]

theorem exec_of_fileLevel {i : Instr} (h : fileLevel i = true) (s : State) :
    exec i s = .next (setRefused .fileLevelOp s) := by
  cases i with
  | reqfl | listf | sendf | retrf => rfl
  | _ => cases h

/-- Settles O56: the command's micro-step sets the first mark, and that mark is the stop of the block's next turn. -/
theorem fileLevelCommandsAreRefused : Obligations.FileLevelCommandsAreRefused := by
  unfold Obligations.FileLevelCommandsAreRefused
  intro i s hi hr
  refine ⟨?_, fun hw ha hm => ?_⟩
  · rw [exec_of_fileLevel hi, setRefused_of_unmarked hr]
  · obtain ⟨-, -, refusedStops⟩ := markedBlockTakesNoMicroStep { s with refused := some .fileLevelOp } [] hw (.inl ha)
    exact refusedStops .fileLevelOp hm rfl

end Sys2Proof.Machine
end

section
/-! SUPPORT. The steps of the block and of the peer (spec/60_exceptions.md R220, R221, R223) and the obligations about them. -/

namespace Sys2Proof.Machine

/-- Settles O5: the block's turn, free or scheduled, is the micro-step of the decoded command. -/
theorem stepRunsTheDecodedCommand : Obligations.StepRunsTheDecodedCommand := by
  unfold Obligations.StepRunsTheDecodedCommand
  intro s i hw he hi
  refine ⟨fun ha => ?_, fun ms ha => step_of_block hw he hi ha⟩
  rw [step_of_blockEnabled hw ha he, microStep, hi]

theorem peerStep_iclk (v : Bit) (s : State) :
    peerStep .iclk v s =
      { s with extClk := v, events := s.events ++ (if s.extClk = v then [] else [.ext .iclk v]) } := by
  by_cases h : s.extClk = v
  · rw [peerStep, if_pos h, if_pos h, List.append_nil, ← h]
  · rw [peerStep, if_neg h, if_neg h, record]

theorem peerStep_idat (v : Bit) (s : State) :
    peerStep .idat v s =
      { s with extDat := v, events := s.events ++ (if s.extDat = v then [] else [.ext .idat v]) } := by
  by_cases h : s.extDat = v
  · rw [peerStep, if_pos h, if_pos h, List.append_nil, ← h]
  · rw [peerStep, if_neg h, if_neg h, record]

/-- Settles O57: a peer move at the head of the schedule is the peer's step on its line. -/
theorem peerStepSetsItsLine : Obligations.PeerStepSetsItsLine := by
  unfold Obligations.PeerStepSetsItsLine
  intro s v ms hw
  refine ⟨fun ha => ?_, fun ha => ?_⟩
  · rw [step_of_agenda_cons hw ha, perform, peerStep_iclk]
  · rw [step_of_agenda_cons hw ha, perform, peerStep_idat]

end Sys2Proof.Machine
end

section
/-! SUPPORT. UsageError (spec/60_exceptions.md R205, R206): a command in a session state where it is not legal, an operand beyond
the block buffer, and the obligations about them. -/

namespace Sys2Proof.Machine

/-! ### A raise and the checks that make one -/

theorem fatalExit_fatalEffect {e : Err} (he : e.recoverable = false) (s : State) : FatalEffect e s (fatalExit e s) :=
  raiseExit_fatal he s.sess s ▸ raiseExit_fatalEffect he s.sess s

/-- A fatal error leaves SESS as it is, whatever the command's kind (R212). -/
theorem finish_raises_usage (f : State → Sess) (s : State) : finish f (.raises .usage s) = .next (fatalExit .usage s) :=
  congrArg Host.Outcome.next (raiseExit_fatal rfl (f s) s)

theorem Micro.raises_andThen {α β : Type} (e : Err) (s : State) (k : α → State → Micro β) :
    (Micro.raises e s).andThen k = .raises e s := rfl

theorem require_andThen_of_false {α : Type} {c : Bool} (hc : c = false) (e : Err) (s : State) (k : Unit → State → Micro α) :
    (require c e s).andThen k = .raises e s := by
  rw [require_andThen, hc, if_neg Bool.false_ne_true]

/-! ### Illegal session states (spec/43_session.md R151) -/

section
variable {s : State}

theorem requireDisabled_andThen_of_illegal {α : Type} (h : decide (s.sess = .disabled) = false)
    (k : Unit → State → Micro α) : (requireDisabled s).andThen k = .raises .usage s :=
  require_andThen_of_false h _ s k

theorem requireT0_andThen_of_illegal {α : Type} (h : (decide (s.sess = .transferring) && !s.resync) = false)
    (k : Unit → State → Micro α) : (requireT0 s).andThen k = .raises .usage s :=
  require_andThen_of_false h _ s k

/-- The legality check of a command fails exactly where R151's table has no entry, and comes after the width checks of SBYTE,
SBLK and RBLK (spec/60_exceptions.md R208). -/
theorem exec_of_illegal {i : Instr} (hs : s.seq = .start) (hl : legalIn i s.sess s.resync = false) (hi : i.wf s.cfg = true)
    (hb : blockCommand i = true → s.cfg.width = 8) : exec i s = .next (fatalExit .usage s) := by
  cases i with
  | lcfg | lrd | lwr | enable =>
    simp only [exec, execLcfg, execLrd, execLwr, execEnable, requireDisabled_andThen_of_illegal hl, finish_raises_usage]
  | sbit | rbit | rbyte =>
    simp only [exec, execSbit, execRbit, execRbyte, hs, requireT0_andThen_of_illegal hl, Micro.raises_andThen,
      finish_raises_usage]
  | sbyte imm =>
    have hfit : fitsWidth s.cfg imm = true := hi
    simp only [exec, execSbyte, hs, require_andThen, hfit, if_true, requireT0_andThen_of_illegal hl, finish_raises_usage]
  | wfs =>
    have hno : (decide (s.sess = .idle) || decide (s.sess = .transferring)) = false := hl
    simp only [exec, execWfs, hs, require_andThen_of_false hno, finish_raises_usage]
  | sblk | rblk =>
    simp only [exec, execSblk, execRblk, hs, requireByteWidth_andThen, hb rfl, if_true, requireT0_andThen_of_illegal hl,
      finish_raises_usage]
  | disable | bufw | bufr | reqfl | listf | sendf | retrf => cases hl

/-! ### Operands beyond the block buffer (R206) -/

theorem exec_block_of_beyond {n : BitVec 16} (hs : s.seq = .start) (ht : s.t0) (hw : s.cfg.width = 8)
    (hn : s.cfg.bufSize < n.toNat) :
    exec (.sblk n) s = .next (fatalExit .usage s) ∧ exec (.rblk n) s = .next (fatalExit .usage s) := by
  have hbeyond : decide (n.toNat ≤ s.cfg.bufSize) = false := decide_eq_false (Nat.not_le.mpr hn)
  constructor <;>
    simp only [exec, execSblk, execRblk, hs, requireByteWidth_andThen, hw, if_true, requireT0_andThen ht,
      require_andThen_of_false hbeyond, finish_raises_usage]

theorem exec_bufAccess_of_beyond {a : BitVec 16} (ha : s.cfg.bufSize ≤ a.toNat) (d : Byte) :
    exec (.bufw a d) s = .next (fatalExit .usage s) ∧ exec (.bufr a) s = .next (fatalExit .usage s) := by
  have hbeyond : decide (a.toNat < s.cfg.bufSize) = false := decide_eq_false (Nat.not_lt.mpr ha)
  constructor <;> simp only [exec, execBufw, execBufr, require_andThen_of_false hbeyond, finish_raises_usage]

end

/-- Settles O25: the legality check raises UsageError, whose exit is fatal. -/
theorem illegalSessionStateRaisesUsageError : Obligations.IllegalSessionStateRaisesUsageError := by
  unfold Obligations.IllegalSessionStateRaisesUsageError
  exact fun i s hs hl hi hb => ⟨_, exec_of_illegal hs hl hi hb, fatalExit_fatalEffect rfl s⟩

/-- Settles O26: the range check of each of the four commands raises UsageError. -/
theorem operandBeyondTheBufferRaisesUsageError : Obligations.OperandBeyondTheBufferRaisesUsageError := by
  unfold Obligations.OperandBeyondTheBufferRaisesUsageError
  refine ⟨fun s n hs ht hw hn => ?_, fun s a d ha => ?_⟩
  · obtain ⟨hsblk, hrblk⟩ := exec_block_of_beyond hs ht hw hn
    exact ⟨⟨_, hsblk, fatalExit_fatalEffect rfl s⟩, ⟨_, hrblk, fatalExit_fatalEffect rfl s⟩⟩
  · obtain ⟨hbufw, hbufr⟩ := exec_bufAccess_of_beyond ha d
    exact ⟨⟨_, hbufw, fatalExit_fatalEffect rfl s⟩, ⟨_, hbufr, fatalExit_fatalEffect rfl s⟩⟩

end Sys2Proof.Machine
end

section
/-! SUPPORT. The parity error of RecvWord (spec/42_byte_framer.md R133, spec/60_exceptions.md R203) and the obligation about it. -/

namespace Sys2Proof.Machine

/-- A parity bit that differs. -/
theorem acceptBit_of_parityMismatch {s : State} {b p : Bit} (h : s.bitCnt.toNat = s.cfg.width)
    (hp : parityBit s.cfg s.sr = some p) (hb : b ≠ p) : acceptBit b s = .raises .framingParity s := by
  have hne : ¬ some p = some b := fun he => hb (Option.some.inj he).symm
  rw [acceptBit, if_neg (by omega), hp, if_neg hne]

/-- `s` after the poll that samples a bit and takes none of it into the word. -/
def State.sampled (s : State) : State := { s with pollCnt := s.pollCnt + 1, events := s.events ++ pollSamples s }

section
variable {s : State} {p : Bit} (hd : s.dir = enabledDirs) (hs : s.seq = .poll) (hph : s.phase = .waitActive)
  (hc : s.extClk = s.cfg.active) (hcnt : s.bitCnt.toNat = s.cfg.width) (hp : parityBit s.cfg s.sr = some p)
  (hne : s.extDat ≠ p)
include hd hs hph hc hcnt hp hne

theorem recvWordResume_of_parityMismatch : recvWordResume s = .raises .framingParity s.sampled := by
  rw [recvWordResume_poll hs, pollBit_of_edge hd hph hc, Micro.andThen]
  exact acceptBit_of_parityMismatch (s := s.sampled) hcnt hp hne

/-- The word's error is the command's, with the SESS of R211. -/
theorem exec_of_parityMismatch {i : Instr} (hi : i = .rbyte ∨ ∃ cap, i = .rblk cap) :
    exec i s = .next (raiseExit (sessAfterError i s) .framingParity s.sampled) := by
  have hword := recvWordResume_of_parityMismatch hd hs hph hc hcnt hp hne
  have hr : s.seq.isRecv = true := by rw [hs]; rfl
  obtain rfl | ⟨cap, rfl⟩ := hi
  · rw [exec, execRbyte_resume hr, hword]
    rfl
  · rw [exec, execRblk_resume hr, hword]
    rfl

end

/-- Settles O38: the poll has recorded its two samples when RecvWord compares the parity bit. -/
theorem parityMismatchRaisesFramingError : Obligations.ParityMismatchRaisesFramingError := by
  unfold Obligations.ParityMismatchRaisesFramingError
  intro i s p hi hd hs hph hc hcnt hp hne
  refine ⟨_, exec_of_parityMismatch hd hs hph hc hcnt hp hne hi, ?_⟩
  rw [raiseExit_recoverable rfl]
  constructor <;> simp [State.sampled]

end Sys2Proof.Machine
end

section
/-! SUPPORT. Every agent's step keeps the configuration, and a host reset gives the block the reset table: the
obligations of spec/70_reset_and_hazards.md. -/

namespace Sys2Proof.Machine

/-! ### The configuration -/

/-- No move writes the configuration: a command keeps its environment, and reset copies it. -/
theorem Stepped.cfg_eq {s u t : State} (h : Stepped s u t) : t.cfg = u.cfg := by
  cases h with
  | micro i _ _ h => exact (commandsLeaveTheEnvironmentAlone i u t h).1
  | illegal e _ _ h => exact h ▸ raiseExit_cfg _ _ u
  | peer ln v h =>
    obtain ⟨x, y, l, e⟩ := peerStep_frame ln v u
    exact h ▸ e ▸ rfl
  | badAccess h => exact h ▸ setRefused_cfg _ _
  | idle got h | issue w ws got _ _ h | read got n h | reset ms _ h => exact h ▸ rfl

/-- Settles O13: no kind of move of `step_next` writes the configuration. -/
theorem configurationIsNeverChanged : Obligations.ConfigurationIsNeverChanged := by
  unfold Obligations.ConfigurationIsNeverChanged
  exact fun s t h => (step_next h).2.cfg_eq

/-! ### A host reset -/

/-- A reset at the head of the schedule is the reset of the block. -/
theorem step_of_reset {s : State} (hw : s.cfg.wf = true) {ms : List Move} (ha : s.agenda = .reset :: ms) :
    step s = .next (resetBlock { s with agenda := ms }) := by
  rw [step_of_agenda_cons hw ha, perform]

/-- Settles O16: `resetBlock` takes the block's fields from `State.reset`, whose table is O15, and copies the others. -/
theorem hostResetAppliesTheTable : Obligations.HostResetAppliesTheTable := by
  unfold Obligations.HostResetAppliesTheTable
  intro s ms hw ha
  obtain ⟨hlines, hsess, hresync, hbusy, herr, hfault, hres, -, -, -, hbuf, hstatus⟩ := resetStateIsTheTable
  exact ⟨_, step_of_reset hw ha, hlines, hsess, hresync, hbusy, herr, hfault, hres, rfl, hbuf, hstatus,
    rfl, rfl, rfl, rfl, rfl, rfl⟩

end Sys2Proof.Machine
end
